-- ==== Sys2Proof/Word.lean ====
section
/-! DEFINITION. The words of the block: bytes, samples, beats, register values (00_scope.md R8, R12, R13). -/

namespace Sys2Proof

/-- One byte of the input stream or of a command (20_memory.md R60). -/
abbrev Byte := BitVec 8

/-- One 16-bit sample: a count or a 5-6-5 colour code (R64, R94). -/
abbrev Sample := BitVec 16

/-- One 24-bit output beat (R62, R97). -/
abbrev Beat := BitVec 24

/-- The value of a host register (R40). -/
abbrev RegWord := BitVec 32

end Sys2Proof
end

