-- ==== Sys2Proof/Syntax.lean ====
section
/-! DEFINITION. The operations of spec/opcode_table.json, what stands at the ports when one fires, and the
fields that select it (30_encoding.md R100, 10_state.md R39). -/

namespace Sys2Proof

/-- The sequencing register `phase` (10_state.md R21). The encodings 6 and 7 are never produced by any rule and
are unrepresentable here, as R21 and U17 allow. `pfx` is the spec's `PREFIX`. -/
inductive Phase where
  | idle | pfx | length | payload | done | failed
deriving DecidableEq, Repr

/-- One constructor per row of spec/opcode_table.json, in the table's order. -/
inductive Instr where
  /-- `START` (R121): host write of `CTRL` with bit 0 set. -/
  | start
  /-- `RDREG n` (R122): host read of register number `n`. -/
  | rdreg (n : Nat)
  /-- `WRREG n, v` (R123): host write of register number `n`. -/
  | wrreg (n : Nat) (v : RegWord)
  /-- `RX.MARK b` (R144): the marker, the first prefix byte. -/
  | rxMark (b : Byte)
  /-- `RX.LCNT b` (R145): the digit-count byte, the second prefix byte. -/
  | rxLcnt (b : Byte)
  /-- `RX.LDIG b` (R147): one byte of the length field. -/
  | rxLdig (b : Byte)
  /-- `RX.PLO b` (R148): the low byte of a sample. -/
  | rxPlo (b : Byte)
  /-- `RX.PHI b` (R149): the high byte of a sample. -/
  | rxPhi (b : Byte)
  /-- `RX.TMO` (R153): the read in progress times out. -/
  | rxTmo
  /-- `FIN` (R152): the end-of-block checks. -/
  | fin
  /-- `RL.CNT smp` (R174): the count sample of a pair; a part of an `RX.PHI` step. -/
  | rlCnt (smp : Sample)
  /-- `RL.COD smp` (R175): the colour-code sample of a pair; a part of an `RX.PHI` step. -/
  | rlCod (smp : Sample)
  /-- `RL.EMIT` (R176): emit one pixel of the run in progress. -/
  | rlEmit
  /-- `CC.RGB code` (R191): the unpacker; a part of an `RL.EMIT` step. -/
  | ccRgb (code : Sample)
  /-- `RESET` (R270). -/
  | reset
  /-- `H.IDN` (R222): the host's identity check. -/
  | hIdn
  /-- `H.QUERY` (R223): the host's display-output query. -/
  | hQuery
  /-- `H.RUN` (R224): the host starts the block and waits for its end. -/
  | hRun
  /-- `H.DIM` (R226): the host's dimension check. -/
  | hDim
  /-- `H.COMMIT` (R227): the host hands the image over. -/
  | hCommit
deriving DecidableEq, Repr

/-- The six fields that fix which operation is next (10_state.md R39). -/
structure Sel where
  phase  : Phase
  rdgot  : BitVec 30
  rdrem  : BitVec 30
  runrem : BitVec 16
  bsel   : Bool
  ssel   : Bool
deriving DecidableEq, Repr

/-- The host steps that have no wire form (`null` in the table). -/
inductive HostCall where
  | run | dim | commit
deriving DecidableEq, Repr

/-- What stands at a port, or on the connection between two stages, when an operation fires: the `event` column of
R100 with the operand in its format (R91 to R99). -/
inductive Wire where
  /-- a host write, format REG (R99) -/
  | regWrite (n : Nat) (v : RegWord)
  /-- a host read, format REG (R99) -/
  | regRead (n : Nat)
  /-- a byte offered on port `IN` (R60): formats PFX, LEN, SMP -/
  | inByte (b : Byte)
  /-- `in_timeout` (R60) -/
  | inTimeout
  /-- no port: the block's own move -/
  | internal
  /-- a completed sample handed from the framer to the decoder (R143), format PAIR -/
  | sample (smp : Sample)
  /-- `out_ready` on port `OUT` (R62) -/
  | outReady
  /-- a colour code handed to the unpacker, format CODE (R96) -/
  | code (c : Sample)
  /-- the reset input (R270) -/
  | rst
  /-- an ASCII command on the host's command path, format CMD (R98) -/
  | command (bytes : List Byte)
  /-- a host step without a wire form -/
  | call (c : HostCall)
deriving DecidableEq, Repr

end Sys2Proof
end

