-- ==== Sys2Proof/WellFormed.lean ====
section
/-! DEFINITION. Which terms of `Instr` are the canonical name of something that can stand at a port. -/

namespace Sys2Proof

/-- A host write of `CTRL` with bit 0 set is the operation `START` (R121, R123): the term `wrreg 0 v` with bit 0 of
`v` set is a second spelling of it and is not well-formed. Every other operand value is legal or is the same
operation's error case (R102: no value is reserved), so there is no other check. -/
def Instr.writesOther : Instr → Bool
  | .wrreg n v => !(n == 0 && v.getLsbD 0)
  | .start => true
  | .rdreg _ => true
  | .rxMark _ => true
  | .rxLcnt _ => true
  | .rxLdig _ => true
  | .rxPlo _ => true
  | .rxPhi _ => true
  | .rxTmo => true
  | .fin => true
  | .rlCnt _ => true
  | .rlCod _ => true
  | .rlEmit => true
  | .ccRgb _ => true
  | .reset => true
  | .hIdn => true
  | .hQuery => true
  | .hRun => true
  | .hDim => true
  | .hCommit => true

/-- Well-formed: all checks together (there is one). -/
def Instr.wellFormed (i : Instr) : Bool := i.writesOther

end Sys2Proof
end

