-- ==== Sys2Proof/Decode.lean ====
section
/-! DEFINITION. The decoder (the operation map of 30_encoding.md R100) and after it the encoder. The operation is
selected by state and by whose move it is; the same byte is a marker, a digit or payload depending on where in the
block it falls (R100). -/

namespace Sys2Proof

/-- Why nothing fires. -/
inductive DecodeReject where
  /-- a byte is offered and no byte operation is enabled (R154) -/
  | byteNotTaken
  /-- a timeout is signalled while `in_ready` is 0 (R154) -/
  | timeoutNotTaken
  /-- the sink is ready and `out_valid` is 0 (R62) -/
  | noBeat
  /-- the block has no move of its own: `FIN` is not enabled (R152) -/
  | noInternalStep
  /-- a sample where none can be completed: outside the payload, or while a run is being emitted (R149, R151) -/
  | sampleNotTaken
  /-- a command that is neither of the two of R98 -/
  | unknownCommand
deriving DecidableEq, Repr

/-- What the decoder answers: an operation, or a rejection by name. -/
inductive Decoded where
  | op (i : Instr)
  | reject (r : DecodeReject)
deriving DecidableEq, Repr

/-- `in_ready` (10_state.md R48). -/
def Sel.inReady (k : Sel) : Bool :=
  k.phase == .pfx || k.phase == .length || (k.phase == .payload && k.rdrem != 0 && k.runrem == 0)

/-- `out_valid` (R48). -/
def Sel.outValid (k : Sel) : Bool := k.phase == .payload && k.runrem != 0

/-- The condition of `FIN` (R152). -/
def Sel.finReady (k : Sel) : Bool := k.phase == .payload && k.rdrem == 0 && k.runrem == 0

/-- `*IDN?\n` (R98). -/
def idnCommand : List Byte := [0x2A, 0x49, 0x44, 0x4E, 0x3F, 0x0A]

/-- `:DISPlay:OUTPut?\n` (R98). -/
def queryCommand : List Byte :=
  [0x3A, 0x44, 0x49, 0x53, 0x50, 0x6C, 0x61, 0x79, 0x3A, 0x4F, 0x55, 0x54, 0x50, 0x75, 0x74, 0x3F, 0x0A]

/-- The operation that takes byte `b`, by position in the block (R100). -/
def decodeByte (k : Sel) (b : Byte) : Decoded :=
  match k.phase with
  | .pfx =>
    if k.rdgot == 0 then .op (.rxMark b)
    else if k.rdgot == 1 then .op (.rxLcnt b)
    else .reject .byteNotTaken
  | .length => .op (.rxLdig b)
  | .payload =>
    if k.rdrem != 0 && k.runrem == 0 then
      if k.bsel then .op (.rxPhi b) else .op (.rxPlo b)
    else .reject .byteNotTaken
  | .idle => .reject .byteNotTaken
  | .done => .reject .byteNotTaken
  | .failed => .reject .byteNotTaken

/-- The operation map (R100), total on everything that can stand at a port. A host write of `CTRL` with bit 0 set
is `START`, whatever its other bits (R121, R123). -/
def decode (k : Sel) : Wire → Decoded
  | .regWrite n v => if n == 0 && v.getLsbD 0 then .op .start else .op (.wrreg n v)
  | .regRead n => .op (.rdreg n)
  | .inByte b => decodeByte k b
  | .inTimeout => if k.inReady then .op .rxTmo else .reject .timeoutNotTaken
  | .internal => if k.finReady then .op .fin else .reject .noInternalStep
  | .sample smp =>
    if k.phase == .payload && k.runrem == 0 then
      if k.ssel then .op (.rlCod smp) else .op (.rlCnt smp)
    else .reject .sampleNotTaken
  | .outReady => if k.outValid then .op .rlEmit else .reject .noBeat
  | .code c => .op (.ccRgb c)
  | .rst => .op .reset
  | .command bytes =>
    if bytes = idnCommand then .op .hIdn
    else if bytes = queryCommand then .op .hQuery
    else .reject .unknownCommand
  | .call .run => .op .hRun
  | .call .dim => .op .hDim
  | .call .commit => .op .hCommit

/-- What stands at a port when the operation fires: the formats of R91 to R99. `START` is written with the ignored
bits 31:1 zero (R121). -/
def encode : Instr → Wire
  | .start => .regWrite 0 1
  | .rdreg n => .regRead n
  | .wrreg n v => .regWrite n v
  | .rxMark b => .inByte b
  | .rxLcnt b => .inByte b
  | .rxLdig b => .inByte b
  | .rxPlo b => .inByte b
  | .rxPhi b => .inByte b
  | .rxTmo => .inTimeout
  | .fin => .internal
  | .rlCnt smp => .sample smp
  | .rlCod smp => .sample smp
  | .rlEmit => .outReady
  | .ccRgb c => .code c
  | .reset => .rst
  | .hIdn => .command idnCommand
  | .hQuery => .command queryCommand
  | .hRun => .call .run
  | .hDim => .call .dim
  | .hCommit => .call .commit

/-- The `enabled when` column of R100 (the `when` key of the table), per operation, as far as the block's state
decides it. A sample is completed only in the payload and while no run is emitted (R149), and in `IDLE`, `DONE` and
`FAILED` no block operation is enabled (R100). `true` stands for `always`; what the host steps need of the host is in their meanings (R220). -/
def Sel.enables (k : Sel) : Instr → Bool
  | .start => true
  | .rdreg _ => true
  | .wrreg _ _ => true
  | .rxMark _ => k.phase == .pfx && k.rdgot == 0
  | .rxLcnt _ => k.phase == .pfx && k.rdgot == 1
  | .rxLdig _ => k.phase == .length
  | .rxPlo _ => k.phase == .payload && k.rdrem != 0 && k.runrem == 0 && !k.bsel
  | .rxPhi _ => k.phase == .payload && k.rdrem != 0 && k.runrem == 0 && k.bsel
  | .rxTmo => k.inReady
  | .fin => k.finReady
  | .rlCnt _ => k.phase == .payload && k.runrem == 0 && !k.ssel
  | .rlCod _ => k.phase == .payload && k.runrem == 0 && k.ssel
  | .rlEmit => k.outValid
  | .ccRgb _ => true
  | .reset => true
  | .hIdn => true
  | .hQuery => true
  | .hRun => true
  | .hDim => true
  | .hCommit => true

/-! ### One table word without a state (notes/assumptions 4)

The table's rows for bytes share their patterns, so a word alone does not say which operation takes it. The
functions below fix the selecting state: for a byte that matches the pattern `0011dddd`, the first row with that
pattern for which it is not the one digit outside the row's range, and for every other byte the first byte of a
block. -/

/-- The first `n` bytes of `w`, the first byte in the least significant bits. -/
def tableBytes (n w : Nat) : List Byte := (List.range n).map fun i => BitVec.ofNat 8 (w >>> (8 * i))

/-- The 24-bit pattern of format PIX (R97): bits 18:16, 9:8 and 2:0 are zero. -/
def isPixBeat (v : Beat) : Bool := v &&& 0x070307#24 == 0

/-- What stands at the port for a word of `nbits` bits. -/
def tableWire (nbits w : Nat) : Option Wire :=
  if nbits = 8 then some (.inByte (BitVec.ofNat 8 w))
  else if nbits = 16 then some (.sample (BitVec.ofNat 16 w))
  else if nbits = 24 then (if isPixBeat (BitVec.ofNat 24 w) then some .outReady else none)
  else if nbits = 32 then some (.regWrite 0 (BitVec.ofNat 32 w))
  else if nbits = 48 then some (.command (tableBytes 6 w))
  else if nbits = 136 then some (.command (tableBytes 17 w))
  else none

/-- The selecting fields used for that word: `RX.LCNT` for `0011dddd` but `'0'`, `RX.LDIG` for `'0'`, `RX.MARK` for
every other byte, the end of an `RX.PHI` step for a sample, a run in progress for a beat. -/
def tableSel (nbits w : Nat) : Sel :=
  let idle : Sel := ⟨.idle, 0, 0, 0, false, false⟩
  if nbits = 8 then
    if 0x31 ≤ w % 256 ∧ w % 256 ≤ 0x3F then ⟨.pfx, 1, 1, 0, false, false⟩
    else if w % 256 = 0x30 then ⟨.length, 0, 1, 0, false, false⟩
    else ⟨.pfx, 0, 2, 0, false, false⟩
  else if nbits = 16 then ⟨.payload, 1, 3, 0, true, false⟩
  else if nbits = 24 then ⟨.payload, 4, 0, 1, false, false⟩
  else idle

/-- The instruction the decoder reads from a table word (the fixed name the host asks by). -/
def decodeTableWord (nbits w : Nat) : Option Instr :=
  match tableWire nbits w with
  | none => none
  | some p =>
    match decode (tableSel nbits w) p with
    | .op i => some i
    | .reject _ => none

end Sys2Proof
end

