-- ==== Sys2Proof/Config.lean ====
section
/-! DEFINITION. The parameters the spec leaves OPEN and a run needs (00_scope.md R8, 92_eei_decisions.md D18).
They have no value here, so no proof can rest on one. `READ_TIMEOUT` and `REG_BINDING` are read by no rule
of the block and have no constant (notes/assumptions 21 and 22). -/

namespace Sys2Proof

/-- First byte of `VENDOR_PREFIX` (R222). OPEN. -/
opaque Config.vendorPrefix0 : Byte

/-- Second byte of `VENDOR_PREFIX` (R222). OPEN. -/
opaque Config.vendorPrefix1 : Byte

/-- `WIDTH`, a natural number (R226). OPEN. -/
opaque Config.width : Nat

/-- `HEIGHT`, a natural number (R226). OPEN. -/
opaque Config.height : Nat

end Sys2Proof
end

