-- ==== Sys2Proof/Machine/State.lean ====
section
/-! DEFINITION. The state: the block's record of 10_state.md R20, the agents around it (00_scope.md R9) with what
they will still do, and the reasons a step can stop. Plain data. -/

namespace Sys2Proof.Machine

/-- The error kinds of 60_exceptions.md R240, R241; `none` is code 0. Codes 6 and 7 are never produced and are
unrepresentable (U17). -/
inductive ErrKind where
  | none | deviceUnresponsive | unrecognizedDevice | malformedBlock | truncatedTransfer | dimensionMismatch
deriving DecidableEq, Repr

/-- The sub-causes of R242; `none` is code 0. Codes 8 to 15 are never produced and are unrepresentable (U17). -/
inductive SubCause where
  | none | badLcnt | badLenDigit | oddBytes | oddSamples | tmoPrefix | tmoLength | tmoPayload
deriving DecidableEq, Repr

/-- The complete state of the block: exactly the twenty fields of 10_state.md R20. -/
structure Block where
  /-- R21 -/
  phase    : Phase
  /-- R22 -/
  err      : ErrKind
  /-- R23 -/
  esub     : SubCause
  /-- R24 -/
  marker   : BitVec 8
  /-- R25 -/
  lbyte    : BitVec 8
  /-- R26 -/
  lcnt     : BitVec 4
  /-- R27 -/
  nacc     : BitVec 30
  /-- R28 -/
  rdrem    : BitVec 30
  /-- R29 -/
  rdgot    : BitVec 30
  /-- R30 -/
  lenbad   : Bool
  /-- R31 -/
  bsel     : Bool
  /-- R31 -/
  lobyte   : BitVec 8
  /-- R32 -/
  ssel     : Bool
  /-- R32 -/
  cnt      : BitVec 16
  /-- R33 -/
  runrem   : BitVec 16
  /-- R34 -/
  runcode  : BitVec 16
  /-- R35 -/
  pixcnt   : BitVec 48
  /-- R36 -/
  consumed : BitVec 32
  /-- R37 -/
  expect   : BitVec 32
  /-- R37 -/
  actual   : BitVec 32
deriving DecidableEq, Repr

/-- One thing the source will still do, in order (20_memory.md R61): offer this byte, or stay silent until the read
watchdog expires (R256). -/
inductive SrcMove where
  | byte (b : Byte)
  | timeout
deriving DecidableEq, Repr

/-- How a write of a command to the instrument ends (45_capture_sequence.md R221): it is accepted, or it times out
after some of its bytes. -/
inductive CmdOutcome where
  | accepted
  | timedOut (after : Nat)
deriving DecidableEq, Repr

/-- The source agent: what it will still send, and how the command writes to come will end; where `cmds` lists none,
a write is accepted (notes/assumptions 12). -/
structure Source where
  moves : List SrcMove
  cmds  : List CmdOutcome
deriving DecidableEq, Repr

/-- A raster image handed over at `H.COMMIT` (R227): row-major RGB888 bytes with the declared width and height. -/
structure Image where
  bytes  : List Byte
  width  : Nat
  height : Nat
deriving DecidableEq, Repr

/-- The sink agent (20_memory.md R63): the beats received that are neither discarded nor committed, in order, and
the committed images. -/
structure Sink where
  beats     : List Beat
  committed : List Image
deriving DecidableEq, Repr

/-- Where the host stands in a capture (R228). `identified`: `H.IDN` succeeded. `awaitingBlock`: inside `H.RUN` (the
source's AwaitingBlock and Decoding). `captured`: `H.RUN` succeeded. `checked`: `H.DIM` passed. -/
inductive HostStage where
  | idle | awaitingIdentity | identified | awaitingBlock | captured | checked | done | failed
deriving DecidableEq, Repr

/-- The host's open parameters (R8, D18): `VENDOR_PREFIX`, `WIDTH`, `HEIGHT`. No operation writes them. -/
structure Params where
  vendor0 : Byte
  vendor1 : Byte
  width   : Nat
  height  : Nat
deriving DecidableEq, Repr

/-- The failure the host reports (R225, R226): the kind, and the context where there is one. -/
structure Report where
  kind     : ErrKind
  expected : Option Nat
  actual   : Option Nat
  esub     : Option (BitVec 4)
  consumed : Option (BitVec 32)
deriving DecidableEq, Repr

/-- The host agent. -/
structure HostSide where
  params  : Params
  stage   : HostStage
  /-- `H.QUERY` of this capture was done (R220, R223) -/
  queried : Bool
  /-- the identity line read so far (R222) -/
  line    : List Byte
  /-- the bytes written to the instrument (R221) -/
  sent    : List Byte
  /-- the value the last `RDREG` returned (R122); the model's own field -/
  rdata   : RegWord
  report  : Option Report
deriving DecidableEq, Repr

/-- A move of the host: a register access (R99) or one of the host steps of 45_capture_sequence.md. -/
inductive HostMove where
  | read (n : Nat)
  | write (n : Nat) (v : RegWord)
  | idn | query | run | dim | commit
deriving DecidableEq, Repr

/-- Whose move comes next (R9, R72). -/
inductive Turn where
  /-- the source does the next thing it will do -/
  | source
  /-- `in_timeout` is raised, whatever is on offer (R154, R157) -/
  | watchdog
  /-- the sink is ready for one beat -/
  | sink
  /-- the block makes its own move, if it has one -/
  | block
  /-- the host makes a move -/
  | host (m : HostMove)
  /-- the host reads the next thing on the stream itself (R78, R159) -/
  | drain
  /-- the reset input takes this level (R270) -/
  | rst (level : Bool)
deriving DecidableEq, Repr

/-- Everything: the block, the agents, and the order of the moves to come. -/
structure State where
  blk   : Block
  src   : Source
  sink  : Sink
  host  : HostSide
  /-- the last result of the colour unpacker (R191); the model's own field -/
  rgb   : Beat
  /-- the level of the reset input (R270) -/
  rst   : Bool
  /-- the moves still to come (R10, R72); the model's own field -/
  turns : List Turn
deriving DecidableEq, Repr

/-- Why the machine stops. -/
inductive Fault where
  /-- Raised by `step`: no turn is left and the block has no move of its own, so nothing more will ever happen. The
  hang of R11 and U14: never a state and never an error kind. Safe: nothing is claimed of what follows. -/
  | hang
deriving DecidableEq, Repr

/-- Why an operation has no meaning in a state. -/
inductive Refusal where
  /-- Raised by `exec` for an instruction the model has no meaning for. Safe. -/
  | notModelled (mnemonic : String)
  /-- Raised by a meaning asked for in a state where R100 (for a block operation) or the host's order R220 (for a
  host step) does not have it. Safe: the spec has no such step. -/
  | notEnabled (mnemonic : String)
  /-- Raised by `H.IDN` and by the turn `drain`: the host would read the stream while the block is busy, a run to
  which the spec gives no meaning (R281, U15); by `drain` also inside the identity line and between it and the block's
  end, where R222 and R224 forbid it to touch the stream. Safe. -/
  | exclusiveStream
deriving DecidableEq, Repr

/-- What a meaning answers. -/
abbrev Result := Host.Outcome State Fault Refusal

/-- The block after reset: every field 0 (10_state.md R52). -/
def Block.reset : Block where
  phase := .idle
  err := .none
  esub := .none
  marker := 0
  lbyte := 0
  lcnt := 0
  nacc := 0
  rdrem := 0
  rdgot := 0
  lenbad := false
  bsel := false
  lobyte := 0
  ssel := false
  cnt := 0
  runrem := 0
  runcode := 0
  pixcnt := 0
  consumed := 0
  expect := 0
  actual := 0

/-- The machine right after reset: the block as R52 says, nothing placed in the agents around it
(notes/assumptions 1, 17 and 20), reset released. -/
def State.reset : State where
  blk := Block.reset
  src := ⟨[], []⟩
  sink := ⟨[], []⟩
  host :=
    { params := ⟨Config.vendorPrefix0, Config.vendorPrefix1, Config.width, Config.height⟩
      stage := .idle
      queried := false
      line := []
      sent := []
      rdata := 0
      report := none }
  rgb := 0
  rst := false
  turns := []

end Sys2Proof.Machine
end

