-- ==== Sys2Proof/Machine/Operands.lean ====
section
/-! DEFINITION. How operands are assembled from bytes (30_encoding.md R101), the colour fields (R96, R190) and the
output beat (R97). Nothing is sign-extended; every widening is by zeros (R101). -/

namespace Sys2Proof.Machine

/-- `IsDigit` (R101). -/
def isDigit (b : Byte) : Bool := decide (0x30 ≤ b.toNat ∧ b.toNat ≤ 0x39)

/-- `IsCountDigit` (R101): the digit-count byte, 1 to 9 only. -/
def isCountDigit (b : Byte) : Bool := decide (0x31 ≤ b.toNat ∧ b.toNat ≤ 0x39)

/-- `DigitVal` (R101): bits 3:0. -/
def digitVal (b : Byte) : BitVec 4 := b.extractLsb' 0 4

/-- `DecVal` (R101): most significant digit first (R65). -/
def decVal (ds : List Byte) : Nat := ds.foldl (fun acc d => acc * 10 + (digitVal d).toNat) 0

/-- `Word16(lo, hi)` (R101, R64): little-endian. -/
def word16 (lo hi : Byte) : Sample := hi ++ lo

/-- One pixel's channels. -/
structure Rgb where
  r : Byte
  g : Byte
  b : Byte
deriving DecidableEq, Repr

/-- `ToRGB888` (R190), in the slice form: each field at the top of its byte, zeros below (R192). -/
def toRgb888 (code : Sample) : Rgb where
  r := code.extractLsb' 11 5 ++ 0#3
  g := code.extractLsb' 5 6 ++ 0#2
  b := code.extractLsb' 0 5 ++ 0#3

/-- The 24-bit beat of a pixel (R62, R97). -/
def packBeat (p : Rgb) : Beat := p.r ++ p.g ++ p.b

/-- The beat of a colour code: `out_data` of R48. -/
def beatOf (code : Sample) : Beat := packBeat (toRgb888 code)

/-- A beat read as bytes: R8, G8, B8 in that order (R62). -/
def beatBytes (v : Beat) : List Byte := [v.extractLsb' 16 8, v.extractLsb' 8 8, v.extractLsb' 0 8]

end Sys2Proof.Machine
end

