-- ==== Sys2Proof/Machine/Flags.lean ====
section
/-! DEFINITION. The codes of the named registers, the derived signals of 10_state.md R48 and the host registers of
R40 to R47. There are no arithmetic flags (R49). -/

namespace Sys2Proof.Machine

/-- The encoding of `phase` (R21). -/
def phaseCode : Phase → BitVec 3
  | .idle => 0
  | .pfx => 1
  | .length => 2
  | .payload => 3
  | .done => 4
  | .failed => 5

/-- The encoding of `err` (60_exceptions.md R241). -/
def errCode : ErrKind → BitVec 3
  | .none => 0
  | .deviceUnresponsive => 1
  | .unrecognizedDevice => 2
  | .malformedBlock => 3
  | .truncatedTransfer => 4
  | .dimensionMismatch => 5

/-- The kind a host reads off `STATUS.ERR` (R224, R241); 6 and 7 are never produced. -/
def kindOfCode (c : BitVec 3) : ErrKind :=
  if c = 1 then .deviceUnresponsive
  else if c = 2 then .unrecognizedDevice
  else if c = 3 then .malformedBlock
  else if c = 4 then .truncatedTransfer
  else if c = 5 then .dimensionMismatch
  else .none

/-- The encoding of `esub` (R242). -/
def subCode : SubCause → BitVec 4
  | .none => 0
  | .badLcnt => 1
  | .badLenDigit => 2
  | .oddBytes => 3
  | .oddSamples => 4
  | .tmoPrefix => 5
  | .tmoLength => 6
  | .tmoPayload => 7

/-- The fields that select the next operation (R39). -/
def Block.sel (b : Block) : Sel := ⟨b.phase, b.rdgot, b.rdrem, b.runrem, b.bsel, b.ssel⟩

/-- `in_ready` (R48). -/
def Block.inReady (b : Block) : Bool := b.sel.inReady

/-- `out_valid` (R48). -/
def Block.outValid (b : Block) : Bool := b.sel.outValid

/-- `out_data` (R48); meaningful only when `out_valid`. -/
def Block.outData (b : Block) : Beat := beatOf b.runcode

/-- `busy` (R48). -/
def Block.busy (b : Block) : Bool := b.phase == .pfx || b.phase == .length || b.phase == .payload

/-- `done` (R48, R246). -/
def Block.isDone (b : Block) : Bool := b.phase == .done

/-- `failed` (R48, R246). -/
def Block.isFailed (b : Block) : Bool := b.phase == .failed

/-- `STATUS` (R42): `PHASE` 2:0, `ERR` 5:3, `ESUB` 9:6, `IN_READY` 10, `OUT_VALID` 11, `LENBAD` 12. -/
def Block.status (b : Block) : RegWord :=
  (BitVec.ofBool b.lenbad ++ BitVec.ofBool b.outValid ++ BitVec.ofBool b.inReady ++
    subCode b.esub ++ errCode b.err ++ phaseCode b.phase).setWidth 32

/-- `HEADER` (R43): `MARKER` 7:0, `LBYTE` 15:8, `LCNT` 19:16. -/
def Block.header (b : Block) : RegWord := (b.lcnt ++ b.lbyte ++ b.marker).setWidth 32

/-- `reg[n]`: what a read of host register `n` returns (R40, R122). -/
def Block.readReg (b : Block) (n : Nat) : RegWord :=
  match n with
  | 0 => 0
  | 1 => b.status
  | 2 => b.header
  | 3 => b.nacc.setWidth 32
  | 4 => b.consumed
  | 5 => b.pixcnt.extractLsb' 0 32
  | 6 => (b.pixcnt.extractLsb' 32 16).setWidth 32
  | 7 => b.expect
  | 8 => b.actual
  | _ => 0

end Sys2Proof.Machine
end

