-- ==== Sys2Proof/Machine/Ops.lean ====
section
/-! DEFINITION. The operations the meanings share: the failure entry (60_exceptions.md R248) and the way out of it
(R250), the stream primitives (00_scope.md R14), the guard of R100, and what the host does in several of its steps. -/

namespace Sys2Proof.Machine

/-! ### The block -/

/-- `Fail(kind, sub)` (R248): the failure entry, the block's taking of an exception. Nothing else changes: no mode,
no mask, no stack, no vector (R249). -/
def Block.fail (b : Block) (kind : ErrKind) (sub : SubCause) : Block :=
  { b with phase := .failed, err := kind, esub := sub }

/-- `START` acting on the block (R121): the only return from `FAILED` beside reset (R250), and no return to the
failed capture. Ignored while busy (R288). -/
def Block.start (b : Block) : Block :=
  if b.busy then b else { Block.reset with phase := .pfx, rdrem := 2, rdgot := 0 }

/-- One byte of the current read is consumed: `consumed` and `rdgot` up by one, `rdrem` down by one
(R28, R29, R36). -/
def Block.takeByte (b : Block) : Block :=
  { b with consumed := b.consumed + 1, rdgot := b.rdgot + 1, rdrem := b.rdrem - 1 }

/-- The decoder accepts the count sample of a pair (42_rle_decoder.md R174). -/
def Block.acceptCount (b : Block) (smp : Sample) : Block := { b with cnt := smp, ssel := true }

/-- The decoder accepts the colour-code sample of a pair and starts its run (R175). -/
def Block.acceptCode (b : Block) (smp : Sample) : Block :=
  { b with runcode := smp, runrem := b.cnt, ssel := false }

/-- A completed sample goes to the decoder in the same step (R143, R149). -/
def Block.acceptSample (b : Block) (smp : Sample) : Block :=
  if b.ssel then b.acceptCode smp else b.acceptCount smp

/-- One pixel of the run has left (R176). -/
def Block.pixelGone (b : Block) : Block := { b with runrem := b.runrem - 1, pixcnt := b.pixcnt + 1 }

/-- The sub-cause of a timeout, by the read it ends (R153, R242). Outside the three reads there is no timeout. -/
def tmoSub : Phase → SubCause
  | .pfx => .tmoPrefix
  | .length => .tmoLength
  | .payload => .tmoPayload
  | .idle => .none
  | .done => .none
  | .failed => .none

/-! ### The whole state -/

/-- An operation of the block: where R100 enables it, it does `f` to the block and nothing else; elsewhere there is
no such step. -/
def State.blockOp (s : State) (i : Instr) (mnemonic : String) (f : Block → Block) : Result :=
  if s.blk.sel.enables i then .next { s with blk := f s.blk } else .refused (.notEnabled mnemonic)

/-- What an acting `START` is to the host's capture (notes/assumptions 30); `was` is the block's phase before it. After
`H.IDN` it is the `START` of `H.RUN`, however the host writes it (R224); where an earlier one was lost to a held reset
it is that one written again. In the middle of a capture otherwise, it discards the block's result (R121 (b)) and that
capture is over: there is never a second capture inside the first (R229). -/
def HostSide.started (h : HostSide) (was : Phase) : HostSide :=
  match h.stage with
  | .identified => { h with stage := .awaitingBlock }
  | .awaitingBlock => { h with stage := if was == .idle then .awaitingBlock else .idle }
  | .awaitingIdentity => { h with stage := .idle }
  | .captured => { h with stage := .idle }
  | .checked => { h with stage := .idle }
  | .idle => h
  | .done => h
  | .failed => h

/-- The host's `START`: the block's part (R121), and where it acts the host's and the sink's, whose beats left over
uncommitted belong to an earlier capture and are discarded (R283, R273 (4); notes/assumptions 16). While reset is held,
register writes are ignored (R270). -/
def State.start (s : State) : State :=
  if s.rst || s.blk.busy then s
  else { s with blk := s.blk.start, sink := { s.sink with beats := [] }, host := s.host.started s.blk.phase }

/-- A host write of register `n` (R123, R40): only `CTRL` reacts, and only to bit 0. -/
def State.writeReg (s : State) (n : Nat) (v : RegWord) : State :=
  if n == 0 && v.getLsbD 0 then s.start else s

/-- The unpacker's result (43_color_unpacker.md R191); nothing else is written. -/
def State.unpack (s : State) (code : Sample) : State := { s with rgb := beatOf code }

/-- `OutPixel` (R14): one beat is appended to the output stream. -/
def State.outPixel (s : State) (v : Beat) : State := { s with sink := { s.sink with beats := s.sink.beats ++ [v] } }

/-! ### The host -/

/-- The host's capture fails (R220: any failure aborts the whole capture): it reports the kind with its context
(R225) and every beat of the capture is void and discarded (R283). -/
def State.hostFail (s : State) (r : Report) : State :=
  { s with host := { s.host with stage := .failed, report := some r }, sink := { s.sink with beats := [] } }

/-- A failure the host finds itself, with no counts to report (R222, R221). -/
def plainReport (kind : ErrKind) : Report := ⟨kind, none, none, none, none⟩

/-- A new capture begins: nothing of an earlier one persists in the host (R220; notes/assumptions 19). -/
def HostSide.begin (h : HostSide) : HostSide :=
  { h with stage := .awaitingIdentity, queried := false, line := [], report := none }

/-- What becomes of the host's capture when the block is reset under it (R270: the only way to abandon a capture in
progress; R283: a capture that is reset is void). Inside `H.RUN`, or with the block's result not yet read, the capture
is over; elsewhere the host's steps do not hang on the block's state and go on. -/
def HostSide.abandon (h : HostSide) : HostSide :=
  match h.stage with
  | .awaitingBlock => { h with stage := .idle }
  | .captured => { h with stage := .idle }
  | .idle => h
  | .awaitingIdentity => h
  | .identified => h
  | .checked => h
  | .done => h
  | .failed => h

/-- How the next command write ends, and the outcomes after it (notes/assumptions 12). -/
def Source.nextCmd (src : Source) : CmdOutcome × List CmdOutcome :=
  match src.cmds with
  | [] => (.accepted, [])
  | c :: cs => (c, cs)

/-- The host writes a command to the instrument (R221). If the write is accepted, `after` follows; if it times out,
the capture fails with `DeviceUnresponsive`. The block is not touched: one that was started before runs on
(notes/assumptions 29). -/
def State.sendCommand (s : State) (cmd : List Byte) (after : State → State) : State :=
  let s' := { s with src := { s.src with cmds := s.src.nextCmd.2 } }
  match s.src.nextCmd.1 with
  | .accepted => after { s' with host := { s'.host with sent := s'.host.sent ++ cmd } }
  | .timedOut k =>
    { s' with host := { s'.host with sent := s'.host.sent ++ cmd.take k } }.hostFail (plainReport .deviceUnresponsive)

/-- What the host's reading of a line meets (R222). -/
inductive LineRead where
  /-- the line, up to and including the first newline, and what the source will do after it -/
  | complete (line : List Byte) (rest : List SrcMove)
  /-- the watchdog expired before the newline -/
  | timedOut (line : List Byte) (rest : List SrcMove)
  /-- the source offers nothing more for now -/
  | waiting (line : List Byte)
deriving DecidableEq, Repr

/-- Reads bytes up to and including the first 0x0A (R222, D27); `acc` is what was read before. -/
def readLine (acc : List Byte) : List SrcMove → LineRead
  | [] => .waiting acc
  | .timeout :: ms => .timedOut acc ms
  | .byte b :: ms => if b = 0x0A then .complete (acc ++ [b]) ms else readLine (acc ++ [b]) ms

/-- The first two characters are `VENDOR_PREFIX` (R222); a shorter line does not match. -/
def identityMatches (p : Params) : List Byte → Bool
  | a :: b :: _ => a == p.vendor0 && b == p.vendor1
  | [_] => false
  | [] => false

/-- The read part of `H.IDN` (R222, R230): the line is read and its prefix compared. -/
def State.readIdentity (s : State) : State :=
  match readLine s.host.line s.src.moves with
  | .complete line rest =>
    let s' := { s with src := { s.src with moves := rest }, host := { s.host with line := line } }
    if identityMatches s.host.params line then { s' with host := { s'.host with stage := .identified } }
    else s'.hostFail (plainReport .unrecognizedDevice)
  | .timedOut line rest =>
    { s with src := { s.src with moves := rest }, host := { s.host with line := line } }.hostFail
      (plainReport .deviceUnresponsive)
  | .waiting line => { s with src := { s.src with moves := [] }, host := { s.host with line := line } }

/-- One look at `STATUS` inside `H.RUN` (R224, R225): `DONE` ends the wait once `H.QUERY` was performed too (R220;
notes/assumptions 15), `FAILED` fails the capture with the kind numbered `STATUS.ERR` and the block's own context,
anything else waits on. -/
def State.pollBlock (s : State) : State :=
  let status := s.blk.readReg 1
  if status.extractLsb' 0 3 = 4#3 then
    if s.host.queried then { s with host := { s.host with stage := .captured } } else s
  else if status.extractLsb' 0 3 = 5#3 then
    s.hostFail
      { kind := kindOfCode (status.extractLsb' 3 3)
        expected := some (s.blk.readReg 7).toNat
        actual := some (s.blk.readReg 8).toNat
        esub := some (status.extractLsb' 6 4)
        consumed := some (s.blk.readReg 4) }
  else s

/-- The first part of `H.RUN` (R224): `WRREG 0, 1`, and the host waits for the block even where the write is lost
(R270, R288). -/
def State.beginRun (s : State) : State :=
  { s.writeReg 0 1 with host := { s.host with stage := .awaitingBlock } }

/-- Whether the input stream is the host's to read outside `H.IDN` (R78): not while the block is busy (R281), not
inside the identity line, not between that line and `START`, and from then not before `DONE` or `FAILED` (R224;
notes/assumptions 18). -/
def State.hostMayRead (s : State) : Bool :=
  !s.blk.busy &&
    match s.host.stage with
    | .awaitingIdentity => false
    | .identified => false
    | .awaitingBlock => s.blk.phase != .idle
    | .idle => true
    | .captured => true
    | .checked => true
    | .done => true
    | .failed => true

/-- The pixel count as the host reads it (R226): `{RDREG 6 [15:0], RDREG 5}`. -/
def Block.pixelCount (b : Block) : BitVec 48 := (b.readReg 6).extractLsb' 0 16 ++ b.readReg 5

end Sys2Proof.Machine
end

