-- ==== Sys2Proof/Machine/Color.lean ====
section
/-! DEFINITION. The colour unpacker's operation (43_color_unpacker.md). -/

namespace Sys2Proof.Machine

/-- `CC.RGB code` (R191): a pure function of the operand, always enabled; only its result port takes a value. -/
def execCcRgb (code : Sample) (s : State) : Result := .next (s.unpack code)

end Sys2Proof.Machine
end

