-- ==== Sys2Proof/Machine/Framer.lean ====
section
/-! DEFINITION. The framer's operations (41_block_framer.md). -/

namespace Sys2Proof.Machine

/-- `RX.MARK b` (R144): any byte is accepted (R142). -/
def execRxMark (b : Byte) (s : State) : Result :=
  s.blockOp (.rxMark b) "RX.MARK" fun k =>
    { k with marker := b, consumed := k.consumed + 1, rdgot := 1, rdrem := 1 }

/-- What `RX.LCNT b` does to the block (R145). -/
def Block.countDigit (k : Block) (b : Byte) : Block :=
  let k' := { k with lbyte := b, consumed := k.consumed + 1 }
  if isCountDigit b then
    { k' with lcnt := digitVal b, phase := .length, rdrem := (digitVal b).setWidth 30, rdgot := 0 }
  else { k' with rdgot := 2, rdrem := 0 }.fail .malformedBlock .badLcnt

/-- `RX.LCNT b` (R145). -/
def execRxLcnt (b : Byte) (s : State) : Result := s.blockOp (.rxLcnt b) "RX.LCNT" (·.countDigit b)

/-- The decimal accumulation (R146, R147): a non-digit is skipped. -/
def Block.accumulate (k : Block) (b : Byte) : BitVec 30 :=
  if isDigit b then k.nacc * 10 + (digitVal b).setWidth 30 else k.nacc

/-- What `RX.LDIG b` does to the block (R147): the bad digit is raised only by the last length byte. -/
def Block.lengthDigit (k : Block) (b : Byte) : Block :=
  let k' := { k with
    consumed := k.consumed + 1
    nacc := k.accumulate b
    lenbad := if isDigit b then k.lenbad else true }
  let left := k.rdrem - 1
  if left != 0 then { k' with rdrem := left, rdgot := k.rdgot + 1 }
  else if k'.lenbad then { k' with rdrem := 0, rdgot := k.rdgot + 1 }.fail .malformedBlock .badLenDigit
  else { k' with phase := .payload, rdrem := k'.nacc, rdgot := 0, bsel := false, ssel := false }

/-- `RX.LDIG b` (R147). -/
def execRxLdig (b : Byte) (s : State) : Result := s.blockOp (.rxLdig b) "RX.LDIG" (·.lengthDigit b)

/-- `RX.PLO b` (R148). -/
def execRxPlo (b : Byte) (s : State) : Result :=
  s.blockOp (.rxPlo b) "RX.PLO" fun k => { k.takeByte with lobyte := b, bsel := true }

/-- What `RX.PHI b` does to the block (R149): the sample goes to the decoder in the same step. -/
def Block.highByte (k : Block) (b : Byte) : Block :=
  { k.takeByte with bsel := false }.acceptSample (word16 k.lobyte b)

/-- `RX.PHI b` (R149). -/
def execRxPhi (b : Byte) (s : State) : Result := s.blockOp (.rxPhi b) "RX.PHI" (·.highByte b)

/-- What `FIN` does to the block (R152): bytes before samples. -/
def Block.finish (k : Block) : Block :=
  if k.bsel then k.fail .malformedBlock .oddBytes
  else if k.ssel then k.fail .malformedBlock .oddSamples
  else { k with phase := .done }

/-- `FIN` (R152). -/
def execFin (s : State) : Result := s.blockOp .fin "FIN" Block.finish

/-- What `RX.TMO` does to the block (R153): the kind is that of the current read, by what it has received. -/
def Block.timeOut (k : Block) : Block :=
  { k with expect := (k.rdgot + k.rdrem).setWidth 32, actual := k.rdgot.setWidth 32 }.fail
    (if k.rdgot = 0 then .deviceUnresponsive else .truncatedTransfer) (tmoSub k.phase)

/-- `RX.TMO` (R153). -/
def execRxTmo (s : State) : Result := s.blockOp .rxTmo "RX.TMO" Block.timeOut

end Sys2Proof.Machine
end

