-- ==== Sys2Proof/Machine/HostControl.lean ====
section
/-! DEFINITION. The host control operations (40_host_control.md). -/

namespace Sys2Proof.Machine

/-- `START` (R121). -/
def execStart (s : State) : Result := .next s.start

/-- `RDREG n` (R122): no state of the block changes; the result goes to the host. -/
def execRdreg (n : Nat) (s : State) : Result :=
  .next { s with host := { s.host with rdata := s.blk.readReg n } }

/-- `WRREG n, v` (R123). -/
def execWrreg (n : Nat) (v : RegWord) (s : State) : Result := .next (s.writeReg n v)

end Sys2Proof.Machine
end

