-- ==== Sys2Proof/Machine/HostSteps.lean ====
section
/-! DEFINITION. The host's capture sequence (45_capture_sequence.md): five host steps in the order of R220, each at
most once per capture. -/

namespace Sys2Proof.Machine

/-- `H.IDN` (R222): sends the identity query, reads one line, compares its first two characters. It begins a capture
where none is in progress; while the line has not ended and the source offers nothing, the read waits
(`awaitingIdentity`) and the step goes on from there. The host must not read the stream while the block is busy. -/
def execHIdn (s : State) : Result :=
  if s.blk.busy then .refused .exclusiveStream
  else
    match s.host.stage with
    | .idle => .next ({ s with host := s.host.begin }.sendCommand idnCommand State.readIdentity)
    | .done => .next ({ s with host := s.host.begin }.sendCommand idnCommand State.readIdentity)
    | .failed => .next ({ s with host := s.host.begin }.sendCommand idnCommand State.readIdentity)
    | .awaitingIdentity => .next s.readIdentity
    | .identified => .refused (.notEnabled "H.IDN")
    | .awaitingBlock => .refused (.notEnabled "H.IDN")
    | .captured => .refused (.notEnabled "H.IDN")
    | .checked => .refused (.notEnabled "H.IDN")

/-- `H.QUERY` (R223): sends the display-output query; no response is read by the host. After `H.IDN` succeeded, once
per capture, before `H.RUN` or after its `START` (R224, R273). If the write times out after `START`, the host's capture
fails and the block runs on unwatched, so it may latch a kind that nobody reports: the spec does not say what becomes of
it (R244; the model's choice, notes/assumptions 29). -/
def execHQuery (s : State) : Result :=
  if !s.host.queried && (s.host.stage == .identified || s.host.stage == .awaitingBlock) then
    .next (s.sendCommand queryCommand fun s' => { s' with host := { s'.host with queried := true } })
  else .refused (.notEnabled "H.QUERY")

/-- `H.RUN` (R224): `START`, then the wait for `DONE` or `FAILED`, one look at `STATUS` each time the host comes
back to it; block steps fall between the looks (R79). It does not end well before `H.QUERY` was performed (R220). -/
def execHRun (s : State) : Result :=
  match s.host.stage with
  | .identified => .next s.beginRun
  | .awaitingBlock => .next s.pollBlock
  | .idle => .refused (.notEnabled "H.RUN")
  | .awaitingIdentity => .refused (.notEnabled "H.RUN")
  | .captured => .refused (.notEnabled "H.RUN")
  | .checked => .refused (.notEnabled "H.RUN")
  | .done => .refused (.notEnabled "H.RUN")
  | .failed => .refused (.notEnabled "H.RUN")

/-- `H.DIM` (R226): the pixel count against `WIDTH * HEIGHT`, a product of natural numbers. -/
def execHDim (s : State) : Result :=
  if s.host.stage = .captured then
    let actual := s.blk.pixelCount.toNat
    let expected := s.host.params.width * s.host.params.height
    if actual ≠ expected then
      .next (s.hostFail ⟨.dimensionMismatch, some expected, some actual, none, none⟩)
    else .next { s with host := { s.host with stage := .checked } }
  else .refused (.notEnabled "H.DIM")

/-- `H.COMMIT` (R227): the bytes the sink holds are good and are handed on with `WIDTH` and `HEIGHT`. -/
def execHCommit (s : State) : Result :=
  if s.host.stage = .checked then
    let image : Image := ⟨s.sink.beats.flatMap beatBytes, s.host.params.width, s.host.params.height⟩
    .next { s with
      sink := ⟨[], s.sink.committed ++ [image]⟩
      host := { s.host with stage := .done } }
  else .refused (.notEnabled "H.COMMIT")

end Sys2Proof.Machine
end

