-- ==== Sys2Proof/Machine/Reset.lean ====
section
/-! DEFINITION. Reset (70_reset_and_hazards.md). -/

namespace Sys2Proof.Machine

/-- `RESET` (R270): every field of the block at its reset value, in any phase. The input stream and the beats the
sink holds are not touched (R271). The host, which asserts it (R9), gives up the capture in progress. -/
def execReset (s : State) : Result := .next { s with blk := Block.reset, host := s.host.abandon }

end Sys2Proof.Machine
end

