-- ==== Sys2Proof/Machine/RunLength.lean ====
section
/-! DEFINITION. The run-length decoder's operations (42_rle_decoder.md). -/

namespace Sys2Proof.Machine

/-- `RL.CNT smp` (R174): a part of an `RX.PHI` step, which does it through the same shared operation. -/
def execRlCnt (smp : Sample) (s : State) : Result := s.blockOp (.rlCnt smp) "RL.CNT" (·.acceptCount smp)

/-- `RL.COD smp` (R175): a part of an `RX.PHI` step. -/
def execRlCod (smp : Sample) (s : State) : Result := s.blockOp (.rlCod smp) "RL.COD" (·.acceptCode smp)

/-- `RL.EMIT` (R176): the unpacker converts the code, the beat leaves, the counters move. -/
def execRlEmit (s : State) : Result :=
  if s.blk.sel.enables .rlEmit then
    let s' := s.unpack s.blk.runcode
    .next { s'.outPixel s'.rgb with blk := s.blk.pixelGone }
  else .refused (.notEnabled "RL.EMIT")

end Sys2Proof.Machine
end

