-- ==== Sys2Proof/Machine/Dispatch.lean ====
section
/-! DEFINITION. One arm per operation of the table. -/

namespace Sys2Proof.Machine

def exec (i : Instr) (s : State) : Host.Outcome State Fault Refusal :=
  match i with
  | .start => Sys2Proof.Machine.execStart s
  | .rdreg n => Sys2Proof.Machine.execRdreg n s
  | .wrreg n v => Sys2Proof.Machine.execWrreg n v s
  | .rxMark b => Sys2Proof.Machine.execRxMark b s
  | .rxLcnt b => Sys2Proof.Machine.execRxLcnt b s
  | .rxLdig b => Sys2Proof.Machine.execRxLdig b s
  | .rxPlo b => Sys2Proof.Machine.execRxPlo b s
  | .rxPhi b => Sys2Proof.Machine.execRxPhi b s
  | .rxTmo => Sys2Proof.Machine.execRxTmo s
  | .fin => Sys2Proof.Machine.execFin s
  | .rlCnt smp => Sys2Proof.Machine.execRlCnt smp s
  | .rlCod smp => Sys2Proof.Machine.execRlCod smp s
  | .rlEmit => Sys2Proof.Machine.execRlEmit s
  | .ccRgb code => Sys2Proof.Machine.execCcRgb code s
  | .reset => Sys2Proof.Machine.execReset s
  | .hIdn => Sys2Proof.Machine.execHIdn s
  | .hQuery => Sys2Proof.Machine.execHQuery s
  | .hRun => Sys2Proof.Machine.execHRun s
  | .hDim => Sys2Proof.Machine.execHDim s
  | .hCommit => Sys2Proof.Machine.execHCommit s

end Sys2Proof.Machine
end

