-- ==== Sys2Proof/Machine/Fetch.lean ====
section
/-! DEFINITION. How the next operation is found (this machine's fetch): the next turn says whose move it is, the
decoder says which operation that move fires (30_encoding.md R100), and the byte or the timeout it takes is gone from
the source. -/

namespace Sys2Proof.Machine

/-- What a turn comes to. -/
inductive Fetched where
  /-- the operation `i` fires; `s` is the state it finds, with the turn and what it takes already gone -/
  | run (i : Instr) (s : State)
  /-- the turn passes and no operation fires -/
  | pass (s : State)
  /-- the spec gives this move no meaning -/
  | refuse (r : Refusal)
  /-- no move is left -/
  | hang
deriving DecidableEq, Repr

/-- What the host puts on the register port or the command path (R99, R98). -/
def hostWire : HostMove → Wire
  | .read n => .regRead n
  | .write n v => .regWrite n v
  | .idn => .command idnCommand
  | .query => .command queryCommand
  | .run => .call .run
  | .dim => .call .dim
  | .commit => .call .commit

/-- The source's list is now `ms`. -/
def State.withMoves (s : State) (ms : List SrcMove) : State := { s with src := { s.src with moves := ms } }

/-- If the decoder has an operation for what stands at the port it runs in `s'`; else the turn passes in `s`. -/
def fire (d : Decoded) (s' s : State) : Fetched :=
  match d with
  | .op i => .run i s'
  | .reject _ => .pass s

/-- The source's move (R61): a byte not taken stays on offer (R154); a silence is measured only while `in_ready`
holds (R282), so it stays too until then. -/
def State.serveSource (s : State) : Fetched :=
  match s.src.moves with
  | [] => .pass s
  | .byte b :: ms => fire (decode s.blk.sel (.inByte b)) (s.withMoves ms) s
  | .timeout :: ms => fire (decode s.blk.sel .inTimeout) (s.withMoves ms) s

/-- `in_timeout` raised at the port: a byte on offer is taken instead (R157); while `in_ready` is 0 the signal has no
effect and is not remembered (R154). -/
def State.serveWatchdog (s : State) : Fetched :=
  match s.src.moves with
  | [] => fire (decode s.blk.sel .inTimeout) s s
  | .byte b :: ms => fire (decode s.blk.sel (.inByte b)) (s.withMoves ms) s
  | .timeout :: ms => fire (decode s.blk.sel .inTimeout) (s.withMoves ms) s

/-- What the turn `t` comes to in `s`. -/
def State.serve (s : State) : Turn → Fetched
  | .source => s.serveSource
  | .watchdog => s.serveWatchdog
  | .sink => fire (decode s.blk.sel .outReady) s s
  | .block => fire (decode s.blk.sel .internal) s s
  | .host m => fire (decode s.blk.sel (hostWire m)) s s
  | .drain => if s.hostMayRead then .pass (s.withMoves s.src.moves.tail) else .refuse .exclusiveStream
  | .rst true => fire (decode s.blk.sel .rst) { s with rst := true } s
  | .rst false => .pass { s with rst := false }

/-- The next operation. Where the environment moves no more, the block's own move is all that can happen (R72). -/
def State.fetch (s : State) : Fetched :=
  match s.turns with
  | t :: ts => { s with turns := ts }.serve t
  | [] =>
    match decode s.blk.sel .internal with
    | .op i => .run i s
    | .reject _ => .hang

/-- The selecting fields of `k`, in a block. -/
def Block.withSel (b : Block) (k : Sel) : Block :=
  { b with phase := k.phase, rdgot := k.rdgot, rdrem := k.rdrem, runrem := k.runrem, bsel := k.bsel, ssel := k.ssel }

/-- The colour code whose beat is `v` (R193): `{R8[7:3], G8[7:2], B8[7:3]}`. -/
def codeOfBeat (v : Beat) : Sample := v.extractLsb' 19 5 ++ v.extractLsb' 10 6 ++ v.extractLsb' 3 5

/-- `s` with the table word `w` placed so that the next step takes it (notes/assumptions 4): a byte is the next the
source offers, in the selecting state the decoder used for it; a sample is the low byte held and the high byte next,
so that an `RX.PHI` step completes it; a beat is the code of a run of one with the sink's turn next; a 32-bit word is a
host write of `CTRL`; the two commands are the host's turns. -/
def placeWord (s : State) (nbits w : Nat) : State :=
  let s' := { s with blk := s.blk.withSel (tableSel nbits w) }
  if nbits = 8 then
    { s'.withMoves (.byte (BitVec.ofNat 8 w) :: s.src.moves) with turns := .source :: s.turns }
  else if nbits = 16 then
    { s'.withMoves (.byte (BitVec.ofNat 8 (w >>> 8)) :: s.src.moves) with
      blk := { s'.blk with lobyte := BitVec.ofNat 8 w }, turns := .source :: s.turns }
  else if nbits = 24 then
    { s' with blk := { s'.blk with runcode := codeOfBeat (BitVec.ofNat 24 w) }, turns := .sink :: s.turns }
  else if nbits = 32 then { s with turns := .host (.write 0 (BitVec.ofNat 32 w)) :: s.turns }
  else if nbits = 48 then { s with turns := .host .idn :: s.turns }
  else if nbits = 136 then
    { s with turns := .host .query :: s.turns, host := { s.host with stage := .identified, queried := false } }
  else s

end Sys2Proof.Machine
end

