-- ==== Sys2Proof/Machine/Step.lean ====
section
/-! DEFINITION. One step: the next turn, and the operation it fires. -/

namespace Sys2Proof.Machine

/-- One step of the machine (R9, R71 (4)): one turn, one atomic operation or none. -/
def step (s : State) : Host.Outcome State Fault Refusal :=
  match s.fetch with
  | .run i s' => exec i s'
  | .pass s' => .next s'
  | .refuse r => .refused r
  | .hang => .fault .hang

/-- `s` with the instruction of the table word `w` placed so that the next step runs it. -/
def State.withFetchWord (s : State) (nbits w : Nat) : State := placeWord s nbits w

end Sys2Proof.Machine
end

