-- ==== Sys2Proof/Machine/Contract.lean ====
section
/-! DEFINITION. The function-level contracts of the source, which the steps refine (44_block_level_function.md):
`ParseBlock`, `RleDecode`, `Convert`, `Capture`, and the end state as a function of the input (R203). -/

namespace Sys2Proof.Machine

/-- The error of a read that got only `g` bytes before the timeout (41_block_framer.md R141, R153). -/
def shortKind (g : Nat) : ErrKind := if g = 0 then .deviceUnresponsive else .truncatedTransfer

/-- `take(k)` (R141): the next `k` bytes and the rest, or the error of a short read. -/
def takeBytes (k : Nat) (bs : List Byte) : Except ErrKind (List Byte × List Byte) :=
  if bs.length < k then .error (shortKind bs.length) else .ok (bs.take k, bs.drop k)

/-- Payload bytes as samples (R64, R94); a byte left over at the end is half a sample and gives none. -/
def samplesOf : List Byte → List Sample
  | lo :: hi :: rest => word16 lo hi :: samplesOf rest
  | [_] => []
  | [] => []

/-- `ParseBlock` (R141) on a byte string followed by silence. -/
def parseBlock (bs : List Byte) : Except ErrKind (List Sample) :=
  match takeBytes 2 bs with
  | .error e => .error e
  | .ok (p, r) =>
    let c := p.getD 1 0
    if isCountDigit c then
      match takeBytes (digitVal c).toNat r with
      | .error e => .error e
      | .ok (d, r') =>
        if d.all isDigit then
          match takeBytes (decVal d) r' with
          | .error e => .error e
          | .ok (y, _) => if decVal d % 2 = 1 then .error .malformedBlock else .ok (samplesOf y)
        else .error .malformedBlock
    else .error .malformedBlock

/-- `RleDecode` (42_rle_decoder.md R170, R171): an odd number of samples is `MalformedBlock` (R173). -/
def rleDecode : List Sample → Except ErrKind (List Sample)
  | count :: code :: rest =>
    match rleDecode rest with
    | .ok px => .ok (List.replicate count.toNat code ++ px)
    | .error e => .error e
  | [_] => .error .malformedBlock
  | [] => .ok []

/-- The encoder that emits one pair per maximal run, counts as natural numbers; not part of this hardware, only for the
round-trip law of R177 item 2. -/
def maximalRuns : List Sample → List (Nat × Sample)
  | [] => []
  | code :: rest =>
    match maximalRuns rest with
    | [] => [(1, code)]
    | (n, other) :: more => if code = other then (n + 1, other) :: more else (1, code) :: (n, other) :: more

/-- `Convert` (43_color_unpacker.md R194): three bytes per pixel, R G B. -/
def convert (px : List Sample) : List Byte :=
  px.flatMap fun code => [(toRgb888 code).r, (toRgb888 code).g, (toRgb888 code).b]

/-- `Capture` (44_block_level_function.md R200). -/
def capture (bs : List Byte) : Except ErrKind (List Sample × List Byte) :=
  match parseBlock bs with
  | .error e => .error e
  | .ok ss =>
    match rleDecode ss with
    | .error e => .error e
    | .ok px => .ok (px, convert px)

/-- The expansion of the complete pairs among the payload bytes received (R95, R201 item 2). -/
def expandPairs : List Byte → List Sample
  | c0 :: c1 :: k0 :: k1 :: rest => List.replicate (word16 c0 c1).toNat (word16 k0 k1) ++ expandPairs rest
  | [_, _, _] => []
  | [_, _] => []
  | [_] => []
  | [] => []

/-- One row of the table of R203, with the pixels themselves in place of their number. -/
structure EndState where
  phase    : Phase
  err      : ErrKind
  esub     : SubCause
  consumed : Nat
  pixels   : List Sample
  expect   : Nat
  actual   : Nat
deriving DecidableEq, Repr

/-- The rows of R203 from the payload on: `l` is `L`, `n` is `N`, `body` the bytes after the length field. -/
def payloadEnd (l n : Nat) (body : List Byte) : EndState :=
  if body.length < n then
    ⟨.failed, shortKind body.length, .tmoPayload, 2 + l + body.length, expandPairs body, n, body.length⟩
  else if n % 2 = 1 then ⟨.failed, .malformedBlock, .oddBytes, 2 + l + n, expandPairs (body.take n), 0, 0⟩
  else if n % 4 = 2 then ⟨.failed, .malformedBlock, .oddSamples, 2 + l + n, expandPairs (body.take n), 0, 0⟩
  else ⟨.done, .none, .none, 2 + l + n, expandPairs (body.take n), 0, 0⟩

/-- The rows of R203 from the length field on: `rest` is the bytes after the prefix. -/
def lengthEnd (l : Nat) (rest : List Byte) : EndState :=
  if rest.length < l then
    ⟨.failed, shortKind rest.length, .tmoLength, 2 + rest.length, [], l, rest.length⟩
  else if (rest.take l).all isDigit then payloadEnd l (decVal (rest.take l)) (rest.drop l)
  else ⟨.failed, .malformedBlock, .badLenDigit, 2 + l, [], 0, 0⟩

/-- The end state as a function of the bytes the source sends before it falls silent (R203, R156). -/
def endOf : List Byte → EndState
  | [] => ⟨.failed, .deviceUnresponsive, .tmoPrefix, 0, [], 2, 0⟩
  | [_] => ⟨.failed, .truncatedTransfer, .tmoPrefix, 1, [], 2, 1⟩
  | _ :: c :: rest =>
    if isCountDigit c then lengthEnd (digitVal c).toNat rest
    else ⟨.failed, .malformedBlock, .badLcnt, 2, [], 0, 0⟩

end Sys2Proof.Machine
end

