-- ==== Sys2Proof/Safety.lean ====
section
/-! DEFINITION. What the claims mean by a good state and by a fair run: the invariants of 10_state.md R51 with what
makes them inductive, and the schedules of 44_block_level_function.md R201. -/

namespace Sys2Proof.Machine

/-- The invariants of R51 over the block. Item 8 of R51 speaks of the bytes received and is stated over runs. The
fields named `…Aux` and `…Bound` are not in R51: they make the whole inductive (R27, R35 and R36 give the bounds, R37 `counts`). -/
structure Block.Inv (b : Block) : Prop where
  /-- R51 item 1 -/
  idle : b.phase = .idle → b = Block.reset
  /-- R51 item 2 -/
  pfx : b.phase = .pfx →
    b.rdgot.toNat ≤ 1 ∧ b.rdrem.toNat = 2 - b.rdgot.toNat ∧ b.consumed.toNat = b.rdgot.toNat ∧
      b.lcnt = 0 ∧ b.nacc = 0 ∧ b.pixcnt = 0
  pfxAux : b.phase = .pfx → b.runrem = 0 ∧ b.bsel = false ∧ b.ssel = false ∧ b.lenbad = false
  /-- R51 item 3 -/
  length : b.phase = .length →
    1 ≤ b.lcnt.toNat ∧ b.lcnt.toNat ≤ 9 ∧ b.rdgot.toNat + b.rdrem.toNat = b.lcnt.toNat ∧ 1 ≤ b.rdrem.toNat ∧
      b.consumed.toNat = 2 + b.rdgot.toNat ∧ b.pixcnt = 0
  lengthAux : b.phase = .length →
    b.nacc.toNat < 10 ^ b.rdgot.toNat ∧ b.runrem = 0 ∧ b.bsel = false ∧ b.ssel = false
  /-- R51 item 4 -/
  payload : b.phase = .payload →
    b.lenbad = false ∧ b.rdgot.toNat + b.rdrem.toNat = b.nacc.toNat ∧
      b.consumed.toNat = 2 + b.lcnt.toNat + b.rdgot.toNat ∧ b.bsel = decide (b.rdgot.toNat % 2 = 1) ∧
      b.ssel = decide (b.rdgot.toNat / 2 % 2 = 1) ∧ b.runrem.toNat ≤ b.cnt.toNat ∧
      (b.runrem ≠ 0 → b.bsel = false ∧ b.ssel = false)
  payloadAux : b.phase = .payload →
    1 ≤ b.lcnt.toNat ∧ b.pixcnt.toNat + b.runrem.toNat ≤ 65535 * (b.rdgot.toNat / 4)
  /-- R51 item 5 -/
  done : b.phase = .done →
    b.err = .none ∧ b.esub = .none ∧ b.rdrem = 0 ∧ b.runrem = 0 ∧ b.bsel = false ∧ b.ssel = false ∧
      b.nacc.toNat % 4 = 0 ∧ b.consumed.toNat = 2 + b.lcnt.toNat + b.nacc.toNat
  /-- R51 item 6 -/
  failedIff : b.phase = .failed ↔ b.err ≠ .none
  /-- R51 item 6 -/
  failedKinds : b.phase = .failed →
    (b.err = .deviceUnresponsive ∨ b.err = .malformedBlock ∨ b.err = .truncatedTransfer) ∧ b.esub ≠ .none
  noEsub : b.phase ≠ .failed → b.esub = .none
  /-- R37 -/
  counts : b.phase ≠ .failed → b.expect = 0 ∧ b.actual = 0
  /-- R51 item 7 (phases 6, 7 and sub-causes above 7 are unrepresentable) -/
  lcntBound : b.lcnt.toNat ≤ 9
  /-- R27 -/
  naccBound : b.nacc.toNat ≤ 999999999
  /-- R35 -/
  pixcntBound : b.pixcnt.toNat ≤ 249999999 * 65535
  /-- R36 -/
  consumedBound : b.consumed.toNat ≤ 1000000010

/-- The stages at which the identity check of the capture has succeeded (R220, R222). -/
def HostStage.pastIdentity : HostStage → Bool
  | .identified => true
  | .awaitingBlock => true
  | .captured => true
  | .checked => true
  | .done => true
  | .idle => false
  | .awaitingIdentity => false
  | .failed => false

/-- The stages that only `H.RUN`'s good end leads to. -/
def HostStage.pastRun : HostStage → Bool
  | .captured => true
  | .checked => true
  | .done => true
  | .idle => false
  | .awaitingIdentity => false
  | .identified => false
  | .awaitingBlock => false
  | .failed => false

/-- A good state: the block's invariants, a held reset keeps the block in its reset state (R270), a failed capture
has a report (R225), no capture is past `H.IDN` without a matching identity line (R222) nor past `H.RUN` without its
query (R220), the block is the host's to start after `H.IDN` (R224) and holds its result until `H.DIM` (R229), and the
sink's uncommitted beats are those of the capture in progress and no others (R226, R227, R283). -/
structure State.Inv (s : State) : Prop where
  blk : s.blk.Inv
  rstHeld : s.rst = true → s.blk = Block.reset
  report : s.host.stage = .failed ↔ s.host.report.isSome = true
  identity : s.host.stage.pastIdentity = true → identityMatches s.host.params s.host.line = true
  queried : s.host.stage.pastRun = true → s.host.queried = true
  ready : s.host.stage = .awaitingIdentity ∨ s.host.stage = .identified ∨ s.host.stage = .checked →
    s.blk.busy = false
  result : s.host.stage = .captured → s.blk.phase = .done
  beats : s.host.stage = .awaitingBlock ∨ s.host.stage = .captured → s.blk.phase ≠ .idle →
    s.sink.beats.length = s.blk.pixcnt.toNat
  image : s.host.stage = .checked → s.sink.beats.length = s.host.params.width * s.host.params.height

/-- The turns that belong to a capture left to itself (R201): the source, the sink and the block move, the host reads
registers and makes no write that starts anything. -/
def Turn.quiet : Turn → Bool
  | .source => true
  | .sink => true
  | .block => true
  | .host (.read _) => true
  | .host (.write n v) => !(n == 0 && v.getLsbD 0)
  | .host .idn => false
  | .host .query => false
  | .host .run => false
  | .host .dim => false
  | .host .commit => false
  | .watchdog => false
  | .drain => false
  | .rst _ => false

/-- One fair round: quiet turns among which the source, the sink and the block each move at least once. -/
def fairRound (ts : List Turn) : Bool :=
  ts.all Turn.quiet && ts.contains .source && ts.contains .sink && ts.contains .block

/-- Enough fair rounds for the capture of `n` bytes: a round makes at least one step of the block (R290). -/
def enoughRounds (n : Nat) : Nat := 65536 * (n + 2)

/-- The block's fields are those of a row of R203. -/
def EndState.describes (e : EndState) (b : Block) : Prop :=
  b.phase = e.phase ∧ b.err = e.err ∧ b.esub = e.esub ∧ b.consumed.toNat = e.consumed ∧
    b.pixcnt.toNat = e.pixels.length ∧ b.expect.toNat = e.expect ∧ b.actual.toNat = e.actual

end Sys2Proof.Machine
end

