-- ==== Sys2Proof/Certificates/Slice0/Obligations.lean ====
section
/-! DEFINITION. The statements about the block framer, for the provers. Each docstring names the rule of spec/ it
formalises. An equation `exec i s = .next { s with … }` says both what changes and that nothing else does. -/

open Sys2Proof Sys2Proof.Machine

/-! ### Decoding -/

/-- Decode and encode agree: every well-formed operation, wherever it is enabled, is read back with every operand
(R90 to R100). -/
def Obligations.DecodeOfEncode : Prop :=
  ∀ (i : Instr) (k : Sel), i.wellFormed = true → k.enables i = true → decode k (encode i) = .op i

/-- The other direction: whatever the decoder answers is well-formed, enabled by R100, and encodes what stood at the
port, up to the ignored bits of a `START` write (R121). -/
def Obligations.DecodeOnlyEnabled : Prop :=
  ∀ (k : Sel) (p : Wire) (i : Instr), decode k p = .op i →
    i.wellFormed = true ∧ k.enables i = true ∧
      (encode i = p ∨ ∃ v : RegWord, v.getLsbD 0 = true ∧ p = .regWrite 0 v ∧ i = .start)

/-- The operation map of R100: the enabling condition of every operation of the block in terms of the fields of R39,
and that the conditions exclude one another (a timeout shares its condition with the byte operations only). -/
def Obligations.OperationsExcludeOneAnother : Prop :=
  ∀ (k : Sel) (b : Byte),
    (k.enables (.rxMark b) = true ↔ k.phase = .pfx ∧ k.rdgot = 0) ∧
    (k.enables (.rxLcnt b) = true ↔ k.phase = .pfx ∧ k.rdgot = 1) ∧
    (k.enables (.rxLdig b) = true ↔ k.phase = .length) ∧
    (k.enables (.rxPlo b) = true ↔ k.phase = .payload ∧ 0 < k.rdrem ∧ k.runrem = 0 ∧ k.bsel = false) ∧
    (k.enables (.rxPhi b) = true ↔ k.phase = .payload ∧ 0 < k.rdrem ∧ k.runrem = 0 ∧ k.bsel = true) ∧
    (k.enables .rxTmo = true ↔
      k.phase = .pfx ∨ k.phase = .length ∨ (k.phase = .payload ∧ 0 < k.rdrem ∧ k.runrem = 0)) ∧
    (k.enables .fin = true ↔ k.phase = .payload ∧ k.rdrem = 0 ∧ k.runrem = 0) ∧
    (k.enables .rlEmit = true ↔ k.phase = .payload ∧ 0 < k.runrem) ∧
    ([Instr.rxMark b, .rxLcnt b, .rxLdig b, .rxPlo b, .rxPhi b, .fin, .rlEmit].countP fun i => k.enables i) ≤ 1 ∧
    (k.enables .rxTmo = true → k.enables .fin = false ∧ k.enables .rlEmit = false)

/-- A few words written out from the formats of R91 to R99 decode to the operations they stand for: a marker `#`, a
digit count `'1'`, a length digit `'8'`, the two bytes of a sample, the two samples of a pair, a colour code, `START`
with other bits set, a write that is not `START`, a register read, the two commands. -/
def Obligations.DecodedWordsOfTheFormats : Prop :=
  decode ⟨.pfx, 0, 2, 0, false, false⟩ (.inByte 0x23) = .op (.rxMark 0x23) ∧
  decode ⟨.pfx, 1, 1, 0, false, false⟩ (.inByte 0x31) = .op (.rxLcnt 0x31) ∧
  decode ⟨.length, 0, 1, 0, false, false⟩ (.inByte 0x38) = .op (.rxLdig 0x38) ∧
  decode ⟨.payload, 0, 8, 0, false, false⟩ (.inByte 0x03) = .op (.rxPlo 0x03) ∧
  decode ⟨.payload, 3, 5, 0, true, true⟩ (.inByte 0xF8) = .op (.rxPhi 0xF8) ∧
  decode ⟨.payload, 1, 7, 0, true, false⟩ (.sample 0x0003) = .op (.rlCnt 0x0003) ∧
  decode ⟨.payload, 3, 5, 0, true, true⟩ (.sample 0xF800) = .op (.rlCod 0xF800) ∧
  decode ⟨.payload, 4, 4, 3, false, false⟩ .outReady = .op .rlEmit ∧
  decode ⟨.payload, 4, 4, 3, false, false⟩ (.inByte 0x02) = .reject .byteNotTaken ∧
  decode ⟨.payload, 8, 0, 0, false, false⟩ .internal = .op .fin ∧
  decode ⟨.idle, 0, 0, 0, false, false⟩ (.code 0x07E0) = .op (.ccRgb 0x07E0) ∧
  decode ⟨.idle, 0, 0, 0, false, false⟩ (.regWrite 0 0xFFFFFFFF) = .op .start ∧
  decode ⟨.idle, 0, 0, 0, false, false⟩ (.regWrite 0 0xFFFFFFFE) = .op (.wrreg 0 0xFFFFFFFE) ∧
  decode ⟨.idle, 0, 0, 0, false, false⟩ (.regRead 9) = .op (.rdreg 9) ∧
  decode ⟨.idle, 0, 0, 0, false, false⟩ (.command [0x2A, 0x49, 0x44, 0x4E, 0x3F, 0x0A]) = .op .hIdn ∧
  decode ⟨.idle, 0, 0, 0, false, false⟩
    (.command [0x3A, 0x44, 0x49, 0x53, 0x50, 0x6C, 0x61, 0x79, 0x3A, 0x4F, 0x55, 0x54, 0x50, 0x75, 0x74, 0x3F, 0x0A])
      = .op .hQuery

/-! ### One step -/

/-- A step runs the decoded operation, for every kind of turn: the head turn says whose move it is, the operation the
decoder reads from what stands at the port runs in the state with the turn, and the byte or timeout it takes, gone
(R9, R60, R62, R100); reset taking a level runs `RESET` or ends it (R270); the host's own reading of the stream takes
one move of it, or is refused where the stream is not the host's (R78, R159, R224, R281). With no turn left the block
makes its own move if it has one, else the machine hangs (R11). The list of turns (log 1), the level of reset (log 9),
the two views of a silence (log 11) and the refusal (log 18) are the model's own. -/
def Obligations.StepRunsTheDecodedOperation : Prop :=
  ∀ (s : State) (ts : List Turn) (i : Instr),
    (∀ b ms, s.turns = .source :: ts ∨ s.turns = .watchdog :: ts → s.src.moves = .byte b :: ms →
      decode s.blk.sel (.inByte b) = .op i →
      step s = exec i { s with turns := ts, src := { s.src with moves := ms } }) ∧
    (∀ ms, s.turns = .source :: ts ∨ s.turns = .watchdog :: ts → s.src.moves = .timeout :: ms →
      decode s.blk.sel .inTimeout = .op i →
      step s = exec i { s with turns := ts, src := { s.src with moves := ms } }) ∧
    (s.turns = .watchdog :: ts → s.src.moves = [] → decode s.blk.sel .inTimeout = .op i →
      step s = exec i { s with turns := ts }) ∧
    (s.turns = .sink :: ts → decode s.blk.sel .outReady = .op i → step s = exec i { s with turns := ts }) ∧
    (s.turns = .block :: ts → decode s.blk.sel .internal = .op i → step s = exec i { s with turns := ts }) ∧
    (∀ m, s.turns = .host m :: ts → decode s.blk.sel (hostWire m) = .op i →
      step s = exec i { s with turns := ts }) ∧
    (s.turns = .rst true :: ts → step s = exec .reset { s with turns := ts, rst := true }) ∧
    (s.turns = .rst false :: ts → step s = .next { s with turns := ts, rst := false }) ∧
    (s.turns = .drain :: ts → s.blk.busy = false → s.host.stage ≠ .awaitingIdentity → s.host.stage ≠ .identified →
      ¬ (s.host.stage = .awaitingBlock ∧ s.blk.phase = .idle) →
      step s = .next { s with turns := ts, src := { s.src with moves := s.src.moves.tail } }) ∧
    (s.turns = .drain :: ts → s.blk.busy = true ∨ s.host.stage = .awaitingIdentity ∨ s.host.stage = .identified ∨
      (s.host.stage = .awaitingBlock ∧ s.blk.phase = .idle) → step s = .refused .exclusiveStream) ∧
    (s.turns = [] → decode s.blk.sel .internal = .op i → step s = exec i s) ∧
    (s.turns = [] → s.blk.sel.enables .fin = false → step s = .fault .hang)

/-- What is offered while it cannot be taken stays or is dropped as R154 says: with `in_ready = 0` a byte waits
unchanged and a timeout signal has no effect; the sink's readiness moves nothing while `out_valid = 0` (R62). That a
silence of the source waits for `in_ready` is the model's reading of R282 (log 11). -/
def Obligations.NothingTakenWhenNotReady : Prop :=
  ∀ (s : State) (ts : List Turn),
    (s.turns = .source :: ts ∨ s.turns = .watchdog :: ts → s.blk.inReady = false →
      step s = .next { s with turns := ts }) ∧
    (s.turns = .source :: ts → s.src.moves = [] → step s = .next { s with turns := ts }) ∧
    (s.turns = .sink :: ts → s.blk.outValid = false → step s = .next { s with turns := ts }) ∧
    (s.turns = .block :: ts → s.blk.sel.finReady = false → step s = .next { s with turns := ts })

/-- A byte and a timeout at once: the byte is taken and the timeout dropped (R157). -/
def Obligations.ByteWinsOverTimeout : Prop :=
  ∀ (s : State) (ts : List Turn) (b : Byte) (ms : List SrcMove),
    s.src.moves = .byte b :: ms →
    step { s with turns := .watchdog :: ts } = step { s with turns := .source :: ts } ∧
    ∀ i, decode s.blk.sel (.inByte b) = .op i →
      step { s with turns := .watchdog :: ts } = exec i { s with turns := ts, src := { s.src with moves := ms } }

/-- An operation asked for where R100 does not have it is no step: it is refused by name (the model's choice, log 2:
R100 gives such a request no effect). -/
def Obligations.DisabledOperationsAreRefused : Prop :=
  ∀ (i : Instr) (s : State), s.blk.sel.enables i = false → ∃ m, exec i s = .refused (.notEnabled m)

/-! ### Host control -/

/-- `START` (R121): a host write of `CTRL` with bit 0 set, whatever its other bits; it acts from `IDLE`, `DONE` and
`FAILED` only, clears everything and arms the prefix read; afterwards `in_ready = 1` and `STATUS` reads 0x401. Besides
the block only the host's stage and the sink's uncommitted beats can change (log 16 and 30: `StartBelongsToOneCapture` says how). -/
def Obligations.StartArmsTheBlock : Prop :=
  (∀ (k : Sel) (v : RegWord), v.getLsbD 0 = true → decode k (.regWrite 0 v) = .op .start) ∧
  (∀ s : State, s.rst = false →
    (s.blk.phase = .idle ∨ s.blk.phase = .done ∨ s.blk.phase = .failed →
      ∃ (st : HostStage) (beats : List Beat), exec .start s = .next { s with
        blk := { Block.reset with phase := .pfx, rdrem := 2, rdgot := 0 }
        sink := { s.sink with beats := beats }
        host := { s.host with stage := st } }) ∧
    (s.blk.phase = .pfx ∨ s.blk.phase = .length ∨ s.blk.phase = .payload → exec .start s = .next s)) ∧
  ({ Block.reset with phase := .pfx, rdrem := 2, rdgot := 0 } : Block).inReady = true ∧
  ({ Block.reset with phase := .pfx, rdrem := 2, rdgot := 0 } : Block).readReg 1 = 0x00000401

/-- `RDREG n` (R122, R40 to R47): no state of the block changes; the value is laid out as the tables say, 0 for
`CTRL` and for every number above 8. That the result is held in the host's `rdata` is the model's choice (log 6). -/
def Obligations.RegisterReadsFollowTheLayouts : Prop :=
  ∀ (n : Nat) (s : State), ∃ v : RegWord,
    exec (.rdreg n) s = .next { s with host := { s.host with rdata := v } } ∧
    (n = 0 → v = 0) ∧
    (n = 1 → v.toNat = (phaseCode s.blk.phase).toNat + 8 * (errCode s.blk.err).toNat + 64 * (subCode s.blk.esub).toNat
      + (if s.blk.phase = .pfx ∨ s.blk.phase = .length ∨ (s.blk.phase = .payload ∧ 0 < s.blk.rdrem ∧ s.blk.runrem = 0)
          then 1024 else 0)
      + (if s.blk.phase = .payload ∧ 0 < s.blk.runrem then 2048 else 0)
      + (if s.blk.lenbad then 4096 else 0)) ∧
    (n = 2 → v.toNat = s.blk.marker.toNat + 256 * s.blk.lbyte.toNat + 65536 * s.blk.lcnt.toNat) ∧
    (n = 3 → v.toNat = s.blk.nacc.toNat) ∧
    (n = 4 → v = s.blk.consumed) ∧
    (n = 5 → v.toNat = s.blk.pixcnt.toNat % 2 ^ 32) ∧
    (n = 6 → v.toNat = s.blk.pixcnt.toNat / 2 ^ 32) ∧
    (n = 7 → v = s.blk.expect) ∧
    (n = 8 → v = s.blk.actual) ∧
    (8 < n → v = 0)

/-- The codes of phases (R21), error kinds (R241) and sub-causes (R242), and that a host reads the kind back from its
code. -/
def Obligations.CodesOfPhasesKindsAndSubcauses : Prop :=
  [Phase.idle, .pfx, .length, .payload, .done, .failed].map phaseCode = [0, 1, 2, 3, 4, 5] ∧
  [ErrKind.none, .deviceUnresponsive, .unrecognizedDevice, .malformedBlock, .truncatedTransfer,
    .dimensionMismatch].map errCode = [0, 1, 2, 3, 4, 5] ∧
  [SubCause.none, .badLcnt, .badLenDigit, .oddBytes, .oddSamples, .tmoPrefix, .tmoLength, .tmoPayload].map subCode
    = [0, 1, 2, 3, 4, 5, 6, 7] ∧
  ∀ e : ErrKind, kindOfCode (errCode e) = e

/-- `WRREG n, v` (R123): `START` if it is a write of `CTRL` with bit 0 set; every other write, to any register, is
dropped silently. -/
def Obligations.RegisterWritesOnlyStart : Prop :=
  ∀ (n : Nat) (v : RegWord) (s : State),
    (n = 0 ∧ v.getLsbD 0 = true → exec (.wrreg n v) s = exec .start s) ∧
    (n ≠ 0 ∨ v.getLsbD 0 = false → exec (.wrreg n v) s = .next s)

/-! ### The framer -/

/-- `RX.MARK b` (R144): any byte is accepted as the marker. -/
def Obligations.MarkerIsLatchedUnchecked : Prop :=
  ∀ (b : Byte) (s : State), s.blk.phase = .pfx → s.blk.rdgot = 0 →
    exec (.rxMark b) s =
      .next { s with blk := { s.blk with marker := b, consumed := s.blk.consumed + 1, rdgot := 1, rdrem := 1 } }

/-- `RX.LCNT b` (R145): `'1'` to `'9'` opens the length read; every other byte is `MalformedBlock` / `BAD_LCNT`, the
byte being consumed either way. -/
def Obligations.DigitCountByteOpensOrFails : Prop :=
  ∀ (b : Byte) (s : State), s.blk.phase = .pfx → s.blk.rdgot = 1 →
    (0x31 ≤ b.toNat ∧ b.toNat ≤ 0x39 →
      exec (.rxLcnt b) s = .next { s with blk := { s.blk with
        lbyte := b
        consumed := s.blk.consumed + 1
        lcnt := BitVec.ofNat 4 (b.toNat - 0x30)
        phase := .length
        rdrem := BitVec.ofNat 30 (b.toNat - 0x30)
        rdgot := 0 } }) ∧
    (b.toNat < 0x31 ∨ 0x39 < b.toNat →
      exec (.rxLcnt b) s = .next { s with blk := { s.blk with
        lbyte := b
        consumed := s.blk.consumed + 1
        rdgot := 2
        rdrem := 0
        phase := .failed
        err := .malformedBlock
        esub := .badLcnt } })

/-- `RX.LDIG b` (R147, R146): the decimal accumulation, most significant digit first; a bad digit is noted and raised
only by the last length byte; after a good last byte the payload read of `N` bytes begins. R147 has `rdrem >= 1` here;
that in a state with `rdrem = 0`, which no run reaches, the counter wraps is the model's reading (log 8). -/
def Obligations.LengthDigitAccumulates : Prop :=
  ∀ (b : Byte) (s : State), s.blk.phase = .length →
    let digit : Prop := 0x30 ≤ b.toNat ∧ b.toNat ≤ 0x39
    let nacc' : BitVec 30 := if 0x30 ≤ b.toNat ∧ b.toNat ≤ 0x39 then
      s.blk.nacc * 10 + BitVec.ofNat 30 (b.toNat - 0x30) else s.blk.nacc
    (s.blk.rdrem ≠ 1 →
      exec (.rxLdig b) s = .next { s with blk := { s.blk with
        consumed := s.blk.consumed + 1
        nacc := nacc'
        lenbad := s.blk.lenbad || !(decide (0x30 ≤ b.toNat ∧ b.toNat ≤ 0x39))
        rdrem := s.blk.rdrem - 1
        rdgot := s.blk.rdgot + 1 } }) ∧
    (s.blk.rdrem = 1 → (s.blk.lenbad = true ∨ ¬ digit) →
      exec (.rxLdig b) s = .next { s with blk := { s.blk with
        consumed := s.blk.consumed + 1
        nacc := nacc'
        lenbad := true
        rdrem := 0
        rdgot := s.blk.rdgot + 1
        phase := .failed
        err := .malformedBlock
        esub := .badLenDigit } }) ∧
    (s.blk.rdrem = 1 → s.blk.lenbad = false → digit →
      exec (.rxLdig b) s = .next { s with blk := { s.blk with
        consumed := s.blk.consumed + 1
        nacc := nacc'
        phase := .payload
        rdrem := nacc'
        rdgot := 0
        bsel := false
        ssel := false } })

/-- `RX.PLO b` (R148): the low byte of a sample is held. -/
def Obligations.LowByteIsHeld : Prop :=
  ∀ (b : Byte) (s : State),
    s.blk.phase = .payload → 0 < s.blk.rdrem → s.blk.runrem = 0 → s.blk.bsel = false →
      exec (.rxPlo b) s = .next { s with blk := { s.blk with
        consumed := s.blk.consumed + 1
        rdgot := s.blk.rdgot + 1
        rdrem := s.blk.rdrem - 1
        lobyte := b
        bsel := true } }

/-- `RX.PHI b` (R149) with its decoder part (R174, R175): the sample `{b, lobyte}` completes in the same atomic step,
as the count of a pair or as its colour code, which starts the run. -/
def Obligations.HighByteCompletesTheSample : Prop :=
  ∀ (b : Byte) (s : State),
    s.blk.phase = .payload → 0 < s.blk.rdrem → s.blk.runrem = 0 → s.blk.bsel = true →
    let smp : Sample := BitVec.ofNat 16 (b.toNat * 256 + s.blk.lobyte.toNat)
    (s.blk.ssel = false →
      exec (.rxPhi b) s = .next { s with blk := { s.blk with
        consumed := s.blk.consumed + 1
        rdgot := s.blk.rdgot + 1
        rdrem := s.blk.rdrem - 1
        bsel := false
        cnt := smp
        ssel := true } }) ∧
    (s.blk.ssel = true →
      exec (.rxPhi b) s = .next { s with blk := { s.blk with
        consumed := s.blk.consumed + 1
        rdgot := s.blk.rdgot + 1
        rdrem := s.blk.rdrem - 1
        bsel := false
        runcode := smp
        runrem := s.blk.cnt
        ssel := false } })

/-- `RX.TMO` (R153): the failure entry with the size of the read that timed out and what it had received; nothing is
consumed. -/
def Obligations.TimeoutFailsTheCurrentRead : Prop :=
  ∀ s : State,
    (s.blk.phase = .pfx ∨ s.blk.phase = .length ∨
      (s.blk.phase = .payload ∧ 0 < s.blk.rdrem ∧ s.blk.runrem = 0)) →
      ∃ sub : SubCause,
        (s.blk.phase = .pfx → sub = .tmoPrefix) ∧
        (s.blk.phase = .length → sub = .tmoLength) ∧
        (s.blk.phase = .payload → sub = .tmoPayload) ∧
        exec .rxTmo s = .next { s with blk := { s.blk with
          expect := (s.blk.rdgot + s.blk.rdrem).setWidth 32
          actual := s.blk.rdgot.setWidth 32
          phase := .failed
          err := if s.blk.rdgot = 0 then .deviceUnresponsive else .truncatedTransfer
          esub := sub } }

/-- `FIN` (R152): the byte check first, then the sample check, else `DONE`. -/
def Obligations.EndOfBlockChecks : Prop :=
  ∀ s : State, s.blk.phase = .payload → s.blk.rdrem = 0 → s.blk.runrem = 0 →
    (s.blk.bsel = true →
      exec .fin s = .next { s with blk :=
        { s.blk with phase := .failed, err := .malformedBlock, esub := .oddBytes } }) ∧
    (s.blk.bsel = false → s.blk.ssel = true →
      exec .fin s = .next { s with blk :=
        { s.blk with phase := .failed, err := .malformedBlock, esub := .oddSamples } }) ∧
    (s.blk.bsel = false → s.blk.ssel = false → exec .fin s = .next { s with blk := { s.blk with phase := .done } })

/-! ### The decoder and the unpacker -/

/-- `RL.CNT smp` and `RL.COD smp` (R174, R175), the parts of an `RX.PHI` step by themselves: `ssel` tells which. R174
and R175 have them inside such a step only; that they can be asked for alone is the model's reading (log 3). -/
def Obligations.DecoderAcceptsSamples : Prop :=
  ∀ (smp : Sample) (s : State), s.blk.phase = .payload → s.blk.runrem = 0 →
    (s.blk.ssel = false →
      exec (.rlCnt smp) s = .next { s with blk := { s.blk with cnt := smp, ssel := true } }) ∧
    (s.blk.ssel = true →
      exec (.rlCod smp) s =
        .next { s with blk := { s.blk with runcode := smp, runrem := s.blk.cnt, ssel := false } })

/-- `RL.EMIT` (R176): one beat with the converted colour leaves, `runrem` goes down and `pixcnt` up by one. The beat
is R8, G8, B8 from the high end (R62), each by the formulas of R190. That the unpacker's result is also held in `rgb`
is the model's choice (log 6). -/
def Obligations.EmitAppendsOneBeat : Prop :=
  ∀ s : State, s.blk.phase = .payload → 0 < s.blk.runrem →
    ∃ v : Beat,
      v.toNat = ((s.blk.runcode.toNat >>> 8) &&& 0xF8) * 65536 + ((s.blk.runcode.toNat >>> 3) &&& 0xFC) * 256
        + ((s.blk.runcode.toNat <<< 3) &&& 0xF8) ∧
      exec .rlEmit s = .next { s with
        rgb := v
        sink := { s.sink with beats := s.sink.beats ++ [v] }
        blk := { s.blk with runrem := s.blk.runrem - 1, pixcnt := s.blk.pixcnt + 1 } }

/-- `CC.RGB code` (R191): the result is `ToRGB888(code)` by the shift-and-mask formulas of R190; no state of the block
is read or written. The result is held in `rgb`, the model's own field (log 6). -/
def Obligations.UnpackerFollowsTheFormulas : Prop :=
  ∀ (code : Sample) (s : State), ∃ v : Beat,
    v.toNat = ((code.toNat >>> 8) &&& 0xF8) * 65536 + ((code.toNat >>> 3) &&& 0xFC) * 256
      + ((code.toNat <<< 3) &&& 0xF8) ∧
    exec (.ccRgb code) s = .next { s with rgb := v }

/-- The laws of the unpacker (R193): the low bits of every channel are zero, and the code is recoverable as
`{R8[7:3], G8[7:2], B8[7:3]}`, so the function is injective. -/
def Obligations.UnpackerIsInjective : Prop :=
  ∀ code : Sample,
    (toRgb888 code).r &&& 0x07 = 0 ∧ (toRgb888 code).g &&& 0x03 = 0 ∧ (toRgb888 code).b &&& 0x07 = 0 ∧
    (toRgb888 code).r.extractLsb' 3 5 ++ (toRgb888 code).g.extractLsb' 2 6 ++ (toRgb888 code).b.extractLsb' 3 5
      = code ∧
    ∀ code' : Sample, beatOf code = beatOf code' → code = code'

/-- The run-length decoder as a function (R170, R171, R177 items 1 and 3): the runs in pair order, each `count` times
its code; an odd number of samples is `MalformedBlock`. -/
def Obligations.RunsInPairOrder : Prop :=
  (∀ ps : List (Sample × Sample),
    rleDecode (ps.flatMap fun p => [p.1, p.2]) = .ok (ps.flatMap fun p => List.replicate p.1.toNat p.2) ∧
    ((ps.flatMap fun p => List.replicate p.1.toNat p.2).length = (ps.map fun p => p.1.toNat).sum)) ∧
  ∀ ss : List Sample, ss.length % 2 = 1 → rleDecode ss = .error .malformedBlock

/-- The round trip of R177 item 2, with its side condition: if, after dropping the pairs of count 0, no two neighbours
have the same code, encoding the decoded pixels by maximal runs gives those pairs back. -/
def Obligations.RunsRoundTrip : Prop :=
  ∀ (pairs kept : List (Sample × Sample)), kept = pairs.filter (fun p => p.1.toNat != 0) →
    (∀ (j : Nat) (p q : Sample × Sample), kept[j]? = some p → kept[j + 1]? = some q → p.2 ≠ q.2) →
    ∃ px : List Sample, rleDecode (pairs.flatMap fun p => [p.1, p.2]) = .ok px ∧
      maximalRuns px = kept.map fun p => (p.1.toNat, p.2)

/-! ### Reset -/

/-- What reset leaves (R52): every field 0, every host register reads 0, no signal is up. -/
def Obligations.ResetLeavesEverythingZero : Prop :=
  State.reset.blk = ⟨.idle, .none, .none, 0, 0, 0, 0, 0, 0, false, false, 0, false, 0, 0, 0, 0, 0, 0, 0⟩ ∧
  (∀ n, State.reset.blk.readReg n = 0) ∧
  State.reset.blk.inReady = false ∧ State.reset.blk.outValid = false ∧ State.reset.blk.busy = false ∧
  State.reset.blk.isDone = false ∧ State.reset.blk.isFailed = false

/-- `RESET` (R270, R271): in any phase the block goes to its reset state; the stream and the sink are not touched. That
a host waiting in `H.RUN`, or with the result unread, gives the capture up is the model's reading (log 10). -/
def Obligations.ResetClearsTheBlockOnly : Prop :=
  ∀ s : State,
    exec .reset s = .next { s with
      blk := Block.reset
      host := { s.host with
        stage := if s.host.stage = .awaitingBlock ∨ s.host.stage = .captured then .idle else s.host.stage } }

/-- While `rst` is held (R270) the block stays in the reset state: no byte consumed, no beat emitted, register reads
return 0, register writes are ignored. -/
def Obligations.HeldResetFreezesTheBlock : Prop :=
  ∀ (s : State) (ts : List Turn), s.rst = true → s.blk = Block.reset →
    (∀ t, (t = .source ∨ t = .watchdog ∨ t = .sink ∨ t = .block ∨ ∃ n v, t = .host (.write n v)) →
      step { s with turns := t :: ts } = .next { s with turns := ts }) ∧
    (∀ n, step { s with turns := .host (.read n) :: ts } =
      .next { s with turns := ts, host := { s.host with rdata := 0 } })

/-! ### The host's steps -/

/-- `H.IDN` (R222) with a write that is accepted and a whole line on the stream: the query goes out, the line up to
and including the first newline is read and no byte after it, and its first two characters decide. What a new capture
clears in the host (log 19) and that the sink's uncommitted beats go here (log 16) are the model's choices. -/
def Obligations.IdentityLineDecides : Prop :=
  ∀ (s : State) (line : List Byte) (rest : List SrcMove),
    s.blk.phase = .idle ∨ s.blk.phase = .done ∨ s.blk.phase = .failed →
    s.host.stage = .idle ∨ s.host.stage = .done ∨ s.host.stage = .failed →
    s.src.cmds.headD .accepted = .accepted →
    s.src.moves = (line ++ [0x0A]).map SrcMove.byte ++ rest → 0x0A ∉ line →
    ((line ++ [0x0A])[0]? = some s.host.params.vendor0 ∧ (line ++ [0x0A])[1]? = some s.host.params.vendor1 →
      exec .hIdn s = .next { s with
        src := ⟨rest, s.src.cmds.tail⟩
        host := { s.host with
          stage := .identified
          queried := false
          line := line ++ [0x0A]
          sent := s.host.sent ++ [0x2A, 0x49, 0x44, 0x4E, 0x3F, 0x0A]
          report := none } }) ∧
    (¬ ((line ++ [0x0A])[0]? = some s.host.params.vendor0 ∧ (line ++ [0x0A])[1]? = some s.host.params.vendor1) →
      exec .hIdn s = .next { s with
        src := ⟨rest, s.src.cmds.tail⟩
        sink := { s.sink with beats := [] }
        host := { s.host with
          stage := .failed
          queried := false
          line := line ++ [0x0A]
          sent := s.host.sent ++ [0x2A, 0x49, 0x44, 0x4E, 0x3F, 0x0A]
          report := some ⟨.unrecognizedDevice, none, none, none, none⟩ } })

/-- `H.IDN` fails with `DeviceUnresponsive` when the watchdog expires before the newline, with or without some bytes
(R222, R230), and when the write times out (R221). How much of the command got out is the source's (log 12); what a new
capture clears (log 19) and that the sink's uncommitted beats go here (log 16) are the model's choices. -/
def Obligations.SilentDeviceIsUnresponsive : Prop :=
  ∀ s : State,
    s.blk.phase = .idle ∨ s.blk.phase = .done ∨ s.blk.phase = .failed →
    s.host.stage = .idle ∨ s.host.stage = .done ∨ s.host.stage = .failed →
    (∀ (line : List Byte) (rest : List SrcMove),
      s.src.cmds.headD .accepted = .accepted →
      s.src.moves = line.map SrcMove.byte ++ .timeout :: rest → 0x0A ∉ line →
      exec .hIdn s = .next { s with
        src := ⟨rest, s.src.cmds.tail⟩
        sink := { s.sink with beats := [] }
        host := { s.host with
          stage := .failed
          queried := false
          line := line
          sent := s.host.sent ++ [0x2A, 0x49, 0x44, 0x4E, 0x3F, 0x0A]
          report := some ⟨.deviceUnresponsive, none, none, none, none⟩ } }) ∧
    (∀ (k : Nat) (cs : List CmdOutcome), s.src.cmds = .timedOut k :: cs →
      exec .hIdn s = .next { s with
        src := { s.src with cmds := cs }
        sink := { s.sink with beats := [] }
        host := { s.host with
          stage := .failed
          queried := false
          line := []
          sent := s.host.sent ++ [0x2A, 0x49, 0x44, 0x4E, 0x3F, 0x0A].take k
          report := some ⟨.deviceUnresponsive, none, none, none, none⟩ } })

/-- A read that meets neither newline nor timeout waits, keeping what it has, and goes on from there without sending
the query again (the model's way of blocking, log 13): the resumed read waits on, or ends in a line that is compared as
a whole, or in `DeviceUnresponsive` (R222, R230; the beats: log 16). -/
def Obligations.IdentityReadWaitsAndResumes : Prop :=
  ∀ (s : State) (line : List Byte),
    s.blk.phase = .idle ∨ s.blk.phase = .done ∨ s.blk.phase = .failed → 0x0A ∉ line →
    (s.host.stage = .idle ∨ s.host.stage = .done ∨ s.host.stage = .failed →
      s.src.moves = line.map SrcMove.byte → s.src.cmds.headD .accepted = .accepted →
      exec .hIdn s = .next { s with
        src := ⟨[], s.src.cmds.tail⟩
        host := { s.host with
          stage := .awaitingIdentity
          queried := false
          line := line
          sent := s.host.sent ++ [0x2A, 0x49, 0x44, 0x4E, 0x3F, 0x0A]
          report := none } }) ∧
    (s.host.stage = .awaitingIdentity →
      (s.src.moves = line.map SrcMove.byte →
        exec .hIdn s = .next { s with
          src := { s.src with moves := [] }
          host := { s.host with line := s.host.line ++ line } }) ∧
      (∀ rest, s.src.moves = (line ++ [0x0A]).map SrcMove.byte ++ rest →
        ((s.host.line ++ line ++ [0x0A])[0]? = some s.host.params.vendor0 ∧
            (s.host.line ++ line ++ [0x0A])[1]? = some s.host.params.vendor1 →
          exec .hIdn s = .next { s with
            src := { s.src with moves := rest }
            host := { s.host with stage := .identified, line := s.host.line ++ line ++ [0x0A] } }) ∧
        (¬ ((s.host.line ++ line ++ [0x0A])[0]? = some s.host.params.vendor0 ∧
            (s.host.line ++ line ++ [0x0A])[1]? = some s.host.params.vendor1) →
          exec .hIdn s = .next { s with
            src := { s.src with moves := rest }
            sink := { s.sink with beats := [] }
            host := { s.host with
              stage := .failed
              line := s.host.line ++ line ++ [0x0A]
              report := some ⟨.unrecognizedDevice, none, none, none, none⟩ } })) ∧
      (∀ rest, s.src.moves = line.map SrcMove.byte ++ .timeout :: rest →
        exec .hIdn s = .next { s with
          src := { s.src with moves := rest }
          sink := { s.sink with beats := [] }
          host := { s.host with
            stage := .failed
            line := s.host.line ++ line
            report := some ⟨.deviceUnresponsive, none, none, none, none⟩ } }))

/-- `H.QUERY` (R223): after `H.IDN` succeeded, once per capture, the display-output query goes out and no response is
read; a write that times out is `DeviceUnresponsive` (R221). That it may also come right after `START` (log 15), how much
of the command got out (log 12), that the beats go here (log 16) and that a block started before runs on unwatched
(log 29) are the model's reading. -/
def Obligations.QueryIsSentOnce : Prop :=
  ∀ s : State, s.host.queried = false → s.host.stage = .identified ∨ s.host.stage = .awaitingBlock →
    (s.src.cmds.headD .accepted = .accepted →
      exec .hQuery s = .next { s with
        src := { s.src with cmds := s.src.cmds.tail }
        host := { s.host with
          queried := true
          sent := s.host.sent ++ [0x3A, 0x44, 0x49, 0x53, 0x50, 0x6C, 0x61, 0x79, 0x3A, 0x4F, 0x55, 0x54, 0x50, 0x75,
            0x74, 0x3F, 0x0A] } }) ∧
    (∀ (k : Nat) (cs : List CmdOutcome), s.src.cmds = .timedOut k :: cs →
      exec .hQuery s = .next { s with
        src := { s.src with cmds := cs }
        sink := { s.sink with beats := [] }
        host := { s.host with
          stage := .failed
          sent := s.host.sent ++ [0x3A, 0x44, 0x49, 0x53, 0x50, 0x6C, 0x61, 0x79, 0x3A, 0x4F, 0x55, 0x54, 0x50, 0x75,
            0x74, 0x3F, 0x0A].take k
          report := some ⟨.deviceUnresponsive, none, none, none, none⟩ } })

/-- `H.RUN` (R224): first `START`, which a held reset or a busy block ignores (R270, R288); then the wait, which `DONE`
ends well once the query was performed too (R220; log 15), `FAILED` ends with the block's kind and context unchanged
(R225) and every beat discarded (R283), and anything else prolongs. One look at `STATUS` a step (log 14) and that a new
`START` voids beats left over (log 16) are the model's choices. -/
def Obligations.RunStartsAndWaits : Prop :=
  ∀ s : State,
    (s.host.stage = .identified →
      (s.rst = false → s.blk.phase = .idle ∨ s.blk.phase = .done ∨ s.blk.phase = .failed →
        exec .hRun s = .next { s with
          blk := { Block.reset with phase := .pfx, rdrem := 2, rdgot := 0 }
          sink := { s.sink with beats := [] }
          host := { s.host with stage := .awaitingBlock } }) ∧
      (s.rst = true ∨ s.blk.phase = .pfx ∨ s.blk.phase = .length ∨ s.blk.phase = .payload →
        exec .hRun s = .next { s with host := { s.host with stage := .awaitingBlock } })) ∧
    (s.host.stage = .awaitingBlock →
      (s.blk.phase = .done → s.host.queried = true →
        exec .hRun s = .next { s with host := { s.host with stage := .captured } }) ∧
      (s.blk.phase = .done → s.host.queried = false → exec .hRun s = .next s) ∧
      (s.blk.phase = .failed →
        exec .hRun s = .next { s with
          sink := { s.sink with beats := [] }
          host := { s.host with
            stage := .failed
            report := some ⟨s.blk.err, some s.blk.expect.toNat, some s.blk.actual.toNat, some (subCode s.blk.esub),
              some s.blk.consumed⟩ } }) ∧
      (s.blk.phase ≠ .done → s.blk.phase ≠ .failed → exec .hRun s = .next s))

/-- `H.DIM` (R226): the pixel count read from the two registers against `WIDTH * HEIGHT` in the natural numbers; both
too many and too few are `DimensionMismatch` with the two counts. That the void beats go in this very step is the
model's choice (log 16). -/
def Obligations.DimensionCheckCompares : Prop :=
  ∀ s : State, s.host.stage = .captured →
    (s.blk.pixcnt.toNat = s.host.params.width * s.host.params.height →
      exec .hDim s = .next { s with host := { s.host with stage := .checked } }) ∧
    (s.blk.pixcnt.toNat ≠ s.host.params.width * s.host.params.height →
      exec .hDim s = .next { s with
        sink := { s.sink with beats := [] }
        host := { s.host with
          stage := .failed
          report := some ⟨.dimensionMismatch, some (s.host.params.width * s.host.params.height),
            some s.blk.pixcnt.toNat, none, none⟩ } })

/-- `H.COMMIT` (R227): the bytes of the beats the sink holds, R G B per pixel in order (R62), are handed on with
`WIDTH` and `HEIGHT`. That the images handed over are kept in a list is the model's choice (log 27). -/
def Obligations.CommitHandsTheImageOver : Prop :=
  ∀ s : State, s.host.stage = .checked →
    ∃ bytes : List Byte,
      bytes.length = 3 * s.sink.beats.length ∧
      (∀ (j : Nat) (v : Beat), s.sink.beats[j]? = some v →
        bytes[3 * j]? = some (v.extractLsb' 16 8) ∧ bytes[3 * j + 1]? = some (v.extractLsb' 8 8) ∧
          bytes[3 * j + 2]? = some (v.extractLsb' 0 8)) ∧
      exec .hCommit s = .next { s with
        sink := ⟨[], s.sink.committed ++ [⟨bytes, s.host.params.width, s.host.params.height⟩]⟩
        host := { s.host with stage := .done } }

/-- Where the host's steps stop: out of the order of R220 they are refused by name, and `H.IDN` is refused while the
block is busy, a run to which the spec gives no meaning (R281, U15; the model's choice of a stop is log 2 and 18). -/
def Obligations.HostStepsOutOfOrderAreRefused : Prop :=
  ∀ s : State,
    (s.blk.busy = true → exec .hIdn s = .refused .exclusiveStream) ∧
    (s.blk.busy = false →
      s.host.stage = .identified ∨ s.host.stage = .awaitingBlock ∨ s.host.stage = .captured ∨ s.host.stage = .checked →
      exec .hIdn s = .refused (.notEnabled "H.IDN")) ∧
    (s.host.queried = true ∨ ¬ (s.host.stage = .identified ∨ s.host.stage = .awaitingBlock) →
      exec .hQuery s = .refused (.notEnabled "H.QUERY")) ∧
    (¬ (s.host.stage = .identified ∨ s.host.stage = .awaitingBlock) →
      exec .hRun s = .refused (.notEnabled "H.RUN")) ∧
    (s.host.stage ≠ .captured → exec .hDim s = .refused (.notEnabled "H.DIM")) ∧
    (s.host.stage ≠ .checked → exec .hCommit s = .refused (.notEnabled "H.COMMIT"))

/-! ### Whole-machine rules -/

/-- Every step keeps a good state good: the invariants of R51 (with the bounds of R27, R35 and R36), in every state,
reached or not, that has them. -/
def Obligations.EveryStepKeepsTheInvariants : Prop :=
  ∀ s t : State, s.Inv → step s = .next t → t.Inv

/-- The state after reset is good. -/
def Obligations.ResetStateIsGood : Prop := State.reset.Inv

/-- The phase transitions of R158, complete: an operation that completes leaves the phase alone or makes one of the
listed transitions, with the listed condition. -/
def Obligations.PhaseTransitionsAreTheListed : Prop :=
  ∀ (i : Instr) (s t : State), s.blk.Inv → exec i s = .next t →
    t.blk.phase = s.blk.phase ∨
    (i = .reset ∧ t.blk.phase = .idle) ∨
    ((i = .start ∨ i = .hRun ∨ ∃ v, i = .wrreg 0 v ∧ v.getLsbD 0 = true) ∧
      (s.blk.phase = .idle ∨ s.blk.phase = .done ∨ s.blk.phase = .failed) ∧ t.blk.phase = .pfx) ∨
    (∃ b : Byte, i = .rxLcnt b ∧ s.blk.phase = .pfx ∧
      t.blk.phase = if 0x31 ≤ b.toNat ∧ b.toNat ≤ 0x39 then .length else .failed) ∨
    (∃ b : Byte, i = .rxLdig b ∧ s.blk.phase = .length ∧ s.blk.rdrem = 1 ∧
      t.blk.phase = if s.blk.lenbad = false ∧ 0x30 ≤ b.toNat ∧ b.toNat ≤ 0x39 then .payload else .failed) ∨
    (i = .rxTmo ∧ (s.blk.phase = .pfx ∨ s.blk.phase = .length ∨ s.blk.phase = .payload) ∧ t.blk.phase = .failed) ∨
    (i = .fin ∧ s.blk.phase = .payload ∧
      t.blk.phase = if s.blk.nacc.toNat % 4 = 0 then .done else .failed)

/-- The pixels owed add up (R51 item 8, R177): `pixcnt + runrem` grows by the count of a pair exactly when the pair's
colour code is completed, and by nothing else in the payload. -/
def Obligations.PairCountsAddUp : Prop :=
  ∀ (i : Instr) (s t : State), s.blk.Inv → s.blk.phase = .payload → exec i s = .next t → i ≠ .reset →
    (s.blk.ssel = true → ((∃ b, i = .rxPhi b) ∨ ∃ smp, i = .rlCod smp) →
      t.blk.pixcnt.toNat + t.blk.runrem.toNat = s.blk.pixcnt.toNat + s.blk.runrem.toNat + s.blk.cnt.toNat) ∧
    (s.blk.ssel = false ∨ ¬ ((∃ b, i = .rxPhi b) ∨ ∃ smp, i = .rlCod smp) →
      t.blk.pixcnt.toNat + t.blk.runrem.toNat = s.blk.pixcnt.toNat + s.blk.runrem.toNat)

/-- Every cause of a failure, with what raises it and what it records (R243): entering `FAILED` is one of the rows of
the table, with `L` in `lcnt` and `N` in `nacc`. -/
def Obligations.FailuresRecordTheirCause : Prop :=
  ∀ (i : Instr) (s t : State), s.blk.Inv → s.blk.phase ≠ .failed → exec i s = .next t → t.blk.phase = .failed →
    (i = .rxTmo ∧ t.blk.esub = .tmoPrefix ∧ t.blk.expect = 2 ∧ t.blk.actual.toNat < 2 ∧
      t.blk.err = (if t.blk.actual = 0 then .deviceUnresponsive else .truncatedTransfer) ∧
      t.blk.consumed = t.blk.actual) ∨
    (∃ b : Byte, i = .rxLcnt b ∧ ¬ (0x31 ≤ b.toNat ∧ b.toNat ≤ 0x39) ∧ t.blk.err = .malformedBlock ∧
      t.blk.esub = .badLcnt ∧ t.blk.expect = 0 ∧ t.blk.actual = 0 ∧ t.blk.consumed = 2 ∧ t.blk.lbyte = b) ∨
    (i = .rxTmo ∧ t.blk.esub = .tmoLength ∧ t.blk.expect.toNat = t.blk.lcnt.toNat ∧
      t.blk.actual.toNat < t.blk.lcnt.toNat ∧
      t.blk.err = (if t.blk.actual = 0 then .deviceUnresponsive else .truncatedTransfer) ∧
      t.blk.consumed.toNat = 2 + t.blk.actual.toNat) ∨
    (∃ b : Byte, i = .rxLdig b ∧ t.blk.err = .malformedBlock ∧ t.blk.esub = .badLenDigit ∧ t.blk.lenbad = true ∧
      t.blk.expect = 0 ∧ t.blk.actual = 0 ∧ t.blk.consumed.toNat = 2 + t.blk.lcnt.toNat) ∨
    (i = .rxTmo ∧ t.blk.esub = .tmoPayload ∧ t.blk.expect.toNat = t.blk.nacc.toNat ∧
      t.blk.actual.toNat < t.blk.nacc.toNat ∧
      t.blk.err = (if t.blk.actual = 0 then .deviceUnresponsive else .truncatedTransfer) ∧
      t.blk.consumed.toNat = 2 + t.blk.lcnt.toNat + t.blk.actual.toNat) ∨
    (i = .fin ∧ t.blk.err = .malformedBlock ∧ t.blk.esub = .oddBytes ∧ t.blk.nacc.toNat % 2 = 1 ∧
      t.blk.expect = 0 ∧ t.blk.actual = 0 ∧ t.blk.consumed.toNat = 2 + t.blk.lcnt.toNat + t.blk.nacc.toNat) ∨
    (i = .fin ∧ t.blk.err = .malformedBlock ∧ t.blk.esub = .oddSamples ∧ t.blk.nacc.toNat % 4 = 2 ∧
      t.blk.expect = 0 ∧ t.blk.actual = 0 ∧ t.blk.consumed.toNat = 2 + t.blk.lcnt.toNat + t.blk.nacc.toNat)

/-- A failure is entered once and left only by `START` or reset (R22, R250, R251): in `FAILED` a step leaves the whole
block as it is, or the turn raises reset and the block is reset, or the turn is the host's `START` (a write of `CTRL`
with bit 0 set, or `H.RUN`) and a new capture is armed. -/
def Obligations.FailureIsLeftOnlyByStartOrReset : Prop :=
  ∀ s t : State, s.blk.phase = .failed → step s = .next t →
    t.blk = s.blk ∨
    (s.turns.head? = some (.rst true) ∧ t.blk = Block.reset) ∨
    ((s.turns.head? = some (.host .run) ∨
        ∃ v : RegWord, v.getLsbD 0 = true ∧ s.turns.head? = some (.host (.write 0 v))) ∧
      t.blk = { Block.reset with phase := .pfx, rdrem := 2, rdgot := 0 })

/-- The error kind and the sub-cause are written only by the failing operations, `START` and reset (R22, R49): whatever
else completes leaves both. -/
def Obligations.ErrorsAreLatchedOnlyByFailures : Prop :=
  ∀ (i : Instr) (s t : State), exec i s = .next t → (t.blk.err, t.blk.esub) ≠ (s.blk.err, s.blk.esub) →
    (t.blk.phase = .failed ∧ ((∃ b, i = .rxLcnt b) ∨ (∃ b, i = .rxLdig b) ∨ i = .rxTmo ∨ i = .fin)) ∨
    (i = .reset ∧ t.blk = Block.reset) ∨
    ((i = .start ∨ i = .hRun ∨ ∃ v : RegWord, i = .wrreg 0 v ∧ v.getLsbD 0 = true) ∧
      t.blk = { Block.reset with phase := .pfx, rdrem := 2, rdgot := 0 })

/-- The stream is read in order and nothing is put back (R61, R71 item 1): a step takes a prefix of what the source
will send, and outside `H.IDN` at most one move of it. -/
def Obligations.StreamIsReadInOrder : Prop :=
  ∀ s t : State, step s = .next t →
    ∃ k, t.src.moves = s.src.moves.drop k ∧ (s.turns.head? ≠ some (.host .idn) → k ≤ 1)

/-- While the block is not busy it takes nothing from the stream (R78): whatever the source, the watchdog, the sink
and the block are given to do, the stream, the sink and the block stay as they are. -/
def Obligations.IdleBlockTakesNothing : Prop :=
  ∀ (s : State) (t : Turn) (ts : List Turn), s.blk.busy = false →
    (t = .source ∨ t = .watchdog ∨ t = .sink ∨ t = .block) →
    step { s with turns := t :: ts } = .next { s with turns := ts }

/-- Output is append-only and beats leave only by `RL.EMIT` (R53, R71 item 2): a step that is not the host's leaves the
committed images, and the sink's beats either unchanged or longer by one beat of the run's colour, counted in
`pixcnt`. -/
def Obligations.OutputIsAppendOnly : Prop :=
  ∀ s t : State, (∀ m, s.turns.head? ≠ some (.host m)) → step s = .next t →
    t.sink.committed = s.sink.committed ∧
    (t.sink.beats = s.sink.beats ∨
      (t.sink.beats = s.sink.beats ++ [beatOf s.blk.runcode] ∧ t.blk.pixcnt = s.blk.pixcnt + 1 ∧
        t.blk.runrem = s.blk.runrem - 1))

/-- Only `H.COMMIT` after a passed dimension check writes anything that outlives a capture (R226, R227, R283): no other
operation changes the committed images, and the stage `checked` it needs is entered by `H.DIM` alone, with
`pixcnt = WIDTH * HEIGHT`. A turn that fires no operation changes neither. -/
def Obligations.NothingIsCommittedUnchecked : Prop :=
  (∀ (i : Instr) (s t : State), exec i s = .next t → t.sink.committed ≠ s.sink.committed →
    i = .hCommit ∧ s.host.stage = .checked) ∧
  (∀ (i : Instr) (s t : State), exec i s = .next t → t.host.stage = .checked → s.host.stage ≠ .checked →
    i = .hDim ∧ s.host.stage = .captured ∧
      s.blk.pixcnt.toNat = s.host.params.width * s.host.params.height) ∧
  ∀ s t : State, s.turns.head? ≠ some (.host .commit) → s.turns.head? ≠ some (.host .dim) → step s = .next t →
    t.sink.committed = s.sink.committed ∧ (t.host.stage = .checked → s.host.stage = .checked)

/-- No further protocol command is sent after a failed identity check (R222): in a good state, bytes go out only from
`H.IDN` itself and from `H.QUERY` with a matching identity line. -/
def Obligations.NoCommandWithoutIdentity : Prop :=
  ∀ (i : Instr) (s t : State), s.Inv → exec i s = .next t → t.host.sent ≠ s.host.sent →
    i = .hIdn ∨ (i = .hQuery ∧ identityMatches s.host.params s.host.line = true)

/-! ### The block as one function -/

/-- A whole block is read back (R104, R105): marker, digit count, digits and the pairs, each sample low byte first,
give the pixels of the pairs in order, whatever the marker, the leading zeros and the bytes after the block. -/
def Obligations.WholeBlocksAreCaptured : Prop :=
  ∀ (marker : Byte) (digits : List Byte) (pairs : List (Sample × Sample)) (after : List Byte),
    1 ≤ digits.length → digits.length ≤ 9 → digits.all isDigit = true → decVal digits = 4 * pairs.length →
    capture (marker :: BitVec.ofNat 8 (0x30 + digits.length) :: digits ++
        (pairs.flatMap fun p => [p.1.extractLsb' 0 8, p.1.extractLsb' 8 8, p.2.extractLsb' 0 8, p.2.extractLsb' 8 8])
        ++ after)
      = .ok (pairs.flatMap fun p => List.replicate p.1.toNat p.2,
          (pairs.flatMap fun p => List.replicate p.1.toNat p.2).flatMap fun code => beatBytes (beatOf code))

/-- The two forms of the end state agree (R200, R203, R156): `Capture` succeeds with pixels `px` exactly on the inputs
whose row of the table is the success row with those pixels, and fails with kind `e` exactly where the row has it. -/
def Obligations.CaptureAgreesWithTheEndTable : Prop :=
  ∀ bs : List Byte,
    (∀ px rgb, capture bs = .ok (px, rgb) ↔
      (endOf bs).phase = .done ∧ px = (endOf bs).pixels ∧ rgb = ((endOf bs).pixels.map beatOf).flatMap beatBytes) ∧
    (∀ e, capture bs = .error e ↔ (endOf bs).phase = .failed ∧ (endOf bs).err = e)

/-- Refinement (R201, R203): from any state that is not busy, with reset released, let the host write `START`, let the
source offer the bytes `bs` and then fall silent until the watchdog expires, and let the turns after that be fair.
Then the run ends, in the row of the table of R203 for `bs`; the sink's uncommitted beats are those of the row's pixels
(older ones go at `START`, log 16); and of the stream exactly the bytes the row counts are gone, unless the timeout was
taken too. -/
def Obligations.StepsRefineCapture : Prop :=
  ∀ (s : State) (bs : List Byte) (rounds : List (List Turn)),
    s.rst = false → s.blk.busy = false →
    s.src.moves = bs.map SrcMove.byte ++ [.timeout] →
    s.turns = .host (.write 0 1) :: rounds.flatten →
    (∀ r ∈ rounds, fairRound r = true) → enoughRounds bs.length ≤ rounds.length →
    ∃ t : State, core.run s.turns.length s = .next t ∧
      (endOf bs).describes t.blk ∧
      t.sink.beats = (endOf bs).pixels.map beatOf ∧
      ((endOf bs).expect = 0 → t.src.moves = (bs.drop (endOf bs).consumed).map SrcMove.byte ++ [.timeout]) ∧
      ((endOf bs).expect ≠ 0 → t.src.moves = [])

/-- The result does not depend on timing (R72, R201 item 3): two runs from states that differ only in the order of the
quiet turns to come, each with all its turns used and the block no longer busy, end with the same block, the same
output and the same stream. -/
def Obligations.ResultIndependentOfTiming : Prop :=
  ∀ (s : State) (ts us : List Turn) (t u : State),
    ts.all Turn.quiet = true → us.all Turn.quiet = true →
    core.run ts.length { s with turns := ts } = .next t → core.run us.length { s with turns := us } = .next u →
    t.blk.busy = false → u.blk.busy = false →
    t.blk = u.blk ∧ t.sink = u.sink ∧ t.src = u.src

/-! ### One capture at a time -/

/-- What an acting `START` is to the capture in progress (R224, R229, R283): the sink's uncommitted beats are gone
(log 16), after `H.IDN` it is the `START` of `H.RUN`, and in the middle of a capture otherwise that capture is over, so
that no second one runs inside it (log 30: the spec has the host not do this and does not say what follows if it does). -/
def Obligations.StartBelongsToOneCapture : Prop :=
  ∀ s : State, s.rst = false → s.blk.phase = .idle ∨ s.blk.phase = .done ∨ s.blk.phase = .failed →
    ∃ st : HostStage, exec .start s = .next { s with
        blk := { Block.reset with phase := .pfx, rdrem := 2, rdgot := 0 }
        sink := { s.sink with beats := [] }
        host := { s.host with stage := st } } ∧
      (s.host.stage = .identified → st = .awaitingBlock) ∧
      (s.host.stage = .awaitingBlock → st = if s.blk.phase = .idle then .awaitingBlock else .idle) ∧
      (s.host.stage = .awaitingIdentity ∨ s.host.stage = .captured ∨ s.host.stage = .checked → st = .idle) ∧
      (s.host.stage = .idle ∨ s.host.stage = .done ∨ s.host.stage = .failed → st = s.host.stage)

/-- One capture at a time (R229; log 30): from the good end of `H.RUN` on, no completed operation changes the block's
result, unless the capture is over by it, or it is a reset after the result was read (log 10). -/
def Obligations.OneCaptureAtATime : Prop :=
  ∀ (i : Instr) (s t : State), exec i s = .next t → s.Inv →
    (s.host.stage = .captured → t.host.stage = .captured ∨ t.host.stage = .checked → t.blk = s.blk) ∧
    (s.host.stage = .checked → t.host.stage = .checked ∨ t.host.stage = .done → i ≠ .reset → t.blk = s.blk)

/-- What `H.COMMIT` hands over in a good state is whole and of one capture (R227, R283): `3 * WIDTH * HEIGHT` bytes,
declared with `WIDTH` and `HEIGHT`. -/
def Obligations.CommittedImageHasTheDeclaredSize : Prop :=
  ∀ s t : State, s.Inv → exec .hCommit s = .next t →
    ∃ image : Image, t.sink.committed = s.sink.committed ++ [image] ∧
      image.bytes.length = 3 * s.host.params.width * s.host.params.height ∧
      image.width = s.host.params.width ∧ image.height = s.host.params.height
end

