-- ==== Sys2Proof/Laws/Operands.lean ====
section
/-! SUPPORT. What the operand functions compute, as numbers. -/

namespace Sys2Proof.Machine

theorem isDigit_iff (b : Byte) : isDigit b = true ↔ 0x30 ≤ b.toNat ∧ b.toNat ≤ 0x39 := by simp [isDigit]

theorem isCountDigit_iff (b : Byte) : isCountDigit b = true ↔ 0x31 ≤ b.toNat ∧ b.toNat ≤ 0x39 := by
  simp [isCountDigit]

theorem digitVal_toNat_mod (b : Byte) : (digitVal b).toNat = b.toNat % 16 := by
  simp [digitVal, BitVec.extractLsb'_toNat]

/-- The value of a digit is its distance from `'0'` (R101). -/
theorem digitVal_toNat {b : Byte} (h : 0x30 ≤ b.toNat ∧ b.toNat ≤ 0x39) : (digitVal b).toNat = b.toNat - 0x30 := by
  rw [digitVal_toNat_mod]; omega

theorem digitVal_eq_ofNat {b : Byte} (h : 0x30 ≤ b.toNat ∧ b.toNat ≤ 0x39) :
    digitVal b = BitVec.ofNat 4 (b.toNat - 0x30) := by
  apply BitVec.eq_of_toNat_eq; rw [digitVal_toNat h, BitVec.toNat_ofNat]; omega

theorem digitVal_setWidth_eq_ofNat {b : Byte} (h : 0x30 ≤ b.toNat ∧ b.toNat ≤ 0x39) :
    (digitVal b).setWidth 30 = BitVec.ofNat 30 (b.toNat - 0x30) := by
  apply BitVec.eq_of_toNat_eq; rw [BitVec.toNat_setWidth, digitVal_toNat h, BitVec.toNat_ofNat]

theorem isDigit_of_isCountDigit {b : Byte} (h : isCountDigit b = true) : isDigit b = true := by
  rw [isCountDigit_iff] at h; rw [isDigit_iff]; omega

/-- Concatenation as a number (R13). -/
theorem toNat_append {n m : Nat} (x : BitVec n) (y : BitVec m) : (x ++ y).toNat = x.toNat * 2 ^ m + y.toNat := by
  rw [BitVec.toNat_append, ← Nat.shiftLeft_add_eq_or_of_lt y.isLt, Nat.shiftLeft_eq]

/-- Little-endian (R64): the second byte weighs 256. -/
theorem word16_toNat (lo hi : Byte) : (word16 lo hi).toNat = hi.toNat * 256 + lo.toNat := toNat_append hi lo

theorem kindOfCode_errCode (e : ErrKind) : kindOfCode (errCode e) = e := by cases e <;> decide

/-- `STATUS` as a number: its fields at the places of R42. -/
theorem Block.status_toNat (b : Block) : b.status.toNat =
    (phaseCode b.phase).toNat + 8 * (errCode b.err).toNat + 64 * (subCode b.esub).toNat + 1024 * b.inReady.toNat +
      2048 * b.outValid.toNat + 4096 * b.lenbad.toNat := by
  have h1 := (phaseCode b.phase).isLt
  have h2 := (errCode b.err).isLt
  have h3 := (subCode b.esub).isLt
  have h4 := Bool.toNat_lt b.inReady
  have h5 := Bool.toNat_lt b.outValid
  have h6 := Bool.toNat_lt b.lenbad
  rw [Block.status, BitVec.toNat_setWidth]
  simp only [toNat_append, BitVec.toNat_ofBool]
  omega

/-- `HEADER` as a number (R43). -/
theorem Block.header_toNat (b : Block) :
    b.header.toNat = b.marker.toNat + 256 * b.lbyte.toNat + 65536 * b.lcnt.toNat := by
  have h1 := b.marker.isLt
  have h2 := b.lbyte.isLt
  have h3 := b.lcnt.isLt
  rw [Block.header, BitVec.toNat_setWidth]
  simp only [toNat_append]
  omega

/-- A host reads `phase` back from `STATUS` (R42). -/
theorem Block.status_phase (b : Block) : (b.readReg 1).extractLsb' 0 3 = phaseCode b.phase := by
  apply BitVec.eq_of_toNat_eq
  have h1 := (phaseCode b.phase).isLt
  rw [BitVec.extractLsb'_toNat, Block.readReg, Block.status_toNat, Nat.shiftRight_eq_div_pow]
  omega

/-- A host reads `err` back from `STATUS` (R42). -/
theorem Block.status_err (b : Block) : (b.readReg 1).extractLsb' 3 3 = errCode b.err := by
  apply BitVec.eq_of_toNat_eq
  have h1 := (phaseCode b.phase).isLt
  have h2 := (errCode b.err).isLt
  rw [BitVec.extractLsb'_toNat, Block.readReg, Block.status_toNat, Nat.shiftRight_eq_div_pow]
  omega

/-- A host reads `esub` back from `STATUS` (R42). -/
theorem Block.status_esub (b : Block) : (b.readReg 1).extractLsb' 6 4 = subCode b.esub := by
  apply BitVec.eq_of_toNat_eq
  have h1 := (phaseCode b.phase).isLt
  have h2 := (errCode b.err).isLt
  have h3 := (subCode b.esub).isLt
  rw [BitVec.extractLsb'_toNat, Block.readReg, Block.status_toNat, Nat.shiftRight_eq_div_pow]
  omega

/-- The two halves of `PIXCNT` put together (R46, R226). -/
theorem Block.pixcnt_halves (b : Block) :
    ((b.readReg 6).extractLsb' 0 16 ++ b.readReg 5 : BitVec 48) = b.pixcnt := by
  apply BitVec.eq_of_toNat_eq
  have h := b.pixcnt.isLt
  rw [toNat_append]
  simp only [Block.readReg, BitVec.extractLsb'_toNat, BitVec.toNat_setWidth, Nat.shiftRight_eq_div_pow]
  omega

end Sys2Proof.Machine
end

