-- ==== Sys2Proof/Laws/State.lean ====
section
/-! SUPPORT. One lemma per field per named update of the state, so that no later proof unfolds a record update. -/

namespace Sys2Proof.Machine

variable (b : Block) (s : State)

/-! ### `Block.fail` -/

@[simp] theorem Block.fail_phase (k : ErrKind) (c : SubCause) : (b.fail k c).phase = .failed := rfl
@[simp] theorem Block.fail_err (k : ErrKind) (c : SubCause) : (b.fail k c).err = k := rfl
@[simp] theorem Block.fail_esub (k : ErrKind) (c : SubCause) : (b.fail k c).esub = c := rfl
@[simp] theorem Block.fail_marker (k : ErrKind) (c : SubCause) : (b.fail k c).marker = b.marker := rfl
@[simp] theorem Block.fail_lbyte (k : ErrKind) (c : SubCause) : (b.fail k c).lbyte = b.lbyte := rfl
@[simp] theorem Block.fail_lcnt (k : ErrKind) (c : SubCause) : (b.fail k c).lcnt = b.lcnt := rfl
@[simp] theorem Block.fail_nacc (k : ErrKind) (c : SubCause) : (b.fail k c).nacc = b.nacc := rfl
@[simp] theorem Block.fail_rdrem (k : ErrKind) (c : SubCause) : (b.fail k c).rdrem = b.rdrem := rfl
@[simp] theorem Block.fail_rdgot (k : ErrKind) (c : SubCause) : (b.fail k c).rdgot = b.rdgot := rfl
@[simp] theorem Block.fail_lenbad (k : ErrKind) (c : SubCause) : (b.fail k c).lenbad = b.lenbad := rfl
@[simp] theorem Block.fail_bsel (k : ErrKind) (c : SubCause) : (b.fail k c).bsel = b.bsel := rfl
@[simp] theorem Block.fail_lobyte (k : ErrKind) (c : SubCause) : (b.fail k c).lobyte = b.lobyte := rfl
@[simp] theorem Block.fail_ssel (k : ErrKind) (c : SubCause) : (b.fail k c).ssel = b.ssel := rfl
@[simp] theorem Block.fail_cnt (k : ErrKind) (c : SubCause) : (b.fail k c).cnt = b.cnt := rfl
@[simp] theorem Block.fail_runrem (k : ErrKind) (c : SubCause) : (b.fail k c).runrem = b.runrem := rfl
@[simp] theorem Block.fail_runcode (k : ErrKind) (c : SubCause) : (b.fail k c).runcode = b.runcode := rfl
@[simp] theorem Block.fail_pixcnt (k : ErrKind) (c : SubCause) : (b.fail k c).pixcnt = b.pixcnt := rfl
@[simp] theorem Block.fail_consumed (k : ErrKind) (c : SubCause) : (b.fail k c).consumed = b.consumed := rfl
@[simp] theorem Block.fail_expect (k : ErrKind) (c : SubCause) : (b.fail k c).expect = b.expect := rfl
@[simp] theorem Block.fail_actual (k : ErrKind) (c : SubCause) : (b.fail k c).actual = b.actual := rfl

/-! ### `Block.takeByte` -/

@[simp] theorem Block.takeByte_phase : b.takeByte.phase = b.phase := rfl
@[simp] theorem Block.takeByte_err : b.takeByte.err = b.err := rfl
@[simp] theorem Block.takeByte_esub : b.takeByte.esub = b.esub := rfl
@[simp] theorem Block.takeByte_marker : b.takeByte.marker = b.marker := rfl
@[simp] theorem Block.takeByte_lbyte : b.takeByte.lbyte = b.lbyte := rfl
@[simp] theorem Block.takeByte_lcnt : b.takeByte.lcnt = b.lcnt := rfl
@[simp] theorem Block.takeByte_nacc : b.takeByte.nacc = b.nacc := rfl
@[simp] theorem Block.takeByte_rdrem : b.takeByte.rdrem = b.rdrem - 1 := rfl
@[simp] theorem Block.takeByte_rdgot : b.takeByte.rdgot = b.rdgot + 1 := rfl
@[simp] theorem Block.takeByte_lenbad : b.takeByte.lenbad = b.lenbad := rfl
@[simp] theorem Block.takeByte_bsel : b.takeByte.bsel = b.bsel := rfl
@[simp] theorem Block.takeByte_lobyte : b.takeByte.lobyte = b.lobyte := rfl
@[simp] theorem Block.takeByte_ssel : b.takeByte.ssel = b.ssel := rfl
@[simp] theorem Block.takeByte_cnt : b.takeByte.cnt = b.cnt := rfl
@[simp] theorem Block.takeByte_runrem : b.takeByte.runrem = b.runrem := rfl
@[simp] theorem Block.takeByte_runcode : b.takeByte.runcode = b.runcode := rfl
@[simp] theorem Block.takeByte_pixcnt : b.takeByte.pixcnt = b.pixcnt := rfl
@[simp] theorem Block.takeByte_consumed : b.takeByte.consumed = b.consumed + 1 := rfl
@[simp] theorem Block.takeByte_expect : b.takeByte.expect = b.expect := rfl
@[simp] theorem Block.takeByte_actual : b.takeByte.actual = b.actual := rfl

/-! ### `Block.acceptCount` -/

@[simp] theorem Block.acceptCount_phase (smp : Sample) : (b.acceptCount smp).phase = b.phase := rfl
@[simp] theorem Block.acceptCount_err (smp : Sample) : (b.acceptCount smp).err = b.err := rfl
@[simp] theorem Block.acceptCount_esub (smp : Sample) : (b.acceptCount smp).esub = b.esub := rfl
@[simp] theorem Block.acceptCount_marker (smp : Sample) : (b.acceptCount smp).marker = b.marker := rfl
@[simp] theorem Block.acceptCount_lbyte (smp : Sample) : (b.acceptCount smp).lbyte = b.lbyte := rfl
@[simp] theorem Block.acceptCount_lcnt (smp : Sample) : (b.acceptCount smp).lcnt = b.lcnt := rfl
@[simp] theorem Block.acceptCount_nacc (smp : Sample) : (b.acceptCount smp).nacc = b.nacc := rfl
@[simp] theorem Block.acceptCount_rdrem (smp : Sample) : (b.acceptCount smp).rdrem = b.rdrem := rfl
@[simp] theorem Block.acceptCount_rdgot (smp : Sample) : (b.acceptCount smp).rdgot = b.rdgot := rfl
@[simp] theorem Block.acceptCount_lenbad (smp : Sample) : (b.acceptCount smp).lenbad = b.lenbad := rfl
@[simp] theorem Block.acceptCount_bsel (smp : Sample) : (b.acceptCount smp).bsel = b.bsel := rfl
@[simp] theorem Block.acceptCount_lobyte (smp : Sample) : (b.acceptCount smp).lobyte = b.lobyte := rfl
@[simp] theorem Block.acceptCount_ssel (smp : Sample) : (b.acceptCount smp).ssel = true := rfl
@[simp] theorem Block.acceptCount_cnt (smp : Sample) : (b.acceptCount smp).cnt = smp := rfl
@[simp] theorem Block.acceptCount_runrem (smp : Sample) : (b.acceptCount smp).runrem = b.runrem := rfl
@[simp] theorem Block.acceptCount_runcode (smp : Sample) : (b.acceptCount smp).runcode = b.runcode := rfl
@[simp] theorem Block.acceptCount_pixcnt (smp : Sample) : (b.acceptCount smp).pixcnt = b.pixcnt := rfl
@[simp] theorem Block.acceptCount_consumed (smp : Sample) : (b.acceptCount smp).consumed = b.consumed := rfl
@[simp] theorem Block.acceptCount_expect (smp : Sample) : (b.acceptCount smp).expect = b.expect := rfl
@[simp] theorem Block.acceptCount_actual (smp : Sample) : (b.acceptCount smp).actual = b.actual := rfl

/-! ### `Block.acceptCode` -/

@[simp] theorem Block.acceptCode_phase (smp : Sample) : (b.acceptCode smp).phase = b.phase := rfl
@[simp] theorem Block.acceptCode_err (smp : Sample) : (b.acceptCode smp).err = b.err := rfl
@[simp] theorem Block.acceptCode_esub (smp : Sample) : (b.acceptCode smp).esub = b.esub := rfl
@[simp] theorem Block.acceptCode_marker (smp : Sample) : (b.acceptCode smp).marker = b.marker := rfl
@[simp] theorem Block.acceptCode_lbyte (smp : Sample) : (b.acceptCode smp).lbyte = b.lbyte := rfl
@[simp] theorem Block.acceptCode_lcnt (smp : Sample) : (b.acceptCode smp).lcnt = b.lcnt := rfl
@[simp] theorem Block.acceptCode_nacc (smp : Sample) : (b.acceptCode smp).nacc = b.nacc := rfl
@[simp] theorem Block.acceptCode_rdrem (smp : Sample) : (b.acceptCode smp).rdrem = b.rdrem := rfl
@[simp] theorem Block.acceptCode_rdgot (smp : Sample) : (b.acceptCode smp).rdgot = b.rdgot := rfl
@[simp] theorem Block.acceptCode_lenbad (smp : Sample) : (b.acceptCode smp).lenbad = b.lenbad := rfl
@[simp] theorem Block.acceptCode_bsel (smp : Sample) : (b.acceptCode smp).bsel = b.bsel := rfl
@[simp] theorem Block.acceptCode_lobyte (smp : Sample) : (b.acceptCode smp).lobyte = b.lobyte := rfl
@[simp] theorem Block.acceptCode_ssel (smp : Sample) : (b.acceptCode smp).ssel = false := rfl
@[simp] theorem Block.acceptCode_cnt (smp : Sample) : (b.acceptCode smp).cnt = b.cnt := rfl
@[simp] theorem Block.acceptCode_runrem (smp : Sample) : (b.acceptCode smp).runrem = b.cnt := rfl
@[simp] theorem Block.acceptCode_runcode (smp : Sample) : (b.acceptCode smp).runcode = smp := rfl
@[simp] theorem Block.acceptCode_pixcnt (smp : Sample) : (b.acceptCode smp).pixcnt = b.pixcnt := rfl
@[simp] theorem Block.acceptCode_consumed (smp : Sample) : (b.acceptCode smp).consumed = b.consumed := rfl
@[simp] theorem Block.acceptCode_expect (smp : Sample) : (b.acceptCode smp).expect = b.expect := rfl
@[simp] theorem Block.acceptCode_actual (smp : Sample) : (b.acceptCode smp).actual = b.actual := rfl

/-! ### `Block.pixelGone` -/

@[simp] theorem Block.pixelGone_phase : b.pixelGone.phase = b.phase := rfl
@[simp] theorem Block.pixelGone_err : b.pixelGone.err = b.err := rfl
@[simp] theorem Block.pixelGone_esub : b.pixelGone.esub = b.esub := rfl
@[simp] theorem Block.pixelGone_marker : b.pixelGone.marker = b.marker := rfl
@[simp] theorem Block.pixelGone_lbyte : b.pixelGone.lbyte = b.lbyte := rfl
@[simp] theorem Block.pixelGone_lcnt : b.pixelGone.lcnt = b.lcnt := rfl
@[simp] theorem Block.pixelGone_nacc : b.pixelGone.nacc = b.nacc := rfl
@[simp] theorem Block.pixelGone_rdrem : b.pixelGone.rdrem = b.rdrem := rfl
@[simp] theorem Block.pixelGone_rdgot : b.pixelGone.rdgot = b.rdgot := rfl
@[simp] theorem Block.pixelGone_lenbad : b.pixelGone.lenbad = b.lenbad := rfl
@[simp] theorem Block.pixelGone_bsel : b.pixelGone.bsel = b.bsel := rfl
@[simp] theorem Block.pixelGone_lobyte : b.pixelGone.lobyte = b.lobyte := rfl
@[simp] theorem Block.pixelGone_ssel : b.pixelGone.ssel = b.ssel := rfl
@[simp] theorem Block.pixelGone_cnt : b.pixelGone.cnt = b.cnt := rfl
@[simp] theorem Block.pixelGone_runrem : b.pixelGone.runrem = b.runrem - 1 := rfl
@[simp] theorem Block.pixelGone_runcode : b.pixelGone.runcode = b.runcode := rfl
@[simp] theorem Block.pixelGone_pixcnt : b.pixelGone.pixcnt = b.pixcnt + 1 := rfl
@[simp] theorem Block.pixelGone_consumed : b.pixelGone.consumed = b.consumed := rfl
@[simp] theorem Block.pixelGone_expect : b.pixelGone.expect = b.expect := rfl
@[simp] theorem Block.pixelGone_actual : b.pixelGone.actual = b.actual := rfl

/-! ### `Block.withSel` -/

@[simp] theorem Block.withSel_phase (k : Sel) : (b.withSel k).phase = k.phase := rfl
@[simp] theorem Block.withSel_err (k : Sel) : (b.withSel k).err = b.err := rfl
@[simp] theorem Block.withSel_esub (k : Sel) : (b.withSel k).esub = b.esub := rfl
@[simp] theorem Block.withSel_marker (k : Sel) : (b.withSel k).marker = b.marker := rfl
@[simp] theorem Block.withSel_lbyte (k : Sel) : (b.withSel k).lbyte = b.lbyte := rfl
@[simp] theorem Block.withSel_lcnt (k : Sel) : (b.withSel k).lcnt = b.lcnt := rfl
@[simp] theorem Block.withSel_nacc (k : Sel) : (b.withSel k).nacc = b.nacc := rfl
@[simp] theorem Block.withSel_rdrem (k : Sel) : (b.withSel k).rdrem = k.rdrem := rfl
@[simp] theorem Block.withSel_rdgot (k : Sel) : (b.withSel k).rdgot = k.rdgot := rfl
@[simp] theorem Block.withSel_lenbad (k : Sel) : (b.withSel k).lenbad = b.lenbad := rfl
@[simp] theorem Block.withSel_bsel (k : Sel) : (b.withSel k).bsel = k.bsel := rfl
@[simp] theorem Block.withSel_lobyte (k : Sel) : (b.withSel k).lobyte = b.lobyte := rfl
@[simp] theorem Block.withSel_ssel (k : Sel) : (b.withSel k).ssel = k.ssel := rfl
@[simp] theorem Block.withSel_cnt (k : Sel) : (b.withSel k).cnt = b.cnt := rfl
@[simp] theorem Block.withSel_runrem (k : Sel) : (b.withSel k).runrem = k.runrem := rfl
@[simp] theorem Block.withSel_runcode (k : Sel) : (b.withSel k).runcode = b.runcode := rfl
@[simp] theorem Block.withSel_pixcnt (k : Sel) : (b.withSel k).pixcnt = b.pixcnt := rfl
@[simp] theorem Block.withSel_consumed (k : Sel) : (b.withSel k).consumed = b.consumed := rfl
@[simp] theorem Block.withSel_expect (k : Sel) : (b.withSel k).expect = b.expect := rfl
@[simp] theorem Block.withSel_actual (k : Sel) : (b.withSel k).actual = b.actual := rfl

/-! ### `Block.sel` -/

@[simp] theorem Block.sel_phase : b.sel.phase = b.phase := rfl
@[simp] theorem Block.sel_rdgot : b.sel.rdgot = b.rdgot := rfl
@[simp] theorem Block.sel_rdrem : b.sel.rdrem = b.rdrem := rfl
@[simp] theorem Block.sel_runrem : b.sel.runrem = b.runrem := rfl
@[simp] theorem Block.sel_bsel : b.sel.bsel = b.bsel := rfl
@[simp] theorem Block.sel_ssel : b.sel.ssel = b.ssel := rfl

/-! ### `State.unpack` -/

@[simp] theorem State.unpack_blk (c : Sample) : (s.unpack c).blk = s.blk := rfl
@[simp] theorem State.unpack_src (c : Sample) : (s.unpack c).src = s.src := rfl
@[simp] theorem State.unpack_sink (c : Sample) : (s.unpack c).sink = s.sink := rfl
@[simp] theorem State.unpack_host (c : Sample) : (s.unpack c).host = s.host := rfl
@[simp] theorem State.unpack_rgb (c : Sample) : (s.unpack c).rgb = beatOf c := rfl
@[simp] theorem State.unpack_rst (c : Sample) : (s.unpack c).rst = s.rst := rfl
@[simp] theorem State.unpack_turns (c : Sample) : (s.unpack c).turns = s.turns := rfl

/-! ### `State.outPixel` -/

@[simp] theorem State.outPixel_blk (v : Beat) : (s.outPixel v).blk = s.blk := rfl
@[simp] theorem State.outPixel_src (v : Beat) : (s.outPixel v).src = s.src := rfl
@[simp] theorem State.outPixel_sink (v : Beat) : (s.outPixel v).sink = ⟨s.sink.beats ++ [v], s.sink.committed⟩ := rfl
@[simp] theorem State.outPixel_host (v : Beat) : (s.outPixel v).host = s.host := rfl
@[simp] theorem State.outPixel_rgb (v : Beat) : (s.outPixel v).rgb = s.rgb := rfl
@[simp] theorem State.outPixel_rst (v : Beat) : (s.outPixel v).rst = s.rst := rfl
@[simp] theorem State.outPixel_turns (v : Beat) : (s.outPixel v).turns = s.turns := rfl

/-! ### `State.withMoves` -/

@[simp] theorem State.withMoves_blk (ms : List SrcMove) : (s.withMoves ms).blk = s.blk := rfl
@[simp] theorem State.withMoves_src (ms : List SrcMove) : (s.withMoves ms).src = ⟨ms, s.src.cmds⟩ := rfl
@[simp] theorem State.withMoves_sink (ms : List SrcMove) : (s.withMoves ms).sink = s.sink := rfl
@[simp] theorem State.withMoves_host (ms : List SrcMove) : (s.withMoves ms).host = s.host := rfl
@[simp] theorem State.withMoves_rgb (ms : List SrcMove) : (s.withMoves ms).rgb = s.rgb := rfl
@[simp] theorem State.withMoves_rst (ms : List SrcMove) : (s.withMoves ms).rst = s.rst := rfl
@[simp] theorem State.withMoves_turns (ms : List SrcMove) : (s.withMoves ms).turns = s.turns := rfl

/-! ### `State.hostFail` -/

@[simp] theorem State.hostFail_blk (r : Report) : (s.hostFail r).blk = s.blk := rfl
@[simp] theorem State.hostFail_src (r : Report) : (s.hostFail r).src = s.src := rfl
@[simp] theorem State.hostFail_sink (r : Report) : (s.hostFail r).sink = ⟨[], s.sink.committed⟩ := rfl
@[simp] theorem State.hostFail_host (r : Report) : (s.hostFail r).host = { s.host with stage := .failed, report := some r } := rfl
@[simp] theorem State.hostFail_rgb (r : Report) : (s.hostFail r).rgb = s.rgb := rfl
@[simp] theorem State.hostFail_rst (r : Report) : (s.hostFail r).rst = s.rst := rfl
@[simp] theorem State.hostFail_turns (r : Report) : (s.hostFail r).turns = s.turns := rfl

/-! ### The host's bookkeeping -/

@[simp] theorem HostSide.begin_params (h : HostSide) : h.begin.params = h.params := rfl
@[simp] theorem HostSide.begin_stage (h : HostSide) : h.begin.stage = .awaitingIdentity := rfl
@[simp] theorem HostSide.begin_queried (h : HostSide) : h.begin.queried = false := rfl
@[simp] theorem HostSide.begin_line (h : HostSide) : h.begin.line = [] := rfl
@[simp] theorem HostSide.begin_sent (h : HostSide) : h.begin.sent = h.sent := rfl
@[simp] theorem HostSide.begin_rdata (h : HostSide) : h.begin.rdata = h.rdata := rfl
@[simp] theorem HostSide.begin_report (h : HostSide) : h.begin.report = none := rfl

end Sys2Proof.Machine
end

