-- ==== Sys2Proof/Laws/Ops.lean ====
section
/-! SUPPORT. For each shared operation, one lemma that says once everything it can do; and the inversion of a step. -/

namespace Sys2Proof.Machine

/-! ### The guard of R100 -/

theorem State.blockOp_next {s t : State} {i : Instr} {m : String} {f : Block → Block} :
    s.blockOp i m f = .next t ↔ s.blk.sel.enables i = true ∧ t = { s with blk := f s.blk } := by
  unfold State.blockOp
  split <;> rename_i h <;> simp [h, eq_comm]

theorem State.blockOp_enabled {s : State} {i : Instr} {m : String} {f : Block → Block}
    (h : s.blk.sel.enables i = true) : s.blockOp i m f = .next { s with blk := f s.blk } := by
  simp [State.blockOp, h]

theorem State.blockOp_disabled {s : State} {i : Instr} {m : String} {f : Block → Block}
    (h : s.blk.sel.enables i = false) : s.blockOp i m f = .refused (.notEnabled m) := by
  simp [State.blockOp, h]

/-! ### What each block operation is -/

section
variable (b : Byte) (smp : Sample) (s : State)

theorem exec_rxMark : exec (.rxMark b) s = s.blockOp (.rxMark b) "RX.MARK" fun k =>
    { k with marker := b, consumed := k.consumed + 1, rdgot := 1, rdrem := 1 } := rfl
theorem exec_rxLcnt : exec (.rxLcnt b) s = s.blockOp (.rxLcnt b) "RX.LCNT" (·.countDigit b) := rfl
theorem exec_rxLdig : exec (.rxLdig b) s = s.blockOp (.rxLdig b) "RX.LDIG" (·.lengthDigit b) := rfl
theorem exec_rxPlo : exec (.rxPlo b) s = s.blockOp (.rxPlo b) "RX.PLO" fun k =>
    { k.takeByte with lobyte := b, bsel := true } := rfl
theorem exec_rxPhi : exec (.rxPhi b) s = s.blockOp (.rxPhi b) "RX.PHI" (·.highByte b) := rfl
theorem exec_rxTmo : exec .rxTmo s = s.blockOp .rxTmo "RX.TMO" Block.timeOut := rfl
theorem exec_fin : exec .fin s = s.blockOp .fin "FIN" Block.finish := rfl
theorem exec_rlCnt : exec (.rlCnt smp) s = s.blockOp (.rlCnt smp) "RL.CNT" (·.acceptCount smp) := rfl
theorem exec_rlCod : exec (.rlCod smp) s = s.blockOp (.rlCod smp) "RL.COD" (·.acceptCode smp) := rfl

/-- Everything `RL.EMIT` can do. -/
theorem exec_rlEmit {t : State} : exec .rlEmit s = .next t ↔ s.blk.sel.enables .rlEmit = true ∧ t = { s with
    rgb := beatOf s.blk.runcode
    sink := ⟨s.sink.beats ++ [beatOf s.blk.runcode], s.sink.committed⟩
    blk := s.blk.pixelGone } := by
  simp only [exec, execRlEmit]
  split <;> rename_i h <;> simp [h, State.unpack, State.outPixel, eq_comm]

end

/-! ### The guards, in the fields of the block (R100) -/

section
variable (b : Byte) (smp : Sample) (k : Block)

theorem Block.enables_rxMark : k.sel.enables (.rxMark b) = true ↔ k.phase = .pfx ∧ k.rdgot = 0 := by
  simp [Sel.enables, Block.sel]
theorem Block.enables_rxLcnt : k.sel.enables (.rxLcnt b) = true ↔ k.phase = .pfx ∧ k.rdgot = 1 := by
  simp [Sel.enables, Block.sel]
theorem Block.enables_rxLdig : k.sel.enables (.rxLdig b) = true ↔ k.phase = .length := by
  simp [Sel.enables, Block.sel]
theorem Block.enables_rxPlo : k.sel.enables (.rxPlo b) = true ↔
    k.phase = .payload ∧ k.rdrem ≠ 0 ∧ k.runrem = 0 ∧ k.bsel = false := by
  simp [Sel.enables, Block.sel, and_assoc]
theorem Block.enables_rxPhi : k.sel.enables (.rxPhi b) = true ↔
    k.phase = .payload ∧ k.rdrem ≠ 0 ∧ k.runrem = 0 ∧ k.bsel = true := by
  simp [Sel.enables, Block.sel, and_assoc]
theorem Block.enables_rxTmo : k.sel.enables .rxTmo = true ↔
    k.phase = .pfx ∨ k.phase = .length ∨ (k.phase = .payload ∧ k.rdrem ≠ 0 ∧ k.runrem = 0) := by
  simp [Sel.enables, Sel.inReady, Block.sel, or_assoc, and_assoc]
theorem Block.enables_fin : k.sel.enables .fin = true ↔ k.phase = .payload ∧ k.rdrem = 0 ∧ k.runrem = 0 := by
  simp [Sel.enables, Sel.finReady, Block.sel, and_assoc]
theorem Block.enables_rlCnt : k.sel.enables (.rlCnt smp) = true ↔
    k.phase = .payload ∧ k.runrem = 0 ∧ k.ssel = false := by
  simp [Sel.enables, Block.sel, and_assoc]
theorem Block.enables_rlCod : k.sel.enables (.rlCod smp) = true ↔
    k.phase = .payload ∧ k.runrem = 0 ∧ k.ssel = true := by
  simp [Sel.enables, Block.sel, and_assoc]
theorem Block.enables_rlEmit : k.sel.enables .rlEmit = true ↔ k.phase = .payload ∧ k.runrem ≠ 0 := by
  simp [Sel.enables, Sel.outValid, Block.sel]

end

/-! ### What the framer's operations do to the block -/

/-- Everything the digit-count byte can do (R145). -/
theorem Block.countDigit_cases (k : Block) (b : Byte) :
    (isCountDigit b = true ∧ k.countDigit b = { k with
      lbyte := b, consumed := k.consumed + 1, lcnt := digitVal b, phase := .length
      rdrem := (digitVal b).setWidth 30, rdgot := 0 }) ∨
    (isCountDigit b = false ∧ k.countDigit b = { k with
      lbyte := b, consumed := k.consumed + 1, rdgot := 2, rdrem := 0
      phase := .failed, err := .malformedBlock, esub := .badLcnt }) := by
  cases h : isCountDigit b <;> simp [Block.countDigit, Block.fail, h]

/-- Everything a length byte can do (R147). -/
theorem Block.lengthDigit_cases (k : Block) (b : Byte) :
    (k.rdrem ≠ 1 ∧ k.lengthDigit b = { k with
      consumed := k.consumed + 1, nacc := k.accumulate b, lenbad := k.lenbad || !isDigit b
      rdrem := k.rdrem - 1, rdgot := k.rdgot + 1 }) ∨
    (k.rdrem = 1 ∧ (k.lenbad = true ∨ isDigit b = false) ∧ k.lengthDigit b = { k with
      consumed := k.consumed + 1, nacc := k.accumulate b, lenbad := true, rdrem := 0, rdgot := k.rdgot + 1
      phase := .failed, err := .malformedBlock, esub := .badLenDigit }) ∨
    (k.rdrem = 1 ∧ k.lenbad = false ∧ isDigit b = true ∧ k.lengthDigit b = { k with
      consumed := k.consumed + 1, nacc := k.accumulate b, phase := .payload, rdrem := k.accumulate b, rdgot := 0
      bsel := false, ssel := false }) := by
  by_cases hr : k.rdrem = 1
  · cases hl : k.lenbad <;> cases hd : isDigit b <;> simp [Block.lengthDigit, Block.fail, hr, hl, hd]
  · have : k.rdrem - 1 ≠ 0 := by bv_omega
    cases hl : k.lenbad <;> cases hd : isDigit b <;> simp_all [Block.lengthDigit]

/-- Everything the end-of-block check can do (R152). -/
theorem Block.finish_cases (k : Block) :
    (k.bsel = true ∧ k.finish = { k with phase := .failed, err := .malformedBlock, esub := .oddBytes }) ∨
    (k.bsel = false ∧ k.ssel = true ∧
      k.finish = { k with phase := .failed, err := .malformedBlock, esub := .oddSamples }) ∨
    (k.bsel = false ∧ k.ssel = false ∧ k.finish = { k with phase := .done }) := by
  cases hb : k.bsel <;> cases hs : k.ssel <;> simp [Block.finish, Block.fail, hb, hs]

/-- Everything a completed sample can do (R174, R175). -/
theorem Block.acceptSample_cases (k : Block) (smp : Sample) :
    (k.ssel = false ∧ k.acceptSample smp = { k with cnt := smp, ssel := true }) ∨
    (k.ssel = true ∧ k.acceptSample smp = { k with runcode := smp, runrem := k.cnt, ssel := false }) := by
  cases hs : k.ssel <;> simp [Block.acceptSample, Block.acceptCode, Block.acceptCount, hs]

/-! ### `START` -/

/-- The block right after an acting `START` (R121). -/
abbrev Block.armed : Block := { Block.reset with phase := .pfx, rdrem := 2, rdgot := 0 }

theorem Block.busy_iff (b : Block) : b.busy = true ↔ b.phase = .pfx ∨ b.phase = .length ∨ b.phase = .payload := by
  simp [Block.busy, or_assoc]

theorem Block.not_busy_iff (b : Block) : b.busy = false ↔ b.phase = .idle ∨ b.phase = .done ∨ b.phase = .failed := by
  cases h : b.phase <;> simp [Block.busy, h]

theorem Block.start_busy {b : Block} (h : b.busy = true) : b.start = b := by simp [Block.start, h]

theorem Block.start_not_busy {b : Block} (h : b.busy = false) : b.start = Block.armed := by simp [Block.start, h]

/-- Everything a host `START` can do. -/
theorem State.start_cases (s : State) :
    (s.start = s ∧ (s.rst = true ∨ s.blk.busy = true)) ∨
    (s.start = { s with
        blk := Block.armed, sink := ⟨[], s.sink.committed⟩, host := s.host.started s.blk.phase } ∧
      s.rst = false ∧ s.blk.busy = false) := by
  cases s with
  | mk blk src sink host rgb rst turns =>
    cases rst <;> cases hb : blk.busy <;> simp [State.start, Block.start, hb]

/-- What an acting `START` is to the host's capture: only its stage can change. -/
theorem HostSide.started_eq (h : HostSide) (was : Phase) : h.started was = { h with
    stage :=
      if h.stage = .identified ∨ (h.stage = .awaitingBlock ∧ was = .idle) then .awaitingBlock
      else if h.stage = .awaitingBlock ∨ h.stage = .awaitingIdentity ∨ h.stage = .captured ∨ h.stage = .checked then
        .idle
      else h.stage } := by
  cases h with
  | mk p st q l se r rep => cases st <;> cases was <;> rfl

/-- Everything a host write can do. -/
theorem State.writeReg_cases (s : State) (n : Nat) (v : RegWord) :
    s.writeReg n v = s ∨
    (s.writeReg n v = { s with
        blk := Block.armed, sink := ⟨[], s.sink.committed⟩, host := s.host.started s.blk.phase } ∧
      n = 0 ∧ v.getLsbD 0 = true ∧ s.rst = false ∧ s.blk.busy = false) := by
  unfold State.writeReg
  split
  · rename_i h
    rcases s.start_cases with ⟨h', -⟩ | ⟨h', hr, hb⟩
    · exact .inl h'
    · rw [Bool.and_eq_true, beq_iff_eq] at h
      exact .inr ⟨h', h.1, h.2, hr, hb⟩
  · exact .inl rfl

/-! ### The host's steps -/

theorem readLine_newline {line : List Byte} (h : 0x0A ∉ line) (acc : List Byte) (rest : List SrcMove) :
    readLine acc ((line ++ [0x0A]).map SrcMove.byte ++ rest) = .complete (acc ++ line ++ [0x0A]) rest := by
  induction line generalizing acc with
  | nil => simp [readLine]
  | cons b l ih =>
    simp only [List.mem_cons, not_or] at h
    have hb : b ≠ 0x0A := fun e => h.1 e.symm
    simp only [List.cons_append, List.map_cons, readLine, hb, if_false]
    rw [ih h.2]; simp

theorem readLine_timeout {line : List Byte} (h : 0x0A ∉ line) (acc : List Byte) (rest : List SrcMove) :
    readLine acc (line.map SrcMove.byte ++ .timeout :: rest) = .timedOut (acc ++ line) rest := by
  induction line generalizing acc with
  | nil => simp [readLine]
  | cons b l ih =>
    simp only [List.mem_cons, not_or] at h
    have hb : b ≠ 0x0A := fun e => h.1 e.symm
    simp only [List.map_cons, List.cons_append, readLine, hb, if_false]
    rw [ih h.2]; simp

theorem readLine_waiting {line : List Byte} (h : 0x0A ∉ line) (acc : List Byte) :
    readLine acc (line.map SrcMove.byte) = .waiting (acc ++ line) := by
  induction line generalizing acc with
  | nil => simp [readLine]
  | cons b l ih =>
    simp only [List.mem_cons, not_or] at h
    have hb : b ≠ 0x0A := fun e => h.1 e.symm
    simp only [List.map_cons, readLine, hb, if_false]
    rw [ih h.2]; simp

/-- What is left of the stream after a line is a suffix of it. -/
theorem readLine_rest (acc : List Byte) (ms : List SrcMove) :
    match readLine acc ms with
    | .complete _ rest => ∃ k, rest = ms.drop k
    | .timedOut _ rest => ∃ k, rest = ms.drop k
    | .waiting _ => True := by
  induction ms generalizing acc with
  | nil => simp [readLine]
  | cons m ms ih =>
    cases m with
    | timeout => exact ⟨1, rfl⟩
    | byte b =>
      by_cases hb : b = 0x0A
      · simp only [readLine, hb, if_true]; exact ⟨1, rfl⟩
      · simp only [readLine, hb, if_false]
        have := ih (acc ++ [b])
        revert this
        cases readLine (acc ++ [b]) ms with
        | complete line rest => rintro ⟨k, hk⟩; exact ⟨k + 1, by simpa using hk⟩
        | timedOut line rest => rintro ⟨k, hk⟩; exact ⟨k + 1, by simpa using hk⟩
        | waiting line => exact fun h => h

/-- Everything the read part of `H.IDN` can do. -/
theorem State.readIdentity_cases (s : State) :
    (∃ line rest k, readLine s.host.line s.src.moves = .complete line rest ∧ rest = s.src.moves.drop k ∧
      identityMatches s.host.params line = true ∧
      s.readIdentity = { s with
        src := ⟨rest, s.src.cmds⟩, host := { s.host with line := line, stage := .identified } }) ∨
    (∃ line rest k, readLine s.host.line s.src.moves = .complete line rest ∧ rest = s.src.moves.drop k ∧
      identityMatches s.host.params line = false ∧
      s.readIdentity = { s with
        src := ⟨rest, s.src.cmds⟩, sink := ⟨[], s.sink.committed⟩,
        host := { s.host with line := line, stage := .failed, report := some (plainReport .unrecognizedDevice) } }) ∨
    (∃ line rest k, readLine s.host.line s.src.moves = .timedOut line rest ∧ rest = s.src.moves.drop k ∧
      s.readIdentity = { s with
        src := ⟨rest, s.src.cmds⟩, sink := ⟨[], s.sink.committed⟩,
        host := { s.host with line := line, stage := .failed, report := some (plainReport .deviceUnresponsive) } }) ∨
    (∃ line, readLine s.host.line s.src.moves = .waiting line ∧
      s.readIdentity = { s with src := ⟨[], s.src.cmds⟩, host := { s.host with line := line } }) := by
  have hr := readLine_rest s.host.line s.src.moves
  unfold State.readIdentity
  cases h : readLine s.host.line s.src.moves with
  | complete line rest =>
    rw [h] at hr; obtain ⟨k, hk⟩ := hr
    cases hm : identityMatches s.host.params line
    · exact .inr (.inl ⟨line, rest, k, rfl, hk, hm, by simp [State.hostFail, hm]⟩)
    · exact .inl ⟨line, rest, k, rfl, hk, hm, by simp [hm]⟩
  | timedOut line rest =>
    rw [h] at hr; obtain ⟨k, hk⟩ := hr
    exact .inr (.inr (.inl ⟨line, rest, k, rfl, hk, rfl⟩))
  | waiting line => exact .inr (.inr (.inr ⟨line, rfl, rfl⟩))

/-- A command write that is accepted. -/
theorem State.sendCommand_accepted {s : State} {cmd : List Byte} {after : State → State}
    (h : s.src.cmds.headD .accepted = .accepted) :
    s.sendCommand cmd after = after { s with
      src := ⟨s.src.moves, s.src.cmds.tail⟩, host := { s.host with sent := s.host.sent ++ cmd } } := by
  cases hc : s.src.cmds with
  | nil => simp [State.sendCommand, Source.nextCmd, hc]
  | cons c cs =>
    rw [hc] at h
    have hc' : c = .accepted := h
    subst hc'
    simp [State.sendCommand, Source.nextCmd, hc]

/-- A command write that times out. -/
theorem State.sendCommand_timedOut {s : State} {cmd : List Byte} {after : State → State} {k : Nat}
    {cs : List CmdOutcome} (h : s.src.cmds = .timedOut k :: cs) :
    s.sendCommand cmd after = { s with
      src := ⟨s.src.moves, cs⟩
      sink := ⟨[], s.sink.committed⟩
      host := { s.host with
        sent := s.host.sent ++ cmd.take k, stage := .failed, report := some (plainReport .deviceUnresponsive) } } := by
  simp [State.sendCommand, Source.nextCmd, h, State.hostFail]

/-- Everything a command write can do. -/
theorem State.sendCommand_cases (s : State) (cmd : List Byte) (after : State → State) :
    (s.src.cmds.headD .accepted = .accepted ∧ s.sendCommand cmd after = after { s with
      src := ⟨s.src.moves, s.src.cmds.tail⟩, host := { s.host with sent := s.host.sent ++ cmd } }) ∨
    (∃ k cs, s.src.cmds = .timedOut k :: cs ∧ s.sendCommand cmd after = { s with
      src := ⟨s.src.moves, cs⟩
      sink := ⟨[], s.sink.committed⟩
      host := { s.host with
        sent := s.host.sent ++ cmd.take k, stage := .failed, report := some (plainReport .deviceUnresponsive) } }) := by
  cases hc : s.src.cmds with
  | nil => exact .inl ⟨rfl, by rw [State.sendCommand_accepted (by simp [hc])]; simp [hc]⟩
  | cons c cs =>
    cases c with
    | accepted => exact .inl ⟨rfl, by rw [State.sendCommand_accepted (by simp [hc])]; simp [hc]⟩
    | timedOut k => exact .inr ⟨k, cs, rfl, State.sendCommand_timedOut hc⟩

/-- Everything one look at `STATUS` can do. -/
theorem State.pollBlock_cases (s : State) :
    (s.blk.phase = .done ∧ s.host.queried = true ∧
      s.pollBlock = { s with host := { s.host with stage := .captured } }) ∨
    (s.blk.phase = .done ∧ s.host.queried = false ∧ s.pollBlock = s) ∨
    (s.blk.phase = .failed ∧ s.pollBlock = s.hostFail
      ⟨s.blk.err, some s.blk.expect.toNat, some s.blk.actual.toNat, some (subCode s.blk.esub),
        some s.blk.consumed⟩) ∨
    (s.blk.phase ≠ .done ∧ s.blk.phase ≠ .failed ∧ s.pollBlock = s) := by
  unfold State.pollBlock
  simp only [Block.status_phase, Block.status_err, Block.status_esub, kindOfCode_errCode]
  cases h : s.blk.phase <;> cases hq : s.host.queried <;> simp [phaseCode, Block.readReg]

/-- Everything the first part of `H.RUN` can do. -/
theorem State.beginRun_cases (s : State) :
    (s.beginRun = { s with host := { s.host with stage := .awaitingBlock } } ∧
      (s.blk.busy = true ∨ s.rst = true)) ∨
    (s.beginRun = { s with
        blk := Block.armed, sink := ⟨[], s.sink.committed⟩, host := { s.host with stage := .awaitingBlock } } ∧
      s.blk.busy = false ∧ s.rst = false) := by
  unfold State.beginRun State.writeReg State.start
  cases hb : s.blk.busy <;> cases hr : s.rst <;> simp [Block.start, HostSide.started_eq, hb, hr]

/-- When the stream is the host's (R78, R224). -/
theorem State.hostMayRead_iff (s : State) : s.hostMayRead = true ↔
    s.blk.busy = false ∧ s.host.stage ≠ .awaitingIdentity ∧ s.host.stage ≠ .identified ∧
      (s.host.stage = .awaitingBlock → s.blk.phase ≠ .idle) := by
  unfold State.hostMayRead
  cases s.host.stage <;> simp

/-- What a reset does to the host (R270, R283). -/
theorem HostSide.abandon_eq (h : HostSide) : h.abandon = { h with
    stage := if h.stage = .awaitingBlock ∨ h.stage = .captured then .idle else h.stage } := by
  cases h with
  | mk p st q l se r rep => cases st <;> simp [HostSide.abandon]

/-- The host's two reads give the whole count (R226). -/
theorem Block.pixelCount_eq (b : Block) : b.pixelCount = b.pixcnt := b.pixcnt_halves

/-! ### The decoder at a block's port -/

theorem Block.inReady_iff (b : Block) : b.inReady = true ↔
    b.phase = .pfx ∨ b.phase = .length ∨ (b.phase = .payload ∧ b.rdrem ≠ 0 ∧ b.runrem = 0) := by
  simp [Block.inReady, Sel.inReady, or_assoc, and_assoc]

theorem Block.outValid_iff (b : Block) : b.outValid = true ↔ b.phase = .payload ∧ b.runrem ≠ 0 := by
  simp [Block.outValid, Sel.outValid]

theorem Sel.finReady_iff (k : Sel) : k.finReady = true ↔ k.phase = .payload ∧ k.rdrem = 0 ∧ k.runrem = 0 := by
  simp [Sel.finReady, and_assoc]

/-! ### The step -/

theorem fire_run {d : Decoded} {s' s u : State} {i : Instr} :
    fire d s' s = .run i u ↔ d = .op i ∧ u = s' := by
  cases d <;> simp [fire, eq_comm]

theorem fire_pass {d : Decoded} {s' s u : State} :
    fire d s' s = .pass u ↔ (∃ r, d = .reject r) ∧ u = s := by
  cases d <;> simp [fire, eq_comm]

/-- The shape of a step from `s` to `t` that leaves the turns `ts`: an operation the decoder has for what stands at a
port, in a state that differs by the turn, what the operation takes of the stream and the level of reset; or a turn
that passes. -/
def StepShape (s : State) (ts : List Turn) (t : State) : Prop :=
  (∃ p i ms r, decode s.blk.sel p = .op i ∧ (ms = s.src.moves ∨ ms = s.src.moves.tail) ∧
    (r = s.rst ∨ (r = true ∧ i = .reset)) ∧ (i = .hIdn → s.turns.head? = some (.host .idn)) ∧
    ((∃ m, s.turns.head? = some (.host m) ∧ p = hostWire m) ∨
      (i = .reset ∧ s.turns.head? = some (.rst true)) ∨ i = .rxTmo ∨ i = .fin ∨ i = .rlEmit ∨ ∃ b, p = .inByte b) ∧
    exec i { s with turns := ts, src := { s.src with moves := ms }, rst := r } = .next t) ∨
  (∃ ms r, (ms = s.src.moves ∨ (ms = s.src.moves.tail ∧ s.blk.busy = false)) ∧ (r = s.rst ∨ r = false) ∧
    t = { s with turns := ts, src := { s.src with moves := ms }, rst := r })

/-- What the decoder has for a port other than the host's. -/
theorem decode_port {k : Sel} {p : Wire} {i : Instr} (h : decode k p = .op i) :
    (p = .inTimeout → i = .rxTmo) ∧ (p = .internal → i = .fin) ∧ (p = .outReady → i = .rlEmit) ∧
      (p = .rst → i = .reset) := by
  refine ⟨?_, ?_, ?_, ?_⟩ <;> rintro rfl <;> simp only [decode] at h
  · split at h <;> simp_all
  · split at h <;> simp_all
  · split at h <;> simp_all
  · simpa [eq_comm] using h

/-- A byte is never read as a step of the host. -/
theorem decode_byte_not_host {k : Sel} {b : Byte} {i : Instr} (h : decode k (.inByte b) = .op i) :
    i = .rxMark b ∨ i = .rxLcnt b ∨ i = .rxLdig b ∨ i = .rxPlo b ∨ i = .rxPhi b := by
  simp only [decode, decodeByte] at h
  repeat' split at h
  all_goals simp_all

/-- Only the host's own move fires `H.IDN`. -/
theorem hostWire_hIdn {k : Sel} {m : HostMove} (h : decode k (hostWire m) = .op .hIdn) : m = .idn := by
  cases m <;> simp_all [hostWire, decode, idnCommand, queryCommand]
  split at h <;> simp_all

/-- Everything a step can do. -/
theorem step_shape {s t : State} (h : step s = .next t) : StepShape s s.turns.tail t := by
  unfold step State.fetch at h
  cases ht : s.turns with
  | nil =>
    rw [ht] at h
    cases hd : decode s.blk.sel .internal with
    | op i =>
      simp only [hd] at h
      have hi := (decode_port hd).2.1 rfl
      refine .inl ⟨.internal, i, s.src.moves, s.rst, hd, .inl rfl, .inl rfl, by simp [hi], by simp [hi], ?_⟩
      cases s
      simp only at ht
      subst ht
      exact h
    | reject r => simp [hd] at h
  | cons tn ts =>
    rw [ht] at h
    have key : ∀ (p : Wire) (ms : List SrcMove) (r : Bool),
        (ms = s.src.moves ∨ ms = s.src.moves.tail) →
        (r = s.rst ∨ (r = true ∧ p = .rst)) →
        ((∃ m, tn = .host m ∧ p = hostWire m) ∨ p = .inTimeout ∨ p = .internal ∨ p = .outReady ∨
          (p = .rst ∧ tn = .rst true) ∨ ∃ b, p = .inByte b) →
        (match fire (decode s.blk.sel p)
            { s with turns := ts, src := { s.src with moves := ms }, rst := r } { s with turns := ts } with
          | .run i s' => exec i s' | .pass s' => .next s' | .refuse r => .refused r | .hang => .fault .hang)
          = Host.Outcome.next t → StepShape s ts t := by
      intro p ms r hms hr hp hh
      cases hd : decode s.blk.sel p with
      | op i =>
        rw [hd] at hh
        have hport := decode_port hd
        refine .inl ⟨p, i, ms, r, hd, hms, ?_, ?_, ?_, hh⟩
        · exact hr.imp id fun ⟨h1, h2⟩ => ⟨h1, hport.2.2.2 h2⟩
        · rintro rfl
          rcases hp with ⟨m, hm, rfl⟩ | rfl | rfl | rfl | ⟨rfl, -⟩ | ⟨b, rfl⟩
          · rw [ht, hm, hostWire_hIdn hd]; rfl
          · exact absurd (hport.1 rfl) (by simp)
          · exact absurd (hport.2.1 rfl) (by simp)
          · exact absurd (hport.2.2.1 rfl) (by simp)
          · exact absurd (hport.2.2.2 rfl) (by simp)
          · exact absurd (decode_byte_not_host hd) (by simp)
        · rcases hp with ⟨m, hm, hpm⟩ | h1 | h1 | h1 | h1 | h1
          · exact .inl ⟨m, by rw [ht, hm]; rfl, hpm⟩
          · exact .inr (.inr (.inl (hport.1 h1)))
          · exact .inr (.inr (.inr (.inl (hport.2.1 h1))))
          · exact .inr (.inr (.inr (.inr (.inl (hport.2.2.1 h1)))))
          · exact .inr (.inl ⟨hport.2.2.2 h1.1, by rw [ht, h1.2]; rfl⟩)
          · exact .inr (.inr (.inr (.inr (.inr h1))))
      | reject q =>
        rw [hd] at hh
        simp only [fire, Host.Outcome.next.injEq] at hh
        exact .inr ⟨s.src.moves, s.rst, .inl rfl, .inl rfl, hh.symm⟩
    have pass : t = { s with turns := ts } → StepShape s ts t := fun e =>
      .inr ⟨s.src.moves, s.rst, .inl rfl, .inl rfl, e⟩
    cases tn with
    | source =>
      simp only [State.serve, State.serveSource] at h
      cases hm : s.src.moves with
      | nil => simp only [hm] at h; exact pass (by simpa using h.symm)
      | cons m ms =>
        cases m with
        | byte b =>
          simp only [hm] at h
          exact key (.inByte b) ms s.rst (.inr (by simp [hm])) (.inl rfl) (by simp) h
        | timeout =>
          simp only [hm] at h
          exact key .inTimeout ms s.rst (.inr (by simp [hm])) (.inl rfl) (by simp) h
    | watchdog =>
      simp only [State.serve, State.serveWatchdog] at h
      cases hm : s.src.moves with
      | nil =>
        simp only [hm] at h
        exact key .inTimeout s.src.moves s.rst (.inl rfl) (.inl rfl) (by simp) h
      | cons m ms =>
        cases m with
        | byte b =>
          simp only [hm] at h
          exact key (.inByte b) ms s.rst (.inr (by simp [hm])) (.inl rfl) (by simp) h
        | timeout =>
          simp only [hm] at h
          exact key .inTimeout ms s.rst (.inr (by simp [hm])) (.inl rfl) (by simp) h
    | sink => exact key .outReady s.src.moves s.rst (.inl rfl) (.inl rfl) (by simp) h
    | block => exact key .internal s.src.moves s.rst (.inl rfl) (.inl rfl) (by simp) h
    | host m => exact key (hostWire m) s.src.moves s.rst (.inl rfl) (.inl rfl) (.inl ⟨m, rfl, rfl⟩) h
    | drain =>
      simp only [State.serve] at h
      cases hm : State.hostMayRead { s with turns := ts } with
      | false => simp [hm] at h
      | true =>
        simp only [hm, if_true, Host.Outcome.next.injEq] at h
        exact .inr ⟨s.src.moves.tail, s.rst, .inr ⟨rfl, ((State.hostMayRead_iff _).1 hm).1⟩, .inl rfl, h.symm⟩
    | rst l =>
      cases l with
      | true => exact key .rst s.src.moves true (.inl rfl) (.inr ⟨rfl, rfl⟩) (by simp) h
      | false =>
        simp only [State.serve, Host.Outcome.next.injEq] at h
        exact .inr ⟨s.src.moves, false, .inl rfl, .inr rfl, h.symm⟩

end Sys2Proof.Machine
end

