-- ==== Sys2Proof/Laws/PerInstr.lean ====
section
/-! SUPPORT. Statements about every operation, one lemma per constructor: the event that fires it (30_encoding.md
R100). -/

namespace Sys2Proof.Laws

/-- The `event` column of R100: whose move fires an operation, and at which port. -/
inductive Event where
  | hostWrite | hostRead | sourceByte | sourceTimeout | internal | sampleDone | sinkReady | codeSent | resetAsserted
  | hostCommand | hostStep
deriving DecidableEq, Repr

/-- The event of what stands at a port. -/
def wireEvent : Wire → Event
  | .regWrite _ _ => .hostWrite
  | .regRead _ => .hostRead
  | .inByte _ => .sourceByte
  | .inTimeout => .sourceTimeout
  | .internal => .internal
  | .sample _ => .sampleDone
  | .outReady => .sinkReady
  | .code _ => .codeSent
  | .rst => .resetAsserted
  | .command _ => .hostCommand
  | .call _ => .hostStep

/-- The event column of R100, row by row. -/
def eventOf : Instr → Event
  | .start => .hostWrite
  | .rdreg _ => .hostRead
  | .wrreg _ _ => .hostWrite
  | .rxMark _ => .sourceByte
  | .rxLcnt _ => .sourceByte
  | .rxLdig _ => .sourceByte
  | .rxPlo _ => .sourceByte
  | .rxPhi _ => .sourceByte
  | .rxTmo => .sourceTimeout
  | .fin => .internal
  | .rlCnt _ => .sampleDone
  | .rlCod _ => .sampleDone
  | .rlEmit => .sinkReady
  | .ccRgb _ => .codeSent
  | .reset => .resetAsserted
  | .hIdn => .hostCommand
  | .hQuery => .hostCommand
  | .hRun => .hostStep
  | .hDim => .hostStep
  | .hCommit => .hostStep

/-- Whatever the decoder answers, its event is the port's. -/
theorem decode_event {k : Sel} {p : Wire} {i : Instr} (h : decode k p = .op i) : wireEvent p = eventOf i := by
  cases p with
  | call c => cases c <;> (simp only [decode, Decoded.op.injEq] at h; subst h; rfl)
  | inByte b =>
    simp only [decode, decodeByte] at h
    repeat' split at h
    all_goals first | (cases h; done) | (simp only [Decoded.op.injEq] at h; subst h; rfl)
  | _ =>
    simp only [decode] at h
    repeat' split at h
    all_goals first | (cases h; done) | (simp only [Decoded.op.injEq] at h; subst h; rfl)

/-- An operation is encoded at the port of its event, and the decoder reads it at no other port (R100). -/
def FiredByItsEvent.Statement (i : Instr) : Prop :=
  wireEvent (encode i) = eventOf i ∧ ∀ (k : Sel) (p : Wire), decode k p = .op i → wireEvent p = eventOf i

theorem FiredByItsEvent.start : FiredByItsEvent.Statement .start :=
  ⟨rfl, fun _ _ h => decode_event h⟩
theorem FiredByItsEvent.rdreg (n : Nat) : FiredByItsEvent.Statement (.rdreg n) :=
  ⟨rfl, fun _ _ h => decode_event h⟩
theorem FiredByItsEvent.wrreg (n : Nat) (v : RegWord) : FiredByItsEvent.Statement (.wrreg n v) :=
  ⟨rfl, fun _ _ h => decode_event h⟩
theorem FiredByItsEvent.rxMark (b : Byte) : FiredByItsEvent.Statement (.rxMark b) :=
  ⟨rfl, fun _ _ h => decode_event h⟩
theorem FiredByItsEvent.rxLcnt (b : Byte) : FiredByItsEvent.Statement (.rxLcnt b) :=
  ⟨rfl, fun _ _ h => decode_event h⟩
theorem FiredByItsEvent.rxLdig (b : Byte) : FiredByItsEvent.Statement (.rxLdig b) :=
  ⟨rfl, fun _ _ h => decode_event h⟩
theorem FiredByItsEvent.rxPlo (b : Byte) : FiredByItsEvent.Statement (.rxPlo b) :=
  ⟨rfl, fun _ _ h => decode_event h⟩
theorem FiredByItsEvent.rxPhi (b : Byte) : FiredByItsEvent.Statement (.rxPhi b) :=
  ⟨rfl, fun _ _ h => decode_event h⟩
theorem FiredByItsEvent.rxTmo : FiredByItsEvent.Statement .rxTmo :=
  ⟨rfl, fun _ _ h => decode_event h⟩
theorem FiredByItsEvent.fin : FiredByItsEvent.Statement .fin :=
  ⟨rfl, fun _ _ h => decode_event h⟩
theorem FiredByItsEvent.rlCnt (smp : Sample) : FiredByItsEvent.Statement (.rlCnt smp) :=
  ⟨rfl, fun _ _ h => decode_event h⟩
theorem FiredByItsEvent.rlCod (smp : Sample) : FiredByItsEvent.Statement (.rlCod smp) :=
  ⟨rfl, fun _ _ h => decode_event h⟩
theorem FiredByItsEvent.rlEmit : FiredByItsEvent.Statement .rlEmit :=
  ⟨rfl, fun _ _ h => decode_event h⟩
theorem FiredByItsEvent.ccRgb (code : Sample) : FiredByItsEvent.Statement (.ccRgb code) :=
  ⟨rfl, fun _ _ h => decode_event h⟩
theorem FiredByItsEvent.reset : FiredByItsEvent.Statement .reset :=
  ⟨rfl, fun _ _ h => decode_event h⟩
theorem FiredByItsEvent.hIdn : FiredByItsEvent.Statement .hIdn :=
  ⟨rfl, fun _ _ h => decode_event h⟩
theorem FiredByItsEvent.hQuery : FiredByItsEvent.Statement .hQuery :=
  ⟨rfl, fun _ _ h => decode_event h⟩
theorem FiredByItsEvent.hRun : FiredByItsEvent.Statement .hRun :=
  ⟨rfl, fun _ _ h => decode_event h⟩
theorem FiredByItsEvent.hDim : FiredByItsEvent.Statement .hDim :=
  ⟨rfl, fun _ _ h => decode_event h⟩
theorem FiredByItsEvent.hCommit : FiredByItsEvent.Statement .hCommit :=
  ⟨rfl, fun _ _ h => decode_event h⟩

end Sys2Proof.Laws
end

