-- ==== Sys2Proof/Laws/Runs.lean ====
section
/-! SUPPORT. Runs and quiet turns: only the agent the block waits for can move anything (20_memory.md R72). -/

namespace Sys2Proof.Machine

/-- Runs compose. -/
theorem run_add (M : Host.Core) (j k : Nat) (s : M.State) :
    M.run (j + k) s = match M.run j s with
      | .next t => M.run k t
      | .fault r => .fault r
      | .refused r => .refused r := by
  induction j generalizing s with
  | zero => simp [Host.Core.run]
  | succ j ih =>
    rw [Nat.succ_add]
    simp only [Host.Core.run]
    cases M.step s with
    | next t => exact ih t
    | fault r => rfl
    | refused r => rfl

/-- The agent the block waits for: the source for a byte or a timeout, the sink for a beat, itself for `FIN`. -/
def Block.waitsFor (b : Block) : Option Turn :=
  if b.inReady then some .source
  else if b.outValid then some .sink
  else if b.sel.finReady then some .block
  else none

/-- The three conditions exclude one another (R72, R100). -/
theorem Block.waits_exclusive (b : Block) :
    (b.inReady = true → b.outValid = false ∧ b.sel.finReady = false) ∧
    (b.outValid = true → b.sel.finReady = false) := by
  simp only [Block.inReady, Block.outValid, Sel.inReady, Sel.outValid, Sel.finReady, bne]
  generalize (b.sel.rdrem == 0) = x
  generalize (b.sel.runrem == 0) = y
  cases b.sel.phase <;> cases x <;> cases y <;> decide

/-- With `in_ready` 0 a byte on offer is not taken (R154). -/
theorem decode_byte_not_ready {b : Block} (h : b.inReady = false) (x : Byte) :
    decode b.sel (.inByte x) = .reject .byteNotTaken := by
  have h' : ¬ b.inReady = true := by simp [h]
  rw [Block.inReady_iff] at h'
  simp only [decode, decodeByte]
  cases hp : b.phase <;> simp_all

/-- A quiet turn other than the awaited one moves neither the block, nor the stream, nor the sink. -/
theorem quiet_turn_other {s : State} {t : Turn} {ts : List Turn} (hq : t.quiet = true)
    (hw : s.blk.waitsFor ≠ some t) (ht : s.turns = t :: ts) :
    ∃ r, step s = .next { s with turns := ts, host := { s.host with rdata := r } } := by
  have hx := s.blk.waits_exclusive
  have hsel : s.blk.sel.inReady = s.blk.inReady := rfl
  have hsel' : s.blk.sel.outValid = s.blk.outValid := rfl
  cases t with
  | source =>
    have hr : s.blk.inReady = false := by
      cases h : s.blk.inReady
      · rfl
      · exact absurd (by simp [Block.waitsFor, h]) hw
    refine ⟨s.host.rdata, ?_⟩
    simp only [step, State.fetch, ht, State.serve, State.serveSource]
    rcases s.src.moves with _ | ⟨m, ms⟩
    · rfl
    · cases m
      · simp [decode_byte_not_ready hr, fire]
      · simp [decode, hsel, hr, fire]
  | sink =>
    have hr : s.blk.outValid = false := by
      cases h : s.blk.outValid
      · rfl
      · have : s.blk.inReady = false := by
          cases h' : s.blk.inReady
          · rfl
          · exact absurd (hx.1 h').1 (by simp [h])
        exact absurd (by simp [Block.waitsFor, h, this]) hw
    exact ⟨s.host.rdata, by simp [step, State.fetch, ht, State.serve, decode, hsel', hr, fire]⟩
  | block =>
    have hr : s.blk.sel.finReady = false := by
      cases h : s.blk.sel.finReady
      · rfl
      · have h1 : s.blk.inReady = false := by
          cases h' : s.blk.inReady
          · rfl
          · exact absurd (hx.1 h').2 (by simp [h])
        have h2 : s.blk.outValid = false := by
          cases h' : s.blk.outValid
          · rfl
          · exact absurd (hx.2 h') (by simp [h])
        exact absurd (by simp [Block.waitsFor, h, h1, h2]) hw
    exact ⟨s.host.rdata, by simp [step, State.fetch, ht, State.serve, decode, hr, fire]⟩
  | host m =>
    cases m with
    | read n =>
      exact ⟨s.blk.readReg n, by
        simp [step, State.fetch, ht, State.serve, hostWire, decode, fire, exec, execRdreg]⟩
    | write n v =>
      simp only [Turn.quiet, Bool.not_eq_true'] at hq
      refine ⟨s.host.rdata, ?_⟩
      simp only [step, State.fetch, ht, State.serve, hostWire, decode]
      rw [if_neg (by simp only [hq, Bool.false_eq_true, not_false_eq_true])]
      simp only [fire, exec, execWrreg, State.writeReg]
      rw [if_neg (by simp only [hq, Bool.false_eq_true, not_false_eq_true])]
    | idn => simp [Turn.quiet] at hq
    | query => simp [Turn.quiet] at hq
    | run => simp [Turn.quiet] at hq
    | dim => simp [Turn.quiet] at hq
    | commit => simp [Turn.quiet] at hq
  | watchdog => simp [Turn.quiet] at hq
  | drain => simp [Turn.quiet] at hq
  | rst l => simp [Turn.quiet] at hq

end Sys2Proof.Machine
end

