-- ==== Sys2Proof/Tests/Slice0.lean ====
section
/-! SUPPORT. Tests of the model and the witnesses of the statements. Expected values are those of
spec/95_test_vectors.md (the vector is named) or are computed by hand from the rule named. -/

namespace Sys2Proof.Tests

open Sys2Proof.Machine

/-! ### Helpers -/

/-- A host with `VENDOR_PREFIX` = "XY", `WIDTH` = 5, `HEIGHT` = 1 (as in vectors H1 to H6), at the given stage. -/
def hostAt (st : HostStage) : HostSide := ⟨⟨0x58, 0x59, 5, 1⟩, st, false, [], [], 0, none⟩

/-- A state around a block, nothing placed. -/
def around (b : Block) : State := ⟨b, ⟨[], []⟩, ⟨[], []⟩, hostAt .idle, 0, false, []⟩

/-- A state around the reset block with the host at the given stage. -/
def atStage (st : HostStage) : State := { around Block.reset with host := hostAt st }

/-- Bytes to come. -/
def bytes (bs : List Byte) : List SrcMove := bs.map .byte

def nextState (o : Host.Outcome State Fault Refusal) : Option State :=
  match o with
  | .next s => some s
  | .fault _ => none
  | .refused _ => none

def blkAfter (o : Host.Outcome State Fault Refusal) : Option Block := (nextState o).map (·.blk)

def hostAfter (o : Host.Outcome State Fault Refusal) : Option HostSide := (nextState o).map (·.host)

def refusal (o : Host.Outcome State Fault Refusal) : Option Refusal :=
  match o with
  | .next _ => none
  | .fault _ => none
  | .refused r => some r

/-- After `START`. -/
def kStart : Block := { Block.reset with phase := .pfx, rdrem := 2 }
/-- After the marker. -/
def kMark : Block := { kStart with marker := 0x23, rdgot := 1, rdrem := 1, consumed := 1 }
/-- After `23 33` and one digit `'4'` (V-FR24). -/
def kLen : Block :=
  { kMark with lbyte := 0x33, lcnt := 3, phase := .length, rdrem := 2, rdgot := 1, nacc := 4, consumed := 3 }
/-- Before the last of nine digits (V-FR25). -/
def kLast : Block :=
  { kLen with lbyte := 0x39, lcnt := 9, rdrem := 1, rdgot := 8, nacc := 99999999, consumed := 10 }
/-- A payload of 8 bytes just begun. -/
def kPay : Block :=
  { kMark with lbyte := 0x31, lcnt := 1, phase := .payload, nacc := 8, rdrem := 8, rdgot := 0, consumed := 3 }
/-- The low byte 03 of the first count held. -/
def kLow : Block := { kPay with rdrem := 7, rdgot := 1, consumed := 4, lobyte := 0x03, bsel := true }
/-- The count 3 taken, the low byte 00 of the code held. -/
def kCode : Block :=
  { kPay with rdrem := 5, rdgot := 3, consumed := 6, lobyte := 0x00, bsel := true, cnt := 3, ssel := true }
/-- A run of three red pixels in progress, the payload half read. -/
def kRun : Block :=
  { kPay with rdrem := 4, rdgot := 4, consumed := 7, cnt := 3, runrem := 3, runcode := 0xF800 }
/-- Everything received and emitted. -/
def kEnd : Block :=
  { kPay with rdrem := 0, rdgot := 8, consumed := 11, cnt := 2, runcode := 0x07E0, pixcnt := 5 }
/-- The end of program P1. -/
def kDone : Block := { kEnd with phase := .done }
/-- The end of V-FR1. -/
def kFailed : Block := { kStart with phase := .failed, err := .deviceUnresponsive, esub := .tmoPrefix, expect := 2 }

/-! ### WellFormed -/

/-- A write of `CTRL` with bit 0 set is `START` (R123): the other spelling is refused. -/
theorem test_wellFormed_refuses_wrreg_start : (Instr.wrreg 0 1).wellFormed = false := by decide
theorem test_wellFormed_refuses_wrreg_start_all_bits : (Instr.wrreg 0 0xFFFFFFFF).wellFormed = false := by decide
theorem test_wellFormed_accepts_wrreg : (Instr.wrreg 0 0xFFFFFFFE).wellFormed && (Instr.wrreg 5 1).wellFormed = true := by
  decide

/-! ### Decoding: for every constructor a word written out from the formats of R91 to R99 -/

theorem test_decode_start : decode ⟨.idle, 0, 0, 0, false, false⟩ (.regWrite 0 0b1) = .op .start := by decide
theorem test_decode_rdreg : decode ⟨.idle, 0, 0, 0, false, false⟩ (.regRead 8) = .op (.rdreg 8) := by decide
theorem test_decode_wrreg : decode ⟨.done, 8, 0, 0, false, false⟩ (.regWrite 5 99) = .op (.wrreg 5 99) := by decide
/-- `'#'` is 0010 0011. -/
theorem test_decode_rxMark : decode kStart.sel (.inByte 0b00100011) = .op (.rxMark 0x23) := by decide
/-- `'9'` is 0011 1001, the pattern `0011dddd`. -/
theorem test_decode_rxLcnt : decode kMark.sel (.inByte 0b00111001) = .op (.rxLcnt 0x39) := by decide
/-- `'0'` is 0011 0000. -/
theorem test_decode_rxLdig : decode kLen.sel (.inByte 0b00110000) = .op (.rxLdig 0x30) := by decide
theorem test_decode_rxPlo : decode kPay.sel (.inByte 0b00000011) = .op (.rxPlo 0x03) := by decide
theorem test_decode_rxPhi : decode kCode.sel (.inByte 0b11111000) = .op (.rxPhi 0xF8) := by decide
theorem test_decode_rxTmo : decode kPay.sel .inTimeout = .op .rxTmo := by decide
theorem test_decode_fin : decode kEnd.sel .internal = .op .fin := by decide
/-- The count 3, low byte first: 03 00. -/
theorem test_decode_rlCnt : decode kLow.sel (.sample (word16 0x03 0x00)) = .op (.rlCnt 3) := by decide
/-- Red, 11111 000000 00000, low byte first: 00 F8. -/
theorem test_decode_rlCod : decode kCode.sel (.sample (word16 0x00 0xF8)) = .op (.rlCod 0b1111100000000000) := by decide
theorem test_decode_rlEmit : decode kRun.sel .outReady = .op .rlEmit := by decide
theorem test_decode_ccRgb : decode kRun.sel (.code 0b0000011111100000) = .op (.ccRgb 0x07E0) := by decide
theorem test_decode_reset : decode kRun.sel .rst = .op .reset := by decide
theorem test_decode_hIdn :
    decode kDone.sel (.command [0x2A, 0x49, 0x44, 0x4E, 0x3F, 0x0A]) = .op .hIdn := by decide
theorem test_decode_hQuery : decode kDone.sel (.command [0x3A, 0x44, 0x49, 0x53, 0x50, 0x6C, 0x61, 0x79, 0x3A, 0x4F,
    0x55, 0x54, 0x50, 0x75, 0x74, 0x3F, 0x0A]) = .op .hQuery := by decide
theorem test_decode_hRun : decode kDone.sel (.call .run) = .op .hRun := by decide
theorem test_decode_hDim : decode kDone.sel (.call .dim) = .op .hDim := by decide
theorem test_decode_hCommit : decode kDone.sel (.call .commit) = .op .hCommit := by decide
/-- V-FR27: neither a byte nor a timeout is taken while a run is emitted. -/
theorem test_decode_rejects_while_emitting : decode kRun.sel (.inByte 0x02) = .reject .byteNotTaken ∧
    decode kRun.sel .inTimeout = .reject .timeoutNotTaken := by decide
theorem test_decode_rejects_other_command : decode kDone.sel (.command [0x2A, 0x52, 0x53, 0x54, 0x0A])
    = .reject .unknownCommand := by decide

/-! ### The host's fixed names -/

theorem test_table_word_start : decodeTableWord 32 1 = some .start := by decide
theorem test_table_word_rxLcnt : decodeTableWord 8 0x31 = some (.rxLcnt 0x31) := by decide
theorem test_table_word_beat_refused : decodeTableWord 24 0x010000 = none := by decide
theorem test_table_word_hIdn : decodeTableWord 48 0x0A3F4E44492A = some .hIdn := by decide
theorem test_fetch_word_start : blkAfter (step (State.withFetchWord (around Block.reset) 32 1)) = some kStart := by decide
theorem test_fetch_word_beat : (nextState (step (State.withFetchWord (around Block.reset) 24 0xF80000))).map
    (·.sink.beats) = some [0xF80000] := by decide

/-! ### One step each -/

/-- V-HC2. -/
theorem test_start : blkAfter (exec .start (around Block.reset)) = some kStart ∧ kStart.readReg 1 = 0x00000401 := by decide
/-- V-HC3: ignored while busy. -/
theorem test_start_busy : blkAfter (exec .start (around kMark)) = some kMark := by decide
/-- V-HC10. -/
theorem test_rdreg_status : (hostAfter (exec (.rdreg 1) (around { kRun with runrem := 2 }))).map (·.rdata)
    = some 0x00000803 := by decide
/-- P1: `RDREG 2 = 0x00013123`; V-HC8: `RDREG 9 = 0`. -/
theorem test_rdreg_header : (hostAfter (exec (.rdreg 2) (around kDone))).map (·.rdata) = some 0x00013123 ∧
    (hostAfter (exec (.rdreg 9) (around kDone))).map (·.rdata) = some 0 := by decide
/-- V-HC7: the write is dropped. -/
theorem test_wrreg_dropped : blkAfter (exec (.wrreg 5 99) (around kDone)) = some kDone ∧ kDone.readReg 5 = 5 := by decide
/-- V-HC5. -/
theorem test_wrreg_starts : blkAfter (exec (.wrreg 0 0xFFFFFFFF) (around kFailed)) = some kStart := by decide
/-- V-FR20. -/
theorem test_rxMark : blkAfter (exec (.rxMark 0x23) (around kStart)) = some kMark := by decide
/-- V-FR21. -/
theorem test_rxLcnt : blkAfter (exec (.rxLcnt 0x39) (around kMark)) = some { kMark with
    lbyte := 0x39, lcnt := 9, phase := .length, rdrem := 9, rdgot := 0, consumed := 2 } := by decide
/-- V-FR22. -/
theorem test_rxLcnt_bad : blkAfter (exec (.rxLcnt 0x3A) (around kMark)) = some { kMark with
    lbyte := 0x3A, phase := .failed, err := .malformedBlock, esub := .badLcnt, rdgot := 2, rdrem := 0,
    consumed := 2 } := by decide
/-- V-FR24. -/
theorem test_rxLdig : blkAfter (exec (.rxLdig 0x30) (around kLen)) = some { kLen with
    nacc := 40, rdrem := 1, rdgot := 2, consumed := 4 } := by decide
/-- V-FR25. -/
theorem test_rxLdig_last : blkAfter (exec (.rxLdig 0x39) (around kLast)) = some { kLast with
    nacc := 999999999, phase := .payload, rdrem := 999999999, rdgot := 0, consumed := 11 } := by decide
/-- R148, worked example. -/
theorem test_rxPlo : blkAfter (exec (.rxPlo 0x03) (around kPay)) = some kLow := by decide
/-- V-RL10. -/
theorem test_rxPhi_count : blkAfter (exec (.rxPhi 0x00) (around kLow)) = some { kLow with
    rdrem := 6, rdgot := 2, consumed := 5, bsel := false, cnt := 3, ssel := true } := by decide
/-- V-RL11. -/
theorem test_rxPhi_code : blkAfter (exec (.rxPhi 0xF8) (around kCode)) = some kRun ∧ kRun.outValid = true ∧
    kRun.outData = 0xF80000 ∧ kRun.inReady = false := by decide
/-- V-FR26. -/
theorem test_rxTmo : blkAfter (exec .rxTmo (around { kPay with rdrem := 3, rdgot := 5 })) = some { kPay with
    rdrem := 3, rdgot := 5, expect := 8, actual := 5, phase := .failed, err := .truncatedTransfer,
    esub := .tmoPayload } := by decide
/-- V-FR1. -/
theorem test_rxTmo_silent : blkAfter (exec .rxTmo (around kStart)) = some kFailed ∧
    kFailed.readReg 1 = 0x0000014D := by decide
/-- P1, the last step. -/
theorem test_fin : blkAfter (exec .fin (around kEnd)) = some kDone := by decide
/-- V-FR28: the byte check first. -/
theorem test_fin_odd : blkAfter (exec .fin (around { kEnd with bsel := true, ssel := true })) = some { kEnd with
    bsel := true, ssel := true, phase := .failed, err := .malformedBlock, esub := .oddBytes } := by decide
/-- R174. -/
theorem test_rlCnt : blkAfter (exec (.rlCnt 3) (around kPay)) = some { kPay with cnt := 3, ssel := true } := by decide
/-- V-RL12: a count of 0 starts no run. -/
theorem test_rlCod_zero : blkAfter (exec (.rlCod 0x1234) (around { kPay with ssel := true, cnt := 0 })) = some { kPay with
    runcode := 0x1234 } := by decide
/-- V-RL13. -/
theorem test_rlEmit : (nextState (exec .rlEmit (around { kRun with runrem := 1, pixcnt := 2 }))).map
    (fun t => (t.sink.beats, t.blk.runrem, t.blk.pixcnt, t.blk.inReady)) = some ([0xF80000], 0, 3, true) := by decide
/-- V-CC. -/
theorem test_ccRgb : (nextState (exec (.ccRgb 0xFFFF) (around kDone))).map (·.rgb) = some 0xF8FCF8 ∧
    (nextState (exec (.ccRgb 0x0020) (around kDone))).map (·.rgb) = some 0x000400 := by decide
/-- R270, R271. -/
theorem test_reset : nextState (exec .reset { around kRun with sink := ⟨[0xF80000], []⟩ })
    = some { around Block.reset with sink := ⟨[0xF80000], []⟩ } := by decide
/-- H1: the line is read to its newline; the byte after it stays. -/
theorem test_hIdn : (nextState (exec .hIdn { atStage .idle with
    src := ⟨bytes [0x58, 0x59, 0x2C, 0x6D, 0x6F, 0x64, 0x65, 0x6C, 0x0A, 0x23], []⟩ })).map
    (fun t => (t.host.stage, t.host.sent, t.src.moves)) = some (.identified, idnCommand, bytes [0x23]) := by decide
/-- H2b: the line is shorter than the prefix. -/
theorem test_hIdn_short : (hostAfter (exec .hIdn { atStage .idle with src := ⟨bytes [0x58, 0x0A], []⟩ })).map
    (fun h => (h.stage, h.report.map (·.kind))) = some (.failed, some .unrecognizedDevice) := by decide
theorem test_hQuery : (hostAfter (exec .hQuery (atStage .identified))).map (fun h => (h.sent, h.queried))
    = some (queryCommand, true) := by decide
theorem test_hRun_starts : blkAfter (exec .hRun (atStage .identified)) = some kStart := by decide
theorem test_hRun_fails : (hostAfter (exec .hRun { atStage .awaitingBlock with blk := kFailed })).map (·.report)
    = some (some ⟨.deviceUnresponsive, some 2, some 0, some 5, some 0⟩) := by decide
/-- H3. -/
theorem test_hDim_mismatch : (hostAfter (exec .hDim { around { kDone with pixcnt := 10 } with
    host := { hostAt .captured with params := ⟨0x58, 0x59, 2, 3⟩ } })).map (·.report)
    = some (some ⟨.dimensionMismatch, some 6, some 10, none, none⟩) := by decide
theorem test_hDim : (hostAfter (exec .hDim { around kDone with host := hostAt .captured })).map (·.stage)
    = some .checked := by decide
/-- S1: the bytes of a red and a green pixel. -/
theorem test_hCommit : (nextState (exec .hCommit { atStage .checked with sink := ⟨[0xF80000, 0x00FC00], []⟩ })).map
    (fun t => (t.sink, t.host.stage))
    = some (⟨[], [⟨[248, 0, 0, 0, 252, 0], 5, 1⟩]⟩, .done) := by decide
/-- S1 and R204 at the function level. -/
theorem test_capture_p1 : (match capture [0x23, 0x31, 0x38, 0x03, 0x00, 0x00, 0xF8, 0x02, 0x00, 0xE0, 0x07] with
    | .ok r => some r
    | .error _ => none) = some ([0xF800, 0xF800, 0xF800, 0x07E0, 0x07E0],
      [248, 0, 0, 248, 0, 0, 248, 0, 0, 0, 252, 0, 0, 252, 0]) := by decide
/-- V-FR14 in the table of end states. -/
theorem test_endOf_fr14 : endOf [0x23, 0x31, 0x35, 0x01, 0x00, 0x1F, 0x00]
    = ⟨.failed, .truncatedTransfer, .tmoPayload, 7, [0x001F], 5, 4⟩ := by decide

/-! ### Witnesses: a concrete state and operands that meet the hypotheses of each statement, clause by clause -/

theorem witness_DecodeOfEncode : (Instr.rxPhi 0xFF).wellFormed = true ∧ kCode.sel.enables (.rxPhi 0xFF) = true := by
  decide
theorem witness_DecodeOnlyEnabled : decode kDone.sel (.regWrite 0 3) = .op .start ∧
    decode kCode.sel (.inByte 0xFF) = .op (.rxPhi 0xFF) := by decide
theorem witness_OperationsExcludeOneAnother : kPay.sel.enables .rxTmo = true := by decide

/-- A step of every kind: a byte, a timeout at its head, the raw signal, the sink, the block, the host, the two levels
of reset, the block by itself, and the hang; a `drain` that is allowed, and the four states in which it is refused. -/
theorem witness_StepRunsTheDecodedOperation :
    decode kStart.sel (.inByte 0x23) = .op (.rxMark 0x23) ∧ decode kStart.sel .inTimeout = .op .rxTmo ∧
    decode kRun.sel .outReady = .op .rlEmit ∧ decode kEnd.sel .internal = .op .fin ∧
    decode kRun.sel (hostWire (.read 1)) = .op (.rdreg 1) ∧ kDone.sel.enables .fin = false ∧
    ((around kDone).blk.busy = false ∧ (around kDone).host.stage ≠ .awaitingIdentity ∧
      (around kDone).host.stage ≠ .identified ∧ (around kDone).host.stage ≠ .awaitingBlock) ∧
    kMark.busy = true ∧ (atStage .awaitingIdentity).host.stage = .awaitingIdentity ∧
    (atStage .identified).host.stage = .identified ∧
    ((atStage .awaitingBlock).host.stage = .awaitingBlock ∧ (atStage .awaitingBlock).blk.phase = .idle) := by decide
/-- The watchdog takes a byte on offer, and a silence that waits; then the timeout is `RX.TMO`. -/
theorem witness_StepRuns_watchdog :
    (nextState (step { around kStart with turns := [.watchdog], src := ⟨[.byte 0x23, .timeout], []⟩ })).map
      (fun t => (t.blk, t.src.moves)) = some (kMark, [.timeout]) ∧
    (nextState (step { around kStart with turns := [.watchdog], src := ⟨[.timeout, .byte 0x23], []⟩ })).map
      (fun t => (t.blk, t.src.moves)) = some (kFailed, [.byte 0x23]) := by decide
/-- The host drains the stream after `DONE` (R78) and not while the capture or the identity line has it (R224, R222). -/
theorem witness_StepRuns_drain :
    (nextState (step { around kDone with turns := [.drain], src := ⟨bytes [0x0A, 0x23], []⟩ })).map (·.src.moves)
      = some (bytes [0x23]) ∧
    refusal (step { around kMark with turns := [.drain] }) = some .exclusiveStream ∧
    refusal (step { atStage .identified with turns := [.drain] }) = some .exclusiveStream ∧
    refusal (step { atStage .awaitingBlock with turns := [.drain] }) = some .exclusiveStream := by decide
theorem witness_StepRuns_byte : blkAfter (step { around kStart with
    turns := [.source], src := ⟨bytes [0x23], []⟩ }) = some kMark := by decide
theorem witness_StepRuns_hang : (match step (around kDone) with
    | .fault r => r == .hang
    | .next _ => false
    | .refused _ => false) = true := by decide
theorem witness_NothingTakenWhenNotReady : kRun.inReady = false ∧ kPay.outValid = false ∧ kPay.sel.finReady = false := by
  decide
theorem witness_ByteWinsOverTimeout : (nextState (step { around kStart with
    turns := [.watchdog], src := ⟨bytes [0x23], []⟩ })).map (·.blk) = some kMark := by decide
theorem witness_DisabledOperationsAreRefused : (around Block.reset).blk.sel.enables .fin = false ∧
    refusal (exec .fin (around Block.reset)) = some (.notEnabled "FIN") := by decide

theorem witness_StartArmsTheBlock : (0x80000001 : RegWord).getLsbD 0 = true ∧ (around kDone).rst = false ∧
    Block.reset.phase = .idle ∧ kDone.phase = .done ∧ kFailed.phase = .failed ∧ kMark.phase = .pfx ∧
    kLen.phase = .length ∧ kPay.phase = .payload := by decide
/-- An acting `START` at every stage of the host, with the block reset or its result there. -/
theorem witness_StartBelongsToOneCapture : (around kDone).rst = false ∧
    [Block.reset, kDone, kFailed].map (·.phase) = [.idle, .done, .failed] ∧
    [HostStage.idle, .awaitingIdentity, .identified, .captured, .checked, .done, .failed].map
      (fun st => (hostAfter (exec .start { around kDone with host := hostAt st })).map (·.stage))
      = [some .idle, some .idle, some .awaitingBlock, some .idle, some .idle, some .done, some .failed] ∧
    [Block.reset, kDone].map
      (fun b => (hostAfter (exec .start { around b with host := hostAt .awaitingBlock })).map (·.stage))
      = [some .awaitingBlock, some .idle] := by decide
/-- Registers 0 to 9 of a failed block, with every field of the layouts of R40 to R47 in them: V-FR14's failure with a
`lenbad` and a second half of the count that no run leaves. -/
theorem witness_RegisterReadsFollowTheLayouts :
    (List.range 10).map { kPay with
      phase := .failed, err := .truncatedTransfer, esub := .tmoPayload, lenbad := true, nacc := 5, expect := 5
      actual := 4, consumed := 7, pixcnt := 0x000100000001 }.readReg
    = [0, 5 + 8 * 4 + 64 * 7 + 4096, 0x00013123, 5, 7, 1, 1, 5, 4, 0] ∧ 8 < 9 := by decide
theorem witness_RegisterWritesOnlyStart : (0 = 0 ∧ (1 : RegWord).getLsbD 0 = true) ∧ (1 ≠ 0) ∧
    (0xFFFFFFFE : RegWord).getLsbD 0 = false := by decide

theorem witness_MarkerIsLatchedUnchecked : kStart.phase = .pfx ∧ kStart.rdgot = 0 := by decide
/-- The bytes at both ends of the range and those just outside. -/
theorem witness_DigitCountByteOpensOrFails : kMark.phase = .pfx ∧ kMark.rdgot = 1 ∧
    (0x31 ≤ (0x31 : Byte).toNat ∧ (0x31 : Byte).toNat ≤ 0x39) ∧
    (0x31 ≤ (0x39 : Byte).toNat ∧ (0x39 : Byte).toNat ≤ 0x39) ∧
    (0x30 : Byte).toNat < 0x31 ∧ 0x39 < (0x3A : Byte).toNat := by decide
/-- Not the last byte; the last with an earlier bad one, or bad itself; the last and good. -/
theorem witness_LengthDigitAccumulates : kLen.phase = .length ∧ kLen.rdrem ≠ 1 ∧ kLast.phase = .length ∧
    kLast.rdrem = 1 ∧ { kLast with lenbad := true }.lenbad = true ∧
    ¬ (0x30 ≤ (0x3A : Byte).toNat ∧ (0x3A : Byte).toNat ≤ 0x39) ∧ kLast.lenbad = false ∧
    (0x30 ≤ (0x39 : Byte).toNat ∧ (0x39 : Byte).toNat ≤ 0x39) := by decide
theorem witness_LowByteIsHeld : kPay.phase = .payload ∧ 0 < kPay.rdrem ∧ kPay.runrem = 0 ∧ kPay.bsel = false := by decide
theorem witness_HighByteCompletesTheSample :
    (kLow.phase = .payload ∧ 0 < kLow.rdrem ∧ kLow.runrem = 0 ∧ kLow.bsel = true ∧ kLow.ssel = false) ∧
    (kCode.phase = .payload ∧ 0 < kCode.rdrem ∧ kCode.runrem = 0 ∧ kCode.bsel = true ∧ kCode.ssel = true) := by decide
theorem witness_TimeoutFailsTheCurrentRead : kStart.phase = .pfx ∧ kLen.phase = .length ∧
    (kPay.phase = .payload ∧ 0 < kPay.rdrem ∧ kPay.runrem = 0) := by decide
theorem witness_EndOfBlockChecks : (kEnd.phase = .payload ∧ kEnd.rdrem = 0 ∧ kEnd.runrem = 0) ∧
    { kEnd with bsel := true }.bsel = true ∧ ({ kEnd with ssel := true }.bsel = false ∧
    { kEnd with ssel := true }.ssel = true) ∧ (kEnd.bsel = false ∧ kEnd.ssel = false) := by decide
theorem witness_DecoderAcceptsSamples : (kLow.phase = .payload ∧ kLow.runrem = 0 ∧ kLow.ssel = false) ∧
    (kCode.phase = .payload ∧ kCode.runrem = 0 ∧ kCode.ssel = true) := by decide
theorem witness_EmitAppendsOneBeat : kRun.phase = .payload ∧ 0 < kRun.runrem := by decide
theorem witness_UnpackerIsInjective : beatOf 0xFFFF = beatOf 0xFFFF := rfl
theorem witness_RunsInPairOrder : ([2, 0x1234, 5] : List Sample).length % 2 = 1 := by decide
/-- A pair of count 0 between two runs of different codes. -/
theorem witness_RunsRoundTrip :
    ([(2, 0x0010), (3, 0x0011)] : List (Sample × Sample))
      = [(2, 0x0010), (0, 0x0010), (3, 0x0011)].filter (fun p => p.1.toNat != 0) ∧
    ((0x0010 : Sample) ≠ 0x0011) ∧
    maximalRuns [0x0010, 0x0010, 0x0011, 0x0011, 0x0011] = [(2, 0x0010), (3, 0x0011)] := by decide

theorem witness_HeldResetFreezesTheBlock : { around Block.reset with rst := true }.rst = true ∧
    { around Block.reset with rst := true }.blk = Block.reset := by decide
/-- Vector H1's line, and H2b's, which is too short. -/
theorem witness_IdentityLineDecides :
    (atStage .idle).blk.phase = .idle ∧ (atStage .idle).host.stage = .idle ∧
    (atStage .idle).src.cmds.headD .accepted = .accepted ∧ 0x0A ∉ ([0x58, 0x59, 0x2C] : List Byte) ∧
    bytes [0x58, 0x59, 0x2C, 0x0A, 0x23] = ([0x58, 0x59, 0x2C] ++ [0x0A]).map SrcMove.byte ++ bytes [0x23] ∧
    (([0x58, 0x59, 0x2C] ++ [0x0A] : List Byte)[0]? = some (hostAt .idle).params.vendor0 ∧
      ([0x58, 0x59, 0x2C] ++ [0x0A] : List Byte)[1]? = some (hostAt .idle).params.vendor1) ∧
    0x0A ∉ ([0x58] : List Byte) ∧
    ¬ (([0x58] ++ [0x0A] : List Byte)[0]? = some (hostAt .idle).params.vendor0 ∧
      ([0x58] ++ [0x0A] : List Byte)[1]? = some (hostAt .idle).params.vendor1) := by decide
theorem witness_SilentDeviceIsUnresponsive :
    (atStage .failed).blk.phase = .idle ∧ (atStage .failed).host.stage = .failed ∧
    (atStage .failed).src.cmds.headD .accepted = .accepted ∧ 0x0A ∉ ([] : List Byte) ∧
    ([.timeout] : List SrcMove) = ([] : List Byte).map SrcMove.byte ++ .timeout :: [] ∧
    ([.timedOut 0] : List CmdOutcome) = .timedOut 0 :: [] := by decide
theorem witness_IdentityReadWaitsAndResumes :
    (atStage .done).blk.phase = .idle ∧ (atStage .done).host.stage = .done ∧
    (atStage .done).src.moves = ([] : List Byte).map SrcMove.byte ∧ 0x0A ∉ ([] : List Byte) ∧
    (atStage .done).src.cmds.headD .accepted = .accepted ∧
    (atStage .awaitingIdentity).host.stage = .awaitingIdentity := by decide
/-- `H.IDN` resumed after the line's first byte `X`, with `ms` on the stream. -/
def resumed (ms : List SrcMove) : Option State := nextState (exec .hIdn { atStage .awaitingIdentity with
  src := ⟨ms, []⟩, host := { hostAt .awaitingIdentity with line := [0x58] } })
/-- The second byte matches, or does not, or the watchdog expires; nothing is sent again. -/
theorem witness_IdentityRead_resumes :
    (resumed (bytes [0x59, 0x0A, 0x23])).map (fun t => (t.host, t.src.moves))
      = some ({ hostAt .identified with line := [0x58, 0x59, 0x0A] }, bytes [0x23]) ∧
    (resumed (bytes [0x5A, 0x0A, 0x23])).map (fun t => (t.host, t.src.moves))
      = some ({ hostAt .failed with line := [0x58, 0x5A, 0x0A]
                                    report := some (plainReport .unrecognizedDevice) }, bytes [0x23]) ∧
    (resumed [.byte 0x59, .timeout]).map (fun t => (t.host, t.src.moves))
      = some ({ hostAt .failed with line := [0x58, 0x59], report := some (plainReport .deviceUnresponsive) }, []) ∧
    (resumed (bytes [0x59])).map (fun t => (t.host, t.src.moves))
      = some ({ hostAt .awaitingIdentity with line := [0x58, 0x59] }, []) := by decide
theorem witness_QueryIsSentOnce : (atStage .identified).host.queried = false ∧
    (atStage .identified).host.stage = .identified ∧ (atStage .awaitingBlock).host.stage = .awaitingBlock ∧
    (atStage .identified).src.cmds.headD .accepted = .accepted ∧
    ([.timedOut 17] : List CmdOutcome) = .timedOut 17 :: [] := by decide
theorem witness_RunStartsAndWaits : (atStage .identified).host.stage = .identified ∧ (atStage .identified).rst = false ∧
    Block.reset.phase = .idle ∧ kMark.phase = .pfx ∧ (atStage .awaitingBlock).host.stage = .awaitingBlock ∧
    { atStage .identified with rst := true }.rst = true ∧ kDone.phase = .done ∧ kFailed.phase = .failed ∧
    { hostAt .awaitingBlock with queried := true }.queried = true ∧ (hostAt .awaitingBlock).queried = false ∧
    (kPay.phase ≠ .done ∧ kPay.phase ≠ .failed) := by decide
/-- A held reset loses the `START` of `H.RUN`; `DONE` ends its wait after `H.QUERY` only. -/
theorem witness_RunStarts_cases :
    nextState (exec .hRun { atStage .identified with rst := true })
      = some { atStage .awaitingBlock with rst := true } ∧
    [true, false].map (fun q => (hostAfter (exec .hRun { around kDone with
        host := { hostAt .awaitingBlock with queried := q } })).map (·.stage))
      = [some .captured, some .awaitingBlock] := by decide
/-- Exactly the declared number, one too few, one too many. -/
theorem witness_DimensionCheckCompares : (atStage .captured).host.stage = .captured ∧
    kDone.pixcnt.toNat = (hostAt .captured).params.width * (hostAt .captured).params.height ∧
    { kDone with pixcnt := 4 }.pixcnt.toNat ≠ (hostAt .captured).params.width * (hostAt .captured).params.height ∧
    { kDone with pixcnt := 6 }.pixcnt.toNat ≠ (hostAt .captured).params.width * (hostAt .captured).params.height := by
  decide
theorem witness_CommitHandsTheImageOver : (atStage .checked).host.stage = .checked ∧
    ([0xF80000] : List Beat)[0]? = some 0xF80000 := by decide
theorem witness_HostStepsOutOfOrderAreRefused : (around kPay).blk.busy = true ∧
    ((atStage .identified).blk.busy = false ∧ (atStage .identified).host.stage = .identified) ∧
    { hostAt .identified with queried := true }.queried = true ∧
    ¬ ((atStage .idle).host.stage = .identified ∨ (atStage .idle).host.stage = .awaitingBlock) ∧
    (atStage .identified).host.stage ≠ .captured ∧ (atStage .captured).host.stage ≠ .checked := by decide

theorem run_inv : kRun.Inv := by constructor <;> decide
theorem code_inv : kCode.Inv := by constructor <;> decide
theorem end_inv : kEnd.Inv := by constructor <;> decide
/-- A good state with a run in progress and the sink's turn next. -/
theorem witness_EveryStepKeepsTheInvariants : { around kRun with turns := [.sink] }.Inv ∧
    ∃ t, step { around kRun with turns := [.sink] } = .next t :=
  ⟨⟨run_inv, by decide, by decide, by decide, by decide, by decide, by decide, by decide, by decide⟩, _, rfl⟩
theorem witness_PhaseTransitionsAreTheListed : (around kEnd).blk.Inv ∧ ∃ t, exec .fin (around kEnd) = .next t :=
  ⟨end_inv, _, rfl⟩
/-- The code of a pair, and a step that owes nothing new. -/
theorem witness_PairCountsAddUp :
    (around kCode).blk.Inv ∧ kCode.phase = .payload ∧ kCode.ssel = true ∧
      (∃ t, exec (.rxPhi 0xF8) (around kCode) = .next t) ∧
    (around kRun).blk.Inv ∧ kRun.phase = .payload ∧ kRun.ssel = false ∧
      (∃ t, exec .rlEmit (around kRun) = .next t) :=
  ⟨code_inv, rfl, rfl, ⟨_, rfl⟩, run_inv, rfl, rfl, ⟨_, rfl⟩⟩
theorem len_inv : kLen.Inv := by constructor <;> decide
theorem witness_FailuresRecordTheirCause : (around kLen).blk.Inv ∧ kLen.phase ≠ .failed ∧
    ∃ t, exec .rxTmo (around kLen) = .next t ∧ t.blk.phase = .failed := ⟨len_inv, by decide, _, rfl, rfl⟩
theorem witness_FailureIsLeftOnlyByStartOrReset : kFailed.phase = .failed ∧
    (∃ t, step { around kFailed with turns := [.host (.write 0 1)] } = .next t ∧ t.blk = kStart) ∧
    (∃ t, step { around kFailed with turns := [.host .run], host := hostAt .identified } = .next t ∧ t.blk = kStart) ∧
    (∃ t, step { around kFailed with turns := [.rst true] } = .next t ∧ t.blk = Block.reset) ∧
    ∃ t, step { around kFailed with turns := [.source] } = .next t ∧ t.blk = kFailed :=
  ⟨rfl, ⟨_, rfl, by decide⟩, ⟨_, rfl, by decide⟩, ⟨_, rfl, by decide⟩, _, rfl, by decide⟩
theorem witness_ErrorsAreLatchedOnlyByFailures : ∃ t, exec .rxTmo (around kStart) = .next t ∧
    (t.blk.err, t.blk.esub) ≠ (kStart.err, kStart.esub) := ⟨_, rfl, by decide⟩
theorem witness_ErrorsAreLatched_cleared :
    (∃ t, exec .reset (around kFailed) = .next t ∧ (t.blk.err, t.blk.esub) ≠ (kFailed.err, kFailed.esub)) ∧
    ∃ t, exec (.wrreg 0 3) (around kFailed) = .next t ∧ (t.blk.err, t.blk.esub) ≠ (kFailed.err, kFailed.esub) :=
  ⟨⟨_, rfl, by decide⟩, _, rfl, by decide⟩
theorem witness_StreamIsReadInOrder : ∃ t, step { around kStart with
    turns := [.source], src := ⟨bytes [0x23, 0x31], []⟩ } = .next t ∧ t.src.moves = bytes [0x31] := ⟨_, rfl, rfl⟩
theorem witness_IdleBlockTakesNothing : kDone.busy = false ∧ Block.reset.busy = false ∧ kFailed.busy = false := by decide
theorem witness_OutputIsAppendOnly : (∀ m, ({ around kRun with turns := [.sink] } : State).turns.head? ≠ some (.host m)) ∧
    ∃ t, step { around kRun with turns := [.sink] } = .next t ∧ t.sink.beats = [0xF80000] :=
  ⟨by simp, _, rfl, by decide⟩
/-- An image handed over, the stage `checked` entered, and a turn of neither. -/
theorem witness_NothingIsCommittedUnchecked :
    (∃ t, exec .hCommit (atStage .checked) = .next t ∧ t.sink.committed ≠ (atStage .checked).sink.committed) ∧
    (∃ t, exec .hDim { around kDone with host := hostAt .captured } = .next t ∧ t.host.stage = .checked) ∧
    { atStage .checked with turns := [.host (.read 5)] }.turns.head? ≠ some (.host .commit) ∧
    { atStage .checked with turns := [.host (.read 5)] }.turns.head? ≠ some (.host .dim) ∧
    ∃ t, step { atStage .checked with turns := [.host (.read 5)] } = .next t ∧ t.host.stage = .checked :=
  ⟨⟨_, rfl, by decide⟩, ⟨_, rfl, by decide⟩, by decide, by decide, _, rfl, rfl⟩
/-- The end of program P1 with the host at the stage `st` of a capture with everything done before it. -/
def capturedAt (st : HostStage) : State := { around kDone with
  sink := ⟨[0xF80000, 0xF80000, 0xF80000, 0x00FC00, 0x00FC00], []⟩
  host := { hostAt st with queried := true, line := [0x58, 0x59, 0x0A] } }
theorem done_inv : kDone.Inv := by constructor <;> decide
theorem captured_inv : (capturedAt .captured).Inv :=
  ⟨done_inv, by decide, by decide, by decide, by decide, by decide, by decide, by decide, by decide⟩
theorem checked_inv : (capturedAt .checked).Inv :=
  ⟨done_inv, by decide, by decide, by decide, by decide, by decide, by decide, by decide, by decide⟩
/-- A good state at each of the two stages, and the step to the next. -/
theorem witness_OneCaptureAtATime :
    ((capturedAt .captured).Inv ∧ ∃ t, exec .hDim (capturedAt .captured) = .next t ∧ t.host.stage = .checked) ∧
    ((capturedAt .checked).Inv ∧ ∃ t, exec .hCommit (capturedAt .checked) = .next t ∧ t.host.stage = .done ∧
      Instr.hCommit ≠ .reset) :=
  ⟨⟨captured_inv, _, rfl, by decide⟩, checked_inv, _, rfl, by decide, by decide⟩
theorem witness_CommittedImageHasTheDeclaredSize : (capturedAt .checked).Inv ∧
    ∃ t, exec .hCommit (capturedAt .checked) = .next t := ⟨checked_inv, _, rfl⟩
/-- A host past a matching identity line. -/
def identified : State := { around Block.reset with host := { hostAt .identified with line := [0x58, 0x59, 0x0A] } }
theorem witness_NoCommandWithoutIdentity : identified.Inv ∧ ∃ t, exec .hQuery identified = .next t ∧
    t.host.sent ≠ identified.host.sent :=
  ⟨⟨by constructor <;> decide, by decide, by decide, by decide, by decide, by decide, by decide, by decide, by decide⟩,
    _, rfl, by decide⟩

/-- The block of P1 with one byte after it. -/
theorem witness_WholeBlocksAreCaptured : 1 ≤ ([0x30, 0x38] : List Byte).length ∧ ([0x30, 0x38] : List Byte).length ≤ 9 ∧
    ([0x30, 0x38] : List Byte).all isDigit = true ∧
    decVal [0x30, 0x38] = 4 * ([(3, 0xF800), (2, 0x07E0)] : List (Sample × Sample)).length := by decide
/-- A source that sends nothing, and enough fair rounds. -/
theorem witness_StepsRefineCapture :
    (around kFailed).rst = false ∧ (around kFailed).blk.busy = false ∧
    ([.timeout] : List SrcMove) = ([] : List Byte).map SrcMove.byte ++ [.timeout] ∧
    (∀ r ∈ List.replicate (enoughRounds 0) [Turn.source, .sink, .block], fairRound r = true) ∧
    enoughRounds ([] : List Byte).length ≤ (List.replicate (enoughRounds 0) [Turn.source, .sink, .block]).length := by
  refine ⟨rfl, rfl, rfl, fun r hr => ?_, by simp⟩
  rw [List.eq_of_mem_replicate hr]; decide
theorem witness_ResultIndependentOfTiming : [Turn.block].all Turn.quiet = true ∧
    [Turn.sink, .host (.read 5), .block].all Turn.quiet = true ∧
    (∃ t : State, core.run 1 { around kEnd with turns := [.block] } = .next t ∧ t.blk.busy = false) ∧
    (∃ t : State, core.run 3 { around kEnd with turns := [.sink, .host (.read 5), .block] } = .next t ∧
      t.blk.busy = false) := ⟨by decide, by decide, ⟨_, rfl, by decide⟩, ⟨_, rfl, by decide⟩⟩

end Sys2Proof.Tests
end

-- ==== The step, turn by turn ====
section
/-! SUPPORT. What each kind of turn comes to, and the step that follows from it: the rules by which a statement about
`step` goes through `State.serve` and no longer unfolds the fetch. -/

namespace Sys2Proof.Machine

/-! ### From the fetch to the step -/

/-- The head turn is served in the state without it (R9). -/
theorem State.fetch_cons {s : State} {t : Turn} {ts : List Turn} (ht : s.turns = t :: ts) :
    s.fetch = State.serve { s with turns := ts } t := by
  rw [State.fetch, ht]

theorem step_of_run {s u : State} {i : Instr} (h : s.fetch = .run i u) : step s = exec i u := by
  rw [step, h]

theorem step_of_pass {s u : State} (h : s.fetch = .pass u) : step s = .next u := by
  rw [step, h]

theorem step_of_refuse {s : State} {r : Refusal} (h : s.fetch = .refuse r) : step s = .refused r := by
  rw [step, h]

theorem step_of_hang {s : State} (h : s.fetch = .hang) : step s = .fault .hang := by
  rw [step, h]

/-- A turn that puts `p` at a port fires the operation the decoder reads from `p` (R100). -/
theorem step_of_fire {s u : State} {t : Turn} {ts : List Turn} {p : Wire} {i : Instr} (ht : s.turns = t :: ts)
    (hserve : State.serve { s with turns := ts } t = fire (decode s.blk.sel p) u { s with turns := ts })
    (hd : decode s.blk.sel p = .op i) : step s = exec i u := by
  refine step_of_run ?_
  rw [State.fetch_cons ht, hserve]
  exact fire_run.2 ⟨hd, rfl⟩

/-! ### What each turn puts at a port -/

section
variable {s : State} {ms : List SrcMove}

/-- A byte on offer is taken whether or not the watchdog signals (R157). -/
theorem State.serve_byte {t : Turn} {b : Byte} (ht : t = .source ∨ t = .watchdog)
    (hm : s.src.moves = .byte b :: ms) :
    s.serve t = fire (decode s.blk.sel (.inByte b)) (s.withMoves ms) s := by
  obtain rfl | rfl := ht
  · simp only [State.serve, State.serveSource, hm]
  · simp only [State.serve, State.serveWatchdog, hm]

/-- A silence at the head of the stream is a timeout for both. -/
theorem State.serve_timeout {t : Turn} (ht : t = .source ∨ t = .watchdog) (hm : s.src.moves = .timeout :: ms) :
    s.serve t = fire (decode s.blk.sel .inTimeout) (s.withMoves ms) s := by
  obtain rfl | rfl := ht
  · simp only [State.serve, State.serveSource, hm]
  · simp only [State.serve, State.serveWatchdog, hm]

/-- The raw signal, with nothing on offer (R154). -/
theorem State.serve_watchdog_nil (hm : s.src.moves = []) :
    s.serve .watchdog = fire (decode s.blk.sel .inTimeout) s s := by
  simp only [State.serve, State.serveWatchdog, hm]

theorem State.serve_drain_allowed (h : s.hostMayRead = true) :
    s.serve .drain = .pass (s.withMoves s.src.moves.tail) := by
  simp only [State.serve, h, if_true]

theorem State.serve_drain_refused (h : s.hostMayRead = false) : s.serve .drain = .refuse .exclusiveStream := by
  simp [State.serve, h]

/-- When the stream is not the host's: the complement of `State.hostMayRead_iff` (R78, R222, R224). -/
theorem State.hostMayRead_eq_false_iff : s.hostMayRead = false ↔
    s.blk.busy = true ∨ s.host.stage = .awaitingIdentity ∨ s.host.stage = .identified ∨
      (s.host.stage = .awaitingBlock ∧ s.blk.phase = .idle) := by
  rw [← Bool.not_eq_true, State.hostMayRead_iff]
  cases s.blk.busy <;> simp
  tauto

end

/-! ### With no turn left -/

/-- The block's own move is all that can happen (R72). -/
theorem State.fetch_nil_run {s : State} {i : Instr} (ht : s.turns = []) (hd : decode s.blk.sel .internal = .op i) :
    s.fetch = .run i s := by
  simp only [State.fetch, ht, hd]

/-- Without one the machine hangs (R11). -/
theorem State.fetch_nil_hang {s : State} (ht : s.turns = []) (hfin : s.blk.sel.enables .fin = false) :
    s.fetch = .hang := by
  have hd : decode s.blk.sel .internal = .reject .noInternalStep := if_neg (Bool.eq_false_iff.1 hfin)
  simp only [State.fetch, ht, hd]

/-! ### The step, for every kind of turn -/

/-- Settles O5: each clause is the rule of its turn (`State.serve_*`) followed by the step from the fetch. -/
theorem stepRunsTheDecodedOperation : Obligations.StepRunsTheDecodedOperation := by
  intro s ts i
  refine ⟨?byte, ?timeout, ?signal, ?sink, ?block, ?host, ?rstHigh, ?rstLow, ?drain, ?drainRefused, ?own, ?hang⟩
  case byte =>
    rintro b ms (ht | ht) hm hd
    · exact step_of_fire ht (State.serve_byte (.inl rfl) hm) hd
    · exact step_of_fire ht (State.serve_byte (.inr rfl) hm) hd
  case timeout =>
    rintro ms (ht | ht) hm hd
    · exact step_of_fire ht (State.serve_timeout (.inl rfl) hm) hd
    · exact step_of_fire ht (State.serve_timeout (.inr rfl) hm) hd
  case signal => exact fun ht hm hd => step_of_fire ht (State.serve_watchdog_nil hm) hd
  case sink => exact fun ht hd => step_of_fire ht rfl hd
  case block => exact fun ht hd => step_of_fire ht rfl hd
  case host => exact fun _ ht hd => step_of_fire ht rfl hd
  case rstHigh => exact fun ht => step_of_fire (p := .rst) ht rfl rfl
  case rstLow => exact fun ht => step_of_pass (State.fetch_cons ht)
  case drain =>
    intro ht hbusy hid hidd hawait
    have hmay : State.hostMayRead { s with turns := ts } = true :=
      (State.hostMayRead_iff _).2 ⟨hbusy, hid, hidd, fun hst hph => hawait ⟨hst, hph⟩⟩
    exact step_of_pass ((State.fetch_cons ht).trans (State.serve_drain_allowed hmay))
  case drainRefused =>
    intro ht hwhy
    have hmay : State.hostMayRead { s with turns := ts } = false := State.hostMayRead_eq_false_iff.2 hwhy
    exact step_of_refuse ((State.fetch_cons ht).trans (State.serve_drain_refused hmay))
  case own => exact fun ht hd => step_of_run (State.fetch_nil_run ht hd)
  case hang => exact fun ht hfin => step_of_hang (State.fetch_nil_hang ht hfin)

end Sys2Proof.Machine
end

-- ==== What an operation does to the block ====
section
/-! SUPPORT. What each operation does to the block, said once for all of R100: the operations of the block as functions
on it, and beside them `START`, reset and the operations that leave it alone. -/

namespace Sys2Proof.Machine

/-- What an operation of the block does to it (R144 to R153, R174 to R176); the other operations have none. -/
def blockMove : Instr → Option (Block → Block)
  | .rxMark b => some fun k => { k with marker := b, consumed := k.consumed + 1, rdgot := 1, rdrem := 1 }
  | .rxLcnt b => some (·.countDigit b)
  | .rxLdig b => some (·.lengthDigit b)
  | .rxPlo b => some fun k => { k.takeByte with lobyte := b, bsel := true }
  | .rxPhi b => some (·.highByte b)
  | .rxTmo => some Block.timeOut
  | .fin => some Block.finish
  | .rlCnt smp => some (·.acceptCount smp)
  | .rlCod smp => some (·.acceptCode smp)
  | .rlEmit => some Block.pixelGone
  | .start | .rdreg _ | .wrreg _ _ | .ccRgb _ | .reset | .hIdn | .hQuery | .hRun | .hDim | .hCommit => none

/-- The three ways the host writes a `START` (R121, R123, R224). -/
def StartsBlock (i : Instr) : Prop := i = .start ∨ i = .hRun ∨ ∃ v : RegWord, i = .wrreg 0 v ∧ v.getLsbD 0 = true

section
variable {i : Instr} {f : Block → Block} {s t : State}

/-- Each operation of the block fires in a busy block only (R100). -/
theorem blockMove_busy {k : Block} (hf : blockMove i = some f) (he : k.sel.enables i = true) : k.busy = true := by
  rw [Block.busy_iff]
  cases i with
  | rxMark b => exact .inl ((k.enables_rxMark b).1 he).1
  | rxLcnt b => exact .inl ((k.enables_rxLcnt b).1 he).1
  | rxLdig b => exact .inr (.inl ((k.enables_rxLdig b).1 he))
  | rxPlo b => exact .inr (.inr ((k.enables_rxPlo b).1 he).1)
  | rxPhi b => exact .inr (.inr ((k.enables_rxPhi b).1 he).1)
  | rxTmo => exact (k.enables_rxTmo.1 he).imp_right (.imp_right And.left)
  | fin => exact .inr (.inr (k.enables_fin.1 he).1)
  | rlCnt smp => exact .inr (.inr ((k.enables_rlCnt smp).1 he).1)
  | rlCod smp => exact .inr (.inr ((k.enables_rlCod smp).1 he).1)
  | rlEmit => exact .inr (.inr (k.enables_rlEmit.1 he).1)
  | _ => simp [blockMove] at hf

/-- Everything the high byte of a sample can do (R149, R174, R175). -/
theorem Block.highByte_cases (k : Block) (b : Byte) :
    (k.ssel = false ∧ k.highByte b =
      { k.takeByte with bsel := false, cnt := word16 k.lobyte b, ssel := true }) ∨
    (k.ssel = true ∧ k.highByte b =
      { k.takeByte with bsel := false, runcode := word16 k.lobyte b, runrem := k.cnt, ssel := false }) :=
  Block.acceptSample_cases { k.takeByte with bsel := false } (word16 k.lobyte b)

/-- Only `RL.EMIT` counts a pixel (R176). -/
theorem blockMove_pixcnt (hf : blockMove i = some f) (hi : i ≠ .rlEmit) (k : Block) : (f k).pixcnt = k.pixcnt := by
  cases i with
  | rxLcnt b => cases hf; obtain ⟨-, h⟩ | ⟨-, h⟩ := k.countDigit_cases b <;> simp [h]
  | rxLdig b => cases hf; obtain ⟨-, h⟩ | ⟨-, -, h⟩ | ⟨-, -, -, h⟩ := k.lengthDigit_cases b <;> simp [h]
  | rxPhi b => cases hf; obtain ⟨-, h⟩ | ⟨-, h⟩ := k.highByte_cases b <;> simp [h]
  | fin => cases hf; obtain ⟨-, h⟩ | ⟨-, -, h⟩ | ⟨-, -, h⟩ := k.finish_cases <;> simp [h]
  | rlEmit => exact absurd rfl hi
  | rxMark _ | rxPlo _ | rxTmo | rlCnt _ | rlCod _ => cases hf; rfl
  | _ => simp [blockMove] at hf

theorem exec_eq_blockOp (hf : blockMove i = some f) (hi : i ≠ .rlEmit) (s : State) :
    ∃ m, exec i s = s.blockOp i m f := by
  cases i with
  | rlEmit => exact absurd rfl hi
  | rxMark _ | rxLcnt _ | rxLdig _ | rxPlo _ | rxPhi _ | rxTmo | fin | rlCnt _ | rlCod _ => cases hf; exact ⟨_, rfl⟩
  | _ => simp [blockMove] at hf

/-- An operation of the block that emits nothing does its part to the block and nothing else. -/
theorem exec_blockMove (hf : blockMove i = some f) (hi : i ≠ .rlEmit) (h : exec i s = .next t) :
    s.blk.sel.enables i = true ∧ t = { s with blk := f s.blk } := by
  obtain ⟨m, hm⟩ := exec_eq_blockOp hf hi s
  exact State.blockOp_next.1 (hm ▸ h)

/-- What an operation of the block leaves of the agents: at most one beat of the run's colour goes to the sink, and it
is counted (R53, R176). -/
theorem exec_blockMove_frame (hf : blockMove i = some f) (h : exec i s = .next t) :
    s.blk.sel.enables i = true ∧ t.blk = f s.blk ∧ t.host = s.host ∧ t.rst = s.rst ∧
      t.sink.committed = s.sink.committed ∧
      ((t.sink.beats = s.sink.beats ∧ (f s.blk).pixcnt = s.blk.pixcnt) ∨
        (t.sink.beats = s.sink.beats ++ [beatOf s.blk.runcode] ∧ i = .rlEmit ∧ f s.blk = s.blk.pixelGone)) := by
  by_cases hi : i = .rlEmit
  · subst hi
    cases hf
    obtain ⟨he, rfl⟩ := (exec_rlEmit s).1 h
    exact ⟨he, rfl, rfl, rfl, rfl, .inr ⟨rfl, rfl, rfl⟩⟩
  · obtain ⟨he, rfl⟩ := exec_blockMove hf hi h
    exact ⟨he, rfl, rfl, rfl, rfl, .inl ⟨rfl, blockMove_pixcnt hf hi _⟩⟩

/-! ### The operations of the host -/

theorem State.readIdentity_blk (s : State) : s.readIdentity.blk = s.blk := by
  obtain ⟨_, _, _, -, -, -, h⟩ | ⟨_, _, _, -, -, -, h⟩ | ⟨_, _, _, -, -, h⟩ | ⟨_, -, h⟩ := s.readIdentity_cases <;>
    rw [h]

theorem State.sendCommand_blk {cmd : List Byte} {after : State → State} (hafter : ∀ u, (after u).blk = u.blk)
    (s : State) : (s.sendCommand cmd after).blk = s.blk := by
  obtain ⟨-, h⟩ | ⟨_, _, -, h⟩ := s.sendCommand_cases cmd after <;> rw [h]
  exact hafter _

theorem State.pollBlock_blk (s : State) : s.pollBlock.blk = s.blk := by
  obtain ⟨-, -, h⟩ | ⟨-, -, h⟩ | ⟨-, h⟩ | ⟨-, -, h⟩ := s.pollBlock_cases <;> rw [h]
  rfl

/-- Everything `H.IDN` can do: the query that begins a capture, or the read that goes on. -/
theorem exec_hIdn_cases (h : exec .hIdn s = .next t) : s.blk.busy = false ∧
    ((s.host.stage ∈ [.idle, .done, .failed] ∧
        t = { s with host := s.host.begin }.sendCommand idnCommand State.readIdentity) ∨
      (s.host.stage = .awaitingIdentity ∧ t = s.readIdentity)) := by
  simp only [exec, execHIdn] at h
  split at h
  · cases h
  next hb =>
    refine ⟨by simpa using hb, ?_⟩
    split at h <;> simp_all

/-- Everything `H.QUERY` can do. -/
theorem exec_hQuery_cases (h : exec .hQuery s = .next t) :
    s.host.queried = false ∧ (s.host.stage = .identified ∨ s.host.stage = .awaitingBlock) ∧
      t = s.sendCommand queryCommand fun s' => { s' with host := { s'.host with queried := true } } := by
  simp only [exec, execHQuery] at h
  split at h <;> simp_all

/-- Everything `H.RUN` can do. -/
theorem exec_hRun_cases (h : exec .hRun s = .next t) :
    (s.host.stage = .identified ∧ t = s.beginRun) ∨ (s.host.stage = .awaitingBlock ∧ t = s.pollBlock) := by
  simp only [exec, execHRun] at h
  split at h <;> simp_all

/-- Everything `H.DIM` can do. -/
theorem exec_hDim_cases (h : exec .hDim s = .next t) : s.host.stage = .captured ∧
    ((∃ r, t = s.hostFail r) ∨
      (s.blk.pixcnt.toNat = s.host.params.width * s.host.params.height ∧
        t = { s with host := { s.host with stage := .checked } })) := by
  simp only [exec, execHDim, Block.pixelCount_eq] at h
  split at h
  next hst =>
    refine ⟨hst, ?_⟩
    split at h
    · exact .inl ⟨_, (Host.Outcome.next.inj h).symm⟩
    next hp => exact .inr ⟨not_not.1 hp, (Host.Outcome.next.inj h).symm⟩
  · cases h

/-- Everything `H.COMMIT` can do. -/
theorem exec_hCommit_cases (h : exec .hCommit s = .next t) : s.host.stage = .checked ∧ t = { s with
    sink := ⟨[], s.sink.committed ++
      [⟨s.sink.beats.flatMap beatBytes, s.host.params.width, s.host.params.height⟩]⟩
    host := { s.host with stage := .done } } := by
  simp only [exec, execHCommit] at h
  split at h
  next hst => exact ⟨hst, (Host.Outcome.next.inj h).symm⟩
  · cases h

/-- Everything a completed operation can do to the block: its own move, an acting `START`, reset, or nothing. -/
inductive BlockChange (i : Instr) (k k' : Block) : Prop
  | move {f : Block → Block} (hf : blockMove i = some f) (he : k.sel.enables i = true) (hk : k' = f k)
  | start (hi : StartsBlock i) (hb : k.busy = false) (hk : k' = Block.armed)
  | reset (hi : i = .reset) (hk : k' = Block.reset)
  | kept (hi : blockMove i = none) (hk : k' = k)

theorem exec_blockChange (h : exec i s = .next t) : BlockChange i s.blk t.blk := by
  cases i with
  | rxMark _ | rxLcnt _ | rxLdig _ | rxPlo _ | rxPhi _ | rxTmo | fin | rlCnt _ | rlCod _ | rlEmit =>
    obtain ⟨he, ht, -⟩ := exec_blockMove_frame rfl h
    exact .move rfl he ht
  | start =>
    cases h
    obtain ⟨h, -⟩ | ⟨h, -, hb⟩ := s.start_cases
    · exact .kept rfl (by rw [h])
    · exact .start (.inl rfl) hb (by rw [h])
  | wrreg n v =>
    cases h
    obtain h | ⟨h, rfl, hv, -, hb⟩ := s.writeReg_cases n v
    · exact .kept rfl (by rw [h])
    · exact .start (.inr (.inr ⟨v, rfl, hv⟩)) hb (by rw [h])
  | hRun =>
    obtain ⟨-, rfl⟩ | ⟨-, rfl⟩ := exec_hRun_cases h
    · obtain ⟨h, -⟩ | ⟨h, hb, -⟩ := s.beginRun_cases
      · exact .kept rfl (by rw [h])
      · exact .start (.inr (.inl rfl)) hb (by rw [h])
    · exact .kept rfl s.pollBlock_blk
  | reset => cases h; exact .reset rfl rfl
  | rdreg _ | ccRgb _ => cases h; exact .kept rfl rfl
  | hIdn =>
    obtain ⟨-, ⟨-, rfl⟩ | ⟨-, rfl⟩⟩ := exec_hIdn_cases h
    · exact .kept rfl (State.sendCommand_blk State.readIdentity_blk _)
    · exact .kept rfl s.readIdentity_blk
  | hQuery =>
    obtain ⟨-, -, rfl⟩ := exec_hQuery_cases h
    refine .kept rfl (State.sendCommand_blk (fun u => ?_) s)
    rfl
  | hDim =>
    obtain ⟨-, ⟨_, rfl⟩ | ⟨-, rfl⟩⟩ := exec_hDim_cases h
    · exact .kept rfl rfl
    · exact .kept rfl rfl
  | hCommit =>
    obtain ⟨-, rfl⟩ := exec_hCommit_cases h
    exact .kept rfl rfl

end

end Sys2Proof.Machine
end

-- ==== The block's invariants ====
section
/-! SUPPORT. Each operation of the block keeps `Block.Inv` (R51), where R100 enables it: first what has to be shown of
a block in each phase, then the operations in the order of the framer and the decoder. -/

namespace Sys2Proof.Machine

/-- Nothing is recorded of a failure (R22, R23, R37). -/
def Block.NoError (k : Block) : Prop := k.err = .none ∧ k.esub = .none ∧ k.expect = 0 ∧ k.actual = 0

/-- The bounds a good block has in every phase (R26, R27, R35, R36). -/
def Block.InBounds (k : Block) : Prop :=
  k.lcnt.toNat ≤ 9 ∧ k.nacc.toNat ≤ 999999999 ∧ k.pixcnt.toNat ≤ 249999999 * 65535 ∧ k.consumed.toNat ≤ 1000000010

section
variable {k : Block} {b : Byte}

/-! ### What a good block is, phase by phase -/

theorem Block.Inv.noError (h : k.Inv) (hp : k.phase ≠ .failed) : k.NoError :=
  ⟨not_not.1 fun he => hp (h.failedIff.2 he), h.noEsub hp, h.counts hp⟩

theorem Block.Inv.inBounds (h : k.Inv) : k.InBounds := ⟨h.lcntBound, h.naccBound, h.pixcntBound, h.consumedBound⟩

theorem Block.inv_of_failed (hp : k.phase = .failed)
    (he : k.err = .deviceUnresponsive ∨ k.err = .malformedBlock ∨ k.err = .truncatedTransfer)
    (hs : k.esub ≠ .none) (hb : k.InBounds) : k.Inv := by
  have herr : k.err ≠ .none := by rcases he with h | h | h <;> simp [h]
  obtain ⟨hl, hn, hx, hc⟩ := hb
  constructor <;> simp [*]

theorem Block.inv_of_pfx (hp : k.phase = .pfx) (he : k.NoError)
    (hcnt : k.rdgot.toNat ≤ 1 ∧ k.rdrem.toNat = 2 - k.rdgot.toNat ∧ k.consumed.toNat = k.rdgot.toNat ∧
      k.lcnt = 0 ∧ k.nacc = 0 ∧ k.pixcnt = 0)
    (haux : k.runrem = 0 ∧ k.bsel = false ∧ k.ssel = false ∧ k.lenbad = false) : k.Inv := by
  obtain ⟨herr, hesub, hexp, hact⟩ := he
  obtain ⟨hg, hr, hc, hl, hn, hx⟩ := hcnt
  constructor <;> simp [*]
  omega

theorem Block.inv_of_length (hp : k.phase = .length) (he : k.NoError) (hb : k.InBounds)
    (hcnt : 1 ≤ k.lcnt.toNat ∧ k.rdgot.toNat + k.rdrem.toNat = k.lcnt.toNat ∧ 1 ≤ k.rdrem.toNat ∧
      k.consumed.toNat = 2 + k.rdgot.toNat ∧ k.pixcnt = 0)
    (haux : k.nacc.toNat < 10 ^ k.rdgot.toNat ∧ k.runrem = 0 ∧ k.bsel = false ∧ k.ssel = false) : k.Inv := by
  obtain ⟨herr, hesub, hexp, hact⟩ := he
  obtain ⟨hl, hn, hx, hc⟩ := hb
  constructor
  case consumedBound => exact hc
  all_goals simp [*]

theorem Block.inv_of_payload (hp : k.phase = .payload) (he : k.NoError) (hb : k.InBounds)
    (hcnt : k.lenbad = false ∧ k.rdgot.toNat + k.rdrem.toNat = k.nacc.toNat ∧
      k.consumed.toNat = 2 + k.lcnt.toNat + k.rdgot.toNat ∧ k.bsel = decide (k.rdgot.toNat % 2 = 1) ∧
      k.ssel = decide (k.rdgot.toNat / 2 % 2 = 1) ∧ k.runrem.toNat ≤ k.cnt.toNat ∧
      (k.runrem ≠ 0 → k.bsel = false ∧ k.ssel = false))
    (haux : 1 ≤ k.lcnt.toNat ∧ k.pixcnt.toNat + k.runrem.toNat ≤ 65535 * (k.rdgot.toNat / 4)) : k.Inv := by
  obtain ⟨herr, hesub, hexp, hact⟩ := he
  obtain ⟨hl, hn, hx, hc⟩ := hb
  constructor
  case payload => exact fun _ => hcnt
  case payloadAux => exact fun _ => haux
  case consumedBound => exact hc
  all_goals simp [*]

theorem Block.inv_of_done (hp : k.phase = .done) (he : k.NoError) (hb : k.InBounds)
    (hend : k.rdrem = 0 ∧ k.runrem = 0 ∧ k.bsel = false ∧ k.ssel = false ∧ k.nacc.toNat % 4 = 0 ∧
      k.consumed.toNat = 2 + k.lcnt.toNat + k.nacc.toNat) : k.Inv := by
  obtain ⟨herr, hesub, hexp, hact⟩ := he
  obtain ⟨hl, hn, hx, hc⟩ := hb
  constructor
  case done => exact fun _ => ⟨herr, hesub, hend⟩
  case consumedBound => exact hc
  all_goals simp [*]

/-! ### The bytes consumed -/

/-- A block whose read is not finished has room for one more byte in `consumed` (R36). -/
theorem Block.Inv.consumed_lt (h : k.Inv) (hr : k.inReady = true) : k.consumed.toNat < 1000000010 := by
  have hn := h.naccBound
  have hl := h.lcntBound
  obtain hp | hp | ⟨hp, hrem, -⟩ := k.inReady_iff.1 hr
  · have := h.pfx hp; omega
  · have := h.length hp; omega
  · have := h.payload hp; bv_omega

theorem Block.Inv.consumed_succ (h : k.Inv) (hr : k.inReady = true) :
    (k.consumed + 1).toNat = k.consumed.toNat + 1 := by
  have := h.consumed_lt hr
  bv_omega

theorem Block.Inv.inBounds_succ (h : k.Inv) (hr : k.inReady = true) :
    ({ k with consumed := k.consumed + 1 } : Block).InBounds := by
  refine ⟨h.lcntBound, h.naccBound, h.pixcntBound, ?_⟩
  have := h.consumed_lt hr
  exact (h.consumed_succ hr).trans_le this

/-! ### The first two bytes and the length field -/

theorem Block.Inv.mark (h : k.Inv) (hp : k.phase = .pfx) (hg : k.rdgot = 0) :
    ({ k with marker := b, consumed := k.consumed + 1, rdgot := 1, rdrem := 1 } : Block).Inv := by
  have hs := h.consumed_succ (k.inReady_iff.2 (.inl hp))
  obtain ⟨-, -, hc, hl, hn, hx⟩ := h.pfx hp
  refine Block.inv_of_pfx hp (h.noError (by simp [hp])) ⟨le_rfl, rfl, ?_, hl, hn, hx⟩ (h.pfxAux hp)
  simp [hc, hg]

theorem Block.Inv.countDigit (h : k.Inv) (hp : k.phase = .pfx) (hg : k.rdgot = 1) : (k.countDigit b).Inv := by
  have hr := k.inReady_iff.2 (.inl hp)
  have hs := h.consumed_succ hr
  obtain ⟨-, hn, hx, hc⟩ := h.inBounds_succ hr
  obtain ⟨-, -, hc2, -, hn0, hx0⟩ := h.pfx hp
  obtain ⟨hrun, hbs, hss, -⟩ := h.pfxAux hp
  obtain ⟨hd, hk⟩ | ⟨-, hk⟩ := k.countDigit_cases b <;> rw [hk]
  · have hv := digitVal_toNat (isDigit_iff b |>.1 (isDigit_of_isCountDigit hd))
    rw [isCountDigit_iff] at hd
    have h1 : 1 ≤ (digitVal b).toNat := by omega
    have h9 : (digitVal b).toNat ≤ 9 := by omega
    have hw : ((digitVal b).setWidth 30).toNat = (digitVal b).toNat := by simp; omega
    refine Block.inv_of_length rfl (h.noError (by simp [hp])) ⟨h9, hn, hx, hc⟩ ⟨h1, ?_, hw ▸ h1, ?_, hx0⟩
      ⟨?_, hrun, hbs, hss⟩
    · simp [hw]
    · simp [hc2, hg]
    · exact (congrArg BitVec.toNat hn0).trans_lt Nat.one_pos
  · exact Block.inv_of_failed rfl (by simp) (by simp) (h.inBounds_succ hr)

/-- The value read so far stays below the power of ten of the bytes read (R27, R146). -/
theorem Block.accumulate_lt {g : Nat} (hn : k.nacc.toNat < 10 ^ g) (hg : g < 9) :
    (k.accumulate b).toNat < 10 ^ (g + 1) := by
  have h8 : 10 ^ g ≤ 10 ^ 8 := Nat.pow_le_pow_right (by decide) (by omega)
  rw [pow_succ]
  unfold Block.accumulate
  split
  next hd =>
    have hv := digitVal_toNat ((isDigit_iff b).1 hd)
    rw [isDigit_iff] at hd
    have hten : (10 : BitVec 30).toNat = 10 := rfl
    rw [BitVec.toNat_add, BitVec.toNat_mul, BitVec.toNat_setWidth, hten]
    omega
  · omega

theorem Block.Inv.lengthDigit (h : k.Inv) (hp : k.phase = .length) : (k.lengthDigit b).Inv := by
  have hr := k.inReady_iff.2 (.inr (.inl hp))
  have hs := h.consumed_succ hr
  have he := h.noError (by simp [hp])
  obtain ⟨-, -, hx, hc⟩ := h.inBounds_succ hr
  have hl := h.lcntBound
  obtain ⟨h1, -, hsum, hrem, hc2, hx0⟩ := h.length hp
  obtain ⟨hlt, hrun, hbs, hss⟩ := h.lengthAux hp
  have hacc := k.accumulate_lt (b := b) hlt (by omega)
  have h9 : 10 ^ (k.rdgot.toNat + 1) ≤ 10 ^ 9 := Nat.pow_le_pow_right (by decide) (by omega)
  have hn : (k.accumulate b).toNat ≤ 999999999 := by omega
  have hg : (k.rdgot + 1).toNat = k.rdgot.toNat + 1 := by bv_omega
  obtain ⟨hmore, hk⟩ | ⟨-, -, hk⟩ | ⟨hlast, hgood, -, hk⟩ := k.lengthDigit_cases b <;> rw [hk]
  · have hrem' : (k.rdrem - 1).toNat + 1 = k.rdrem.toNat ∧ 1 ≤ (k.rdrem - 1).toNat := by bv_omega
    refine Block.inv_of_length hp he ⟨hl, hn, hx, hc⟩ ⟨h1, ?_, hrem'.2, ?_, hx0⟩ ⟨?_, hrun, hbs, hss⟩ <;> dsimp only
    · omega
    · omega
    · rwa [hg]
  · exact Block.inv_of_failed rfl (by simp) (by simp) ⟨hl, hn, hx, hc⟩
  · have hone : k.rdrem.toNat = 1 := by simp [hlast]
    refine Block.inv_of_payload rfl he ⟨hl, hn, hx, hc⟩ ⟨hgood, ?_, ?_, rfl, by simp, ?_, ?_⟩ ⟨h1, ?_⟩ <;> dsimp only
    · simp
    · change _ = 2 + k.lcnt.toNat + 0
      omega
    · simp [hrun]
    · simp [hrun]
    · simp [hrun, hx0]

/-! ### The payload -/

/-- A byte of the payload moves the three byte counters together (R28, R29, R36). -/
theorem Block.Inv.takeByte_counts (h : k.Inv) (hp : k.phase = .payload) (hrem : k.rdrem ≠ 0) (hrun : k.runrem = 0) :
    (k.rdgot + 1).toNat = k.rdgot.toNat + 1 ∧ (k.rdgot + 1).toNat + (k.rdrem - 1).toNat = k.nacc.toNat ∧
      (k.consumed + 1).toNat = 2 + k.lcnt.toNat + (k.rdgot + 1).toNat := by
  have hs := h.consumed_succ (k.inReady_iff.2 (.inr (.inr ⟨hp, hrem, hrun⟩)))
  have hn := h.naccBound
  obtain ⟨-, hsum, hc, -⟩ := h.payload hp
  have hg : (k.rdgot + 1).toNat = k.rdgot.toNat + 1 := by bv_omega
  refine ⟨hg, ?_, ?_⟩
  · bv_omega
  · omega

theorem Block.Inv.lowByte (h : k.Inv) (hp : k.phase = .payload) (hrem : k.rdrem ≠ 0) (hrun : k.runrem = 0)
    (hb : k.bsel = false) : ({ k.takeByte with lobyte := b, bsel := true } : Block).Inv := by
  obtain ⟨hg, hsum, hc⟩ := h.takeByte_counts hp hrem hrun
  obtain ⟨hlen, -, -, hbs, hss, -, -⟩ := h.payload hp
  obtain ⟨h1, hpix⟩ := h.payloadAux hp
  have heven : k.rdgot.toNat % 2 = 0 := by simpa [hb] using hbs
  refine Block.inv_of_payload hp (h.noError (by simp [hp]))
    (h.inBounds_succ (k.inReady_iff.2 (.inr (.inr ⟨hp, hrem, hrun⟩)))) ⟨hlen, hsum, hc, ?_, ?_, ?_, ?_⟩ ⟨h1, ?_⟩ <;>
    simp only [Block.takeByte_rdgot, Block.takeByte_ssel, Block.takeByte_runrem, Block.takeByte_cnt,
      Block.takeByte_pixcnt, hg]
  · simp; omega
  · rw [hss]; congr 2; omega
  · simp [hrun]
  · simp [hrun]
  · omega

theorem Block.Inv.highByte (h : k.Inv) (hp : k.phase = .payload) (hrem : k.rdrem ≠ 0) (hrun : k.runrem = 0)
    (hb : k.bsel = true) : (k.highByte b).Inv := by
  obtain ⟨hg, hsum, hc⟩ := h.takeByte_counts hp hrem hrun
  obtain ⟨hlen, -, -, hbs, hss, -, -⟩ := h.payload hp
  obtain ⟨h1, hpix⟩ := h.payloadAux hp
  have he := h.noError (by simp [hp])
  have hbd := h.inBounds_succ (k.inReady_iff.2 (.inr (.inr ⟨hp, hrem, hrun⟩)))
  have hodd : k.rdgot.toNat % 2 = 1 := by simpa [hb] using hbs
  have hbs' : false = decide ((k.rdgot + 1).toNat % 2 = 1) := by simp; omega
  have hrun0 : k.runrem.toNat = 0 := by simp [hrun]
  obtain ⟨hs, hk⟩ | ⟨hs, hk⟩ := k.highByte_cases b <;> rw [hk]
  · have hs : k.rdgot.toNat / 2 % 2 = 0 := by simpa [hs] using hss
    refine Block.inv_of_payload hp he hbd ⟨hlen, hsum, hc, hbs', ?_, ?_, ?_⟩ ⟨h1, ?_⟩ <;> dsimp only [Block.takeByte]
    · simp; omega
    · omega
    · exact fun h => absurd hrun h
    · omega
  · have hs : k.rdgot.toNat / 2 % 2 = 1 := by simpa [hs] using hss
    have hcnt := k.cnt.isLt
    refine Block.inv_of_payload hp he hbd ⟨hlen, hsum, hc, hbs', ?_, le_rfl, fun _ => ⟨rfl, rfl⟩⟩ ⟨h1, ?_⟩ <;>
      dsimp only [Block.takeByte]
    · simp; omega
    · omega

/-- The pixels a payload has emitted and still owes stay within the bound of R35. -/
theorem Block.Inv.pixels_le (h : k.Inv) (hp : k.phase = .payload) :
    k.pixcnt.toNat + k.runrem.toNat ≤ 249999999 * 65535 := by
  have hn := h.naccBound
  obtain ⟨-, hpix⟩ := h.payloadAux hp
  obtain ⟨-, hsum, -⟩ := h.payload hp
  omega

/-- One pixel passes from the owed to the emitted (R176). -/
theorem Block.Inv.pixelGone_counts (h : k.Inv) (hp : k.phase = .payload) (hrun : k.runrem ≠ 0) :
    (k.pixcnt + 1).toNat = k.pixcnt.toNat + 1 ∧ (k.runrem - 1).toNat + 1 = k.runrem.toNat := by
  have := h.pixels_le hp
  constructor <;> bv_omega

theorem Block.Inv.pixelGone (h : k.Inv) (hp : k.phase = .payload) (hrun : k.runrem ≠ 0) : k.pixelGone.Inv := by
  obtain ⟨hpx, hrr⟩ := h.pixelGone_counts hp hrun
  have hle := h.pixels_le hp
  obtain ⟨hlen, hsum, hc, hbs, hss, hcnt, hsel⟩ := h.payload hp
  obtain ⟨h1, hpix⟩ := h.payloadAux hp
  refine Block.inv_of_payload hp (h.noError (by simp [hp])) ⟨h.lcntBound, h.naccBound, ?_, h.consumedBound⟩
    ⟨hlen, hsum, hc, hbs, hss, ?_, fun _ => hsel hrun⟩ ⟨h1, ?_⟩ <;>
    simp only [Block.pixelGone_pixcnt, Block.pixelGone_runrem, Block.pixelGone_cnt, Block.pixelGone_rdgot] <;> omega

/-! ### The ends -/

theorem Block.Inv.timeOut (h : k.Inv) (hb : k.busy = true) : k.timeOut.Inv := by
  refine Block.inv_of_failed rfl ?_ ?_ h.inBounds
  · rw [Block.timeOut, Block.fail_err]
    split <;> simp
  · obtain hp | hp | hp := k.busy_iff.1 hb <;> simp [Block.timeOut, tmoSub, hp]

theorem Block.Inv.finish (h : k.Inv) (hp : k.phase = .payload) (hrem : k.rdrem = 0) (hrun : k.runrem = 0) :
    k.finish.Inv := by
  obtain ⟨-, hk⟩ | ⟨-, -, hk⟩ | ⟨hb, hs, hk⟩ := k.finish_cases <;> rw [hk]
  · exact Block.inv_of_failed rfl (by simp) (by simp) h.inBounds
  · exact Block.inv_of_failed rfl (by simp) (by simp) h.inBounds
  · obtain ⟨herr, hesub, hexp, hact⟩ := h.noError (by simp [hp])
    obtain ⟨-, hsum, hc, hbs, hss, -, -⟩ := h.payload hp
    have hgot : k.rdgot.toNat = k.nacc.toNat := by simpa [hrem] using hsum
    have h2 : k.rdgot.toNat % 2 = 0 := by simpa [hb] using hbs
    have h4 : k.rdgot.toNat / 2 % 2 = 0 := by simpa [hs] using hss
    have hfour : k.nacc.toNat % 4 = 0 := by omega
    rw [hgot] at hc
    exact Block.inv_of_done rfl (h.noError (by simp [hp])) h.inBounds ⟨hrem, hrun, hb, hs, hfour, hc⟩

/-- Reset leaves the block good (R51 item 1, R52). -/
theorem Block.reset_inv : Block.reset.Inv := by constructor <;> decide

/-- `START` leaves the block good (R51 item 2). -/
theorem Block.armed_inv : Block.armed.Inv := by constructor <;> decide

/-- Every operation of the block that is a step of its own keeps a good block good (R51); RL.CNT and RL.COD are parts of
`RX.PHI` (R100). -/
theorem Block.Inv.blockMove {i : Instr} {f : Block → Block} (h : k.Inv) (hf : blockMove i = some f)
    (he : k.sel.enables i = true) (hparts : Laws.eventOf i ≠ .sampleDone) : (f k).Inv := by
  cases i with
  | rxMark b => cases hf; obtain ⟨hp, hg⟩ := (k.enables_rxMark b).1 he; exact h.mark hp hg
  | rxLcnt b => cases hf; obtain ⟨hp, hg⟩ := (k.enables_rxLcnt b).1 he; exact h.countDigit hp hg
  | rxLdig b => cases hf; exact h.lengthDigit ((k.enables_rxLdig b).1 he)
  | rxPlo b => cases hf; obtain ⟨hp, hrem, hrun, hb⟩ := (k.enables_rxPlo b).1 he; exact h.lowByte hp hrem hrun hb
  | rxPhi b => cases hf; obtain ⟨hp, hrem, hrun, hb⟩ := (k.enables_rxPhi b).1 he; exact h.highByte hp hrem hrun hb
  | rxTmo => cases hf; exact h.timeOut (blockMove_busy (i := .rxTmo) rfl he)
  | fin => cases hf; obtain ⟨hp, hrem, hrun⟩ := k.enables_fin.1 he; exact h.finish hp hrem hrun
  | rlCnt _ | rlCod _ => exact absurd rfl hparts
  | rlEmit => cases hf; obtain ⟨hp, hrun⟩ := k.enables_rlEmit.1 he; exact h.pixelGone hp hrun
  | _ => simp [Machine.blockMove] at hf

end

end Sys2Proof.Machine
end

-- ==== The invariants of the whole state ====
section
/-! SUPPORT. Every operation that is a step of its own keeps `State.Inv`: the block's operations by way of the block,
the host's by way of the stage they leave the capture at. -/

namespace Sys2Proof.Machine

section
variable {s t : State} {i : Instr} {f : Block → Block}

/-- The invariants say nothing of the stream, the unpacker's result, the turns to come, the bytes sent and the last
register read. -/
theorem State.Inv.withRest (h : s.Inv) (src : Source) (rgb : Beat) (turns : List Turn) (sent : List Byte)
    (rdata : RegWord) : State.Inv { s with
      src := src, rgb := rgb, turns := turns, host := { s.host with sent := sent, rdata := rdata } } :=
  ⟨h.blk, h.rstHeld, h.report, h.identity, h.queried, h.ready, h.result, h.beats, h.image⟩

/-! ### The block moves -/

/-- A move of a busy block keeps a good state good if it keeps the block good and counts its beats: the host waits in
`H.RUN` or is outside a capture, and reset is released. -/
theorem State.Inv.moveBusy (h : s.Inv) (hbusy : s.blk.busy = true) (hblk : t.blk.Inv) (hhost : t.host = s.host)
    (hrst : t.rst = s.rst)
    (hbeats : s.sink.beats.length = s.blk.pixcnt.toNat → t.sink.beats.length = t.blk.pixcnt.toNat) : t.Inv := by
  have hready : ¬ (s.host.stage = .awaitingIdentity ∨ s.host.stage = .identified ∨ s.host.stage = .checked) :=
    fun hst => by simp [h.ready hst] at hbusy
  have hresult : s.host.stage ≠ .captured := fun hst => by simp [Block.busy_iff, h.result hst] at hbusy
  have hidle : s.blk.phase ≠ .idle := fun hp => by simp [Block.busy_iff, hp] at hbusy
  have hrst' : s.rst ≠ true := fun hr => hidle (by rw [h.rstHeld hr]; rfl)
  exact ⟨hblk, fun hr => absurd (hrst ▸ hr) hrst', hhost ▸ h.report, hhost ▸ h.identity, hhost ▸ h.queried,
    fun hst => absurd (hhost ▸ hst) hready, fun hst => absurd (hhost ▸ hst) hresult,
    fun hst _ => hbeats (h.beats (hhost ▸ hst) hidle), fun hst => absurd (.inr (.inr (hhost ▸ hst))) hready⟩

/-- Each operation of the block that is a step of its own. -/
theorem State.Inv.exec_blockMove (h : s.Inv) (hf : blockMove i = some f) (he : exec i s = .next t)
    (hparts : Laws.eventOf i ≠ .sampleDone) : t.Inv := by
  obtain ⟨hen, hblk, hhost, hrst, -, hbeats⟩ := exec_blockMove_frame hf he
  refine h.moveBusy (blockMove_busy hf hen) (hblk ▸ h.blk.blockMove hf hen hparts) hhost hrst fun hlen => ?_
  rw [hblk]
  obtain ⟨hb, hpx⟩ | ⟨hb, rfl, hpx⟩ := hbeats
  · rw [hb, hpx, hlen]
  · obtain ⟨hp, hrun⟩ := s.blk.enables_rlEmit.1 hen
    rw [hb, hpx, Block.pixelGone_pixcnt, (h.blk.pixelGone_counts hp hrun).1, List.length_append, hlen]
    rfl

/-! ### `START` and reset -/

/-- What an acting `START` makes of the stage: nothing is gained by it, and the capture waits for the block or is no
capture in progress. -/
theorem HostSide.started_stage (h : HostSide) (was : Phase) :
    ((h.started was).stage = .failed ↔ h.stage = .failed) ∧
    ((h.started was).stage.pastIdentity = true → h.stage.pastIdentity = true) ∧
    ((h.started was).stage.pastRun = true → h.stage.pastRun = true) ∧
    (h.started was).stage ≠ .awaitingIdentity ∧ (h.started was).stage ≠ .identified ∧
    (h.started was).stage ≠ .captured ∧ (h.started was).stage ≠ .checked := by
  rw [HostSide.started_eq]
  cases hst : h.stage <;> by_cases hw : was = .idle <;> simp [hw, HostStage.pastIdentity, HostStage.pastRun]

/-- What a reset makes of the stage: nothing is gained by it, and no capture holds a result. -/
theorem HostSide.abandon_stage (h : HostSide) :
    (h.abandon.stage = .failed ↔ h.stage = .failed) ∧
    (h.abandon.stage.pastIdentity = true → h.stage.pastIdentity = true) ∧
    (h.abandon.stage.pastRun = true → h.stage.pastRun = true) ∧
    (h.abandon.stage = .checked → h.stage = .checked) ∧ h.abandon.stage ≠ .captured := by
  rw [HostSide.abandon_eq]
  cases hst : h.stage <;> simp [HostStage.pastIdentity, HostStage.pastRun]

/-- A good state in which an acting `START` arms the block and drops the beats (R121, R283). -/
theorem State.Inv.started (h : s.Inv) (hrst : s.rst = false) : State.Inv { s with
    blk := Block.armed, sink := ⟨[], s.sink.committed⟩, host := s.host.started s.blk.phase } := by
  obtain ⟨hfail, hid, hrun, hwait, hready, hcap, hchk⟩ := s.host.started_stage s.blk.phase
  have hrest : s.host.started s.blk.phase = { s.host with stage := (s.host.started s.blk.phase).stage } := by
    simp [HostSide.started_eq]
  rw [hrest]
  generalize (s.host.started s.blk.phase).stage = st at *
  exact ⟨Block.armed_inv, fun hr => absurd (hrst.symm.trans hr) (by simp), hfail.trans h.report,
    fun hst => h.identity (hid hst), fun hst => h.queried (hrun hst),
    fun hst => (hst.elim hwait (·.elim hready hchk)).elim, fun hst => absurd hst hcap, fun _ _ => rfl,
    fun hst => absurd hst hchk⟩

theorem State.Inv.writeReg (h : s.Inv) (n : Nat) (v : RegWord) : (s.writeReg n v).Inv := by
  obtain hw | ⟨hw, -, -, hrst, -⟩ := s.writeReg_cases n v <;> rw [hw]
  · exact h
  · exact h.started hrst

/-- Reset, at either level of its input, leaves a good state (R270). -/
theorem State.Inv.reset (h : s.Inv) (level : Bool) : State.Inv { s with
    blk := Block.reset, host := s.host.abandon, rst := level } := by
  obtain ⟨hfail, hid, hrun, hchk, hcap⟩ := s.host.abandon_stage
  have hrest : s.host.abandon = { s.host with stage := s.host.abandon.stage } := by
    simp [HostSide.abandon_eq]
  rw [hrest]
  generalize s.host.abandon.stage = st at *
  exact ⟨Block.reset_inv, fun _ => rfl, hfail.trans h.report, fun hst => h.identity (hid hst),
    fun hst => h.queried (hrun hst), fun _ => rfl, fun hst => absurd hst hcap, fun _ hp => absurd rfl hp,
    fun hst => h.image (hchk hst)⟩

/-! ### The host's steps -/

/-- A capture the host fails is reported and holds no beats (R225, R283), wherever it stood. -/
theorem State.Inv.hostFail (h : s.Inv) (r : Report) (src : Source) (line sent : List Byte) : State.Inv { s with
    src := src, sink := ⟨[], s.sink.committed⟩
    host := { s.host with line := line, sent := sent, stage := .failed, report := some r } } := by
  refine ⟨h.blk, h.rstHeld, ?_, ?_, ?_, ?_, ?_, ?_, ?_⟩ <;> simp [HostStage.pastIdentity, HostStage.pastRun]

/-- A host whose capture has not failed has nothing to report. -/
theorem State.Inv.report_none (h : s.Inv) (hst : s.host.stage ≠ .failed) : s.host.report = none :=
  Option.not_isSome_iff_eq_none.1 fun hr => hst (h.report.2 hr)

/-- A new capture begins with the block at rest (R220, R281). -/
theorem State.Inv.begin (h : s.Inv) (hb : s.blk.busy = false) : State.Inv { s with host := s.host.begin } := by
  refine ⟨h.blk, h.rstHeld, ?_, ?_, ?_, fun _ => hb, ?_, ?_, ?_⟩ <;> simp [HostStage.pastIdentity, HostStage.pastRun]

/-- The read of the identity line (R222) ends in a matching line, a failed capture, or goes on. -/
theorem State.Inv.readIdentity (h : s.Inv) (hst : s.host.stage = .awaitingIdentity) : s.readIdentity.Inv := by
  have hrep := h.report_none (by simp [hst])
  have hb := h.ready (.inl hst)
  obtain ⟨line, rest, k, -, -, hm, hs⟩ | ⟨line, rest, k, -, -, -, hs⟩ | ⟨line, rest, k, -, -, hs⟩ | ⟨line, -, hs⟩ :=
    s.readIdentity_cases <;> rw [hs]
  · refine ⟨h.blk, h.rstHeld, ?_, fun _ => hm, ?_, fun _ => hb, ?_, ?_, ?_⟩ <;> simp [HostStage.pastRun, hrep]
  · exact h.hostFail _ _ line _
  · exact h.hostFail _ _ line _
  · refine ⟨h.blk, h.rstHeld, h.report, ?_, h.queried, h.ready, h.result, h.beats, h.image⟩
    simp [hst, HostStage.pastIdentity]

/-- A command write (R221) keeps a good state good if what follows an accepted one does. -/
theorem State.Inv.sendCommand (h : s.Inv) {cmd : List Byte} {after : State → State}
    (hafter : ∀ u : State, u.Inv → u.host.stage = s.host.stage → (after u).Inv) : (s.sendCommand cmd after).Inv := by
  obtain ⟨-, hs⟩ | ⟨k, cs, -, hs⟩ := s.sendCommand_cases cmd after <;> rw [hs]
  · exact hafter _ (h.withRest _ _ _ _ _) rfl
  · exact h.hostFail _ _ _ _

theorem State.Inv.query (h : s.Inv) : State.Inv { s with host := { s.host with queried := true } } :=
  ⟨h.blk, h.rstHeld, h.report, h.identity, fun _ => rfl, h.ready, h.result, h.beats, h.image⟩

/-- The first part of `H.RUN` (R224): the block is armed, or the write is lost to a held reset. -/
theorem State.Inv.beginRun (h : s.Inv) (hst : s.host.stage = .identified) : s.beginRun.Inv := by
  have hrep := h.report_none (by simp [hst])
  have hid : identityMatches s.host.params s.host.line = true := h.identity (by simp [hst, HostStage.pastIdentity])
  obtain ⟨hs, hlost⟩ | ⟨hs, -, hrst⟩ := s.beginRun_cases <;> rw [hs]
  · have hrst : s.rst = true := hlost.resolve_left (by simp [h.ready (.inr (.inl hst))])
    have hidle : s.blk.phase = .idle := by rw [h.rstHeld hrst]; rfl
    refine ⟨h.blk, h.rstHeld, ?_, fun _ => hid, ?_, ?_, ?_, fun _ hp => absurd hidle hp, ?_⟩ <;>
      simp [HostStage.pastRun, hrep]
  · refine ⟨Block.armed_inv, ?_, ?_, fun _ => hid, ?_, ?_, ?_, fun _ _ => rfl, ?_⟩ <;>
      simp [HostStage.pastRun, hrep, hrst]

/-- A look at `STATUS` inside `H.RUN` (R224). -/
theorem State.Inv.pollBlock (h : s.Inv) (hst : s.host.stage = .awaitingBlock) : s.pollBlock.Inv := by
  obtain ⟨hp, hq, hs⟩ | ⟨-, -, hs⟩ | ⟨-, hs⟩ | ⟨-, -, hs⟩ := s.pollBlock_cases <;> rw [hs]
  · refine ⟨h.blk, h.rstHeld, ?_, fun _ => h.identity ?_, fun _ => hq, ?_, fun _ => hp,
      fun _ => h.beats (.inl hst), ?_⟩ <;> simp [hst, HostStage.pastIdentity, h.report_none]
  · exact h
  · exact h.hostFail _ _ _ _
  · exact h

/-- A passed dimension check (R226): the beats of the capture are as many as declared. -/
theorem State.Inv.checked (h : s.Inv) (hst : s.host.stage = .captured)
    (hpx : s.blk.pixcnt.toNat = s.host.params.width * s.host.params.height) :
    State.Inv { s with host := { s.host with stage := .checked } } := by
  have hdone := h.result hst
  have hlen := h.beats (.inr hst) (by simp [hdone])
  refine ⟨h.blk, h.rstHeld, ?_, fun _ => h.identity ?_, fun _ => h.queried ?_, fun _ => ?_, ?_, ?_,
    fun _ => hlen.trans hpx⟩ <;>
    simp [hst, HostStage.pastIdentity, HostStage.pastRun, h.report_none, Block.not_busy_iff, hdone]

/-- The image is handed over and the capture done (R227). -/
theorem State.Inv.committed (h : s.Inv) (hst : s.host.stage = .checked) (images : List Image) :
    State.Inv { s with sink := ⟨[], images⟩, host := { s.host with stage := .done } } := by
  refine ⟨h.blk, h.rstHeld, ?_, fun _ => h.identity ?_, fun _ => h.queried ?_, ?_, ?_, ?_, ?_⟩ <;>
    simp [hst, HostStage.pastIdentity, HostStage.pastRun, h.report_none]

/-! ### Every operation -/

/-- Every completed operation but the two parts of `RX.PHI` keeps a good state good. -/
theorem State.Inv.exec (h : s.Inv) (he : exec i s = .next t) (hparts : Laws.eventOf i ≠ .sampleDone) :
    t.Inv := by
  cases i with
  | rxMark _ | rxLcnt _ | rxLdig _ | rxPlo _ | rxPhi _ | rxTmo | fin | rlCnt _ | rlCod _ | rlEmit =>
    exact h.exec_blockMove rfl he hparts
  | start => cases he; exact h.writeReg 0 1
  | wrreg n v => cases he; exact h.writeReg n v
  | rdreg n => cases he; exact h.withRest _ _ _ _ _
  | ccRgb c => cases he; exact h.withRest _ _ _ _ _
  | reset => cases he; exact h.reset _
  | hIdn =>
    obtain ⟨hb, ⟨-, rfl⟩ | ⟨hst, rfl⟩⟩ := exec_hIdn_cases he
    · exact (h.begin hb).sendCommand fun u hu hst => hu.readIdentity hst
    · exact h.readIdentity hst
  | hQuery =>
    obtain ⟨-, -, rfl⟩ := exec_hQuery_cases he
    exact h.sendCommand fun u hu _ => hu.query
  | hRun =>
    obtain ⟨hst, rfl⟩ | ⟨hst, rfl⟩ := exec_hRun_cases he
    · exact h.beginRun hst
    · exact h.pollBlock hst
  | hDim =>
    obtain ⟨hst, ⟨r, rfl⟩ | ⟨hpx, rfl⟩⟩ := exec_hDim_cases he
    · exact h.hostFail _ _ _ _
    · exact h.checked hst hpx
  | hCommit =>
    obtain ⟨hst, rfl⟩ := exec_hCommit_cases he
    exact h.committed hst _

/-- Lowering the reset input leaves a good state (R270). -/
theorem State.Inv.lowerReset (h : s.Inv) {level : Bool} (hl : level = s.rst ∨ level = false) :
    State.Inv { s with rst := level } := by
  obtain rfl | rfl := hl
  · exact h
  · exact ⟨h.blk, fun hr => absurd hr (by simp), h.report, h.identity, h.queried, h.ready, h.result, h.beats, h.image⟩

/-- No step is `RL.CNT` or `RL.COD` alone (R100): no turn of the host puts a completed sample at a port. -/
theorem hostWire_event_ne_sampleDone (m : HostMove) : Laws.wireEvent (hostWire m) ≠ .sampleDone := by
  cases m <;> simp [hostWire, Laws.wireEvent]

end

/-! ### Every step -/

/-- Settles O37: a step is an operation other than the parts of `RX.PHI` (`State.Inv.exec`), or it passes; reset, which
runs with its level already raised, is good at either level (`State.Inv.reset`). -/
theorem everyStepKeepsTheInvariants : Obligations.EveryStepKeepsTheInvariants := by
  intro s t h hstep
  obtain ⟨p, i, ms, r, hd, -, hr, -, hport, he⟩ | ⟨ms, r, -, hr, rfl⟩ := step_shape hstep
  · by_cases hi : i = .reset
    · subst hi
      cases he
      exact (h.withRest _ _ _ _ _).reset r
    · obtain rfl : r = s.rst := hr.resolve_right fun hr => hi hr.2
      have hparts : Laws.eventOf i ≠ .sampleDone := by
        obtain ⟨m, -, rfl⟩ | ⟨rfl, -⟩ | rfl | rfl | rfl | ⟨b, rfl⟩ := hport
        · exact Laws.decode_event hd ▸ hostWire_event_ne_sampleDone m
        · exact absurd rfl hi
        · exact nofun
        · exact nofun
        · exact nofun
        · exact Laws.decode_event hd ▸ nofun
      exact State.Inv.exec (h.withRest _ _ _ _ _) he hparts
  · exact (h.lowerReset hr).withRest _ _ _ _ _

/-- Settles O38: the block by `Block.reset_inv`, and the host is outside every capture. -/
theorem resetStateIsGood : Obligations.ResetStateIsGood := by
  refine ⟨Block.reset_inv, fun _ => rfl, ?_, ?_, ?_, fun _ => rfl, ?_, ?_, ?_⟩ <;>
    simp [State.reset, HostStage.pastIdentity, HostStage.pastRun]

end Sys2Proof.Machine
end

-- ==== What the block records and emits ====
section
/-! SUPPORT. The statements that follow from what an operation does to the block: the error fields, the pixels owed,
the output, and the values after reset. -/

namespace Sys2Proof.Machine

/-! ### The codes and reset -/

/-- Settles O11: the three tables by evaluation, the way back by `kindOfCode_errCode`. -/
theorem codesOfPhasesKindsAndSubcauses : Obligations.CodesOfPhasesKindsAndSubcauses :=
  ⟨rfl, rfl, rfl, kindOfCode_errCode⟩

/-- Every host register of the reset block reads 0 (R52). -/
theorem Block.readReg_reset (n : Nat) : Block.reset.readReg n = 0 := by
  obtain hn | hn : n ≤ 8 ∨ 8 < n := by omega
  · interval_cases n <;> decide
  · obtain ⟨m, rfl⟩ : ∃ m, n = m + 9 := ⟨n - 9, by omega⟩
    rfl

/-- Settles O26: the fields are those of `Block.reset`, and `Block.readReg_reset` reads the registers. -/
theorem resetLeavesEverythingZero : Obligations.ResetLeavesEverythingZero :=
  ⟨rfl, Block.readReg_reset, rfl, rfl, rfl, rfl, rfl⟩

/-! ### The error fields -/

section
variable {i : Instr} {f : Block → Block}

/-- A move of the block leaves both error fields, or is one of the four that can fail and has failed (R243, R248). -/
theorem blockMove_error (hf : blockMove i = some f) (k : Block) :
    ((f k).err = k.err ∧ (f k).esub = k.esub) ∨
    ((f k).phase = .failed ∧ ((∃ b, i = .rxLcnt b) ∨ (∃ b, i = .rxLdig b) ∨ i = .rxTmo ∨ i = .fin)) := by
  cases i with
  | rxLcnt b =>
    cases hf
    obtain ⟨-, h⟩ | ⟨-, h⟩ := k.countDigit_cases b
    · exact .inl (by simp [h])
    · exact .inr (by simp [h])
  | rxLdig b =>
    cases hf
    obtain ⟨-, h⟩ | ⟨-, -, h⟩ | ⟨-, -, -, h⟩ := k.lengthDigit_cases b
    · exact .inl (by simp [h])
    · exact .inr (by simp [h])
    · exact .inl (by simp [h])
  | rxTmo => cases hf; exact .inr ⟨rfl, .inr (.inr (.inl rfl))⟩
  | fin =>
    cases hf
    obtain ⟨-, h⟩ | ⟨-, -, h⟩ | ⟨-, -, h⟩ := k.finish_cases
    · exact .inr (by simp [h])
    · exact .inr (by simp [h])
    · exact .inl (by simp [h])
  | rxPhi b =>
    cases hf
    obtain ⟨-, h⟩ | ⟨-, h⟩ := k.highByte_cases b <;> exact .inl (by simp [h])
  | rxMark _ | rxPlo _ | rlCnt _ | rlCod _ | rlEmit => cases hf; exact .inl ⟨rfl, rfl⟩
  | _ => simp [blockMove] at hf

end

/-- Settles O43: of the four ways an operation can change the block, only a failing move, `START` and reset write the
error fields. -/
theorem errorsAreLatchedOnlyByFailures : Obligations.ErrorsAreLatchedOnlyByFailures := by
  intro i s t h hne
  cases exec_blockChange h with
  | move hf _ hk =>
    obtain ⟨herr, hesub⟩ | hfailed := blockMove_error hf s.blk
    · exact absurd (by rw [hk, herr, hesub]) hne
    · exact .inl (hk ▸ hfailed)
  | start hi _ hk => exact .inr (.inr ⟨hi, hk⟩)
  | reset hi hk => exact .inr (.inl ⟨hi, hk⟩)
  | kept _ hk => exact absurd (by rw [hk]) hne

/-! ### The pixels owed -/

/-- The pixels emitted and still owed (R51 item 8, R177). -/
def Block.owed (k : Block) : Nat := k.pixcnt.toNat + k.runrem.toNat

/-- The operations that complete a sample, which is a colour code where `ssel` says so (R149, R151, R175). -/
def CompletesSample (i : Instr) : Prop := (∃ b, i = .rxPhi b) ∨ ∃ smp, i = .rlCod smp

section
variable {i : Instr} {f : Block → Block} {k : Block}

/-- A colour code owes the pixels of its pair's count (R175). -/
theorem blockMove_owed_code (hf : blockMove i = some f) (he : k.sel.enables i = true) (hs : k.ssel = true)
    (hi : CompletesSample i) : (f k).owed = k.owed + k.cnt.toNat := by
  have hrun : k.runrem = 0 := by
    obtain ⟨b, rfl⟩ | ⟨smp, rfl⟩ := hi
    · obtain ⟨-, -, hrun, -⟩ := (k.enables_rxPhi b).1 he; exact hrun
    · obtain ⟨-, hrun, -⟩ := (k.enables_rlCod smp).1 he; exact hrun
  have hf' : (f k).owed = k.pixcnt.toNat + k.cnt.toNat := by
    obtain ⟨b, rfl⟩ | ⟨smp, rfl⟩ := hi <;> cases hf
    · obtain ⟨hs', -⟩ | ⟨-, hk⟩ := k.highByte_cases b
      · simp [hs] at hs'
      · simp [hk, Block.owed]
    · rfl
  rw [hf', Block.owed, hrun]
  rfl

/-- Every other move of the payload leaves the pixels owed: `RL.EMIT` passes one from the owed to the emitted. -/
theorem blockMove_owed_other (h : k.Inv) (hp : k.phase = .payload) (hf : blockMove i = some f)
    (he : k.sel.enables i = true) (hi : k.ssel = false ∨ ¬ CompletesSample i) : (f k).owed = k.owed := by
  cases i with
  | rxMark b => exact absurd (hp.symm.trans ((k.enables_rxMark b).1 he).1) (by decide)
  | rxLcnt b => exact absurd (hp.symm.trans ((k.enables_rxLcnt b).1 he).1) (by decide)
  | rxLdig b => exact absurd (hp.symm.trans ((k.enables_rxLdig b).1 he)) (by decide)
  | rxPhi b =>
    cases hf
    have hs : k.ssel = false := hi.resolve_right (not_not.2 (.inl ⟨b, rfl⟩))
    obtain ⟨-, hk⟩ | ⟨hs', -⟩ := k.highByte_cases b
    · simp [hk, Block.owed]
    · simp [hs] at hs'
  | rlCod smp =>
    have hs : k.ssel = false := hi.resolve_right (not_not.2 (.inr ⟨smp, rfl⟩))
    simp [((k.enables_rlCod smp).1 he).2.2] at hs
  | fin => cases hf; obtain ⟨-, hk⟩ | ⟨-, -, hk⟩ | ⟨-, -, hk⟩ := k.finish_cases <;> rw [hk] <;> rfl
  | rlEmit =>
    cases hf
    obtain ⟨hpx, hrr⟩ := h.pixelGone_counts hp (k.enables_rlEmit.1 he).2
    simp only [Block.owed, Block.pixelGone_pixcnt, Block.pixelGone_runrem]
    omega
  | rxPlo _ | rxTmo | rlCnt _ => cases hf; rfl
  | _ => simp [blockMove] at hf

end

/-- Settles O40: in the payload the block moves by its own operations or not at all; `START` is ignored while busy. -/
theorem pairCountsAddUp : Obligations.PairCountsAddUp := by
  intro i s t hinv hp h hi
  cases exec_blockChange h with
  | move hf he hk =>
    rw [hk]
    exact ⟨fun hs hc => blockMove_owed_code hf he hs hc, fun hc => blockMove_owed_other hinv hp hf he hc⟩
  | start _ hb _ => simp [Block.busy, hp] at hb
  | reset hr _ => exact absurd hr hi
  | kept hf hk =>
    rw [hk]
    refine ⟨?_, fun _ => rfl⟩
    rintro - (⟨b, rfl⟩ | ⟨smp, rfl⟩) <;> cases hf

/-! ### The output -/

/-- Settles O46: a turn that is not the host's passes, resets the block, or fires a move of the block, and of those only
`RL.EMIT` reaches the sink. -/
theorem outputIsAppendOnly : Obligations.OutputIsAppendOnly := by
  intro s t hhost hstep
  obtain ⟨p, i, ms, r, hd, -, -, -, hport, he⟩ | ⟨ms, r, -, -, rfl⟩ := step_shape hstep
  · obtain rfl | ⟨f, hf⟩ : i = .reset ∨ ∃ f, blockMove i = some f := by
      obtain ⟨m, hm, -⟩ | ⟨rfl, -⟩ | rfl | rfl | rfl | ⟨b, rfl⟩ := hport
      · exact absurd hm (hhost m)
      · exact .inl rfl
      · exact .inr ⟨_, rfl⟩
      · exact .inr ⟨_, rfl⟩
      · exact .inr ⟨_, rfl⟩
      · obtain rfl | rfl | rfl | rfl | rfl := decode_byte_not_host hd <;> exact .inr ⟨_, rfl⟩
    · cases he; exact ⟨rfl, .inl rfl⟩
    · obtain ⟨-, hblk, -, -, hcom, hbeats⟩ := exec_blockMove_frame hf he
      refine ⟨hcom, hbeats.imp And.left ?_⟩
      rintro ⟨hb, -, hpx⟩
      rw [hblk, hpx]
      exact ⟨hb, rfl, rfl⟩
  · exact ⟨rfl, .inl rfl⟩

end Sys2Proof.Machine
end

-- ==== The stream and the block's side of a capture ====
section
/-! SUPPORT. What a step takes of the stream, what the block can do with what stands at its ports, and why the order of
the quiet turns does not matter. -/

namespace Sys2Proof.Machine

/-! ### What is at the port `IN` -/

/-- What the source's next move puts at the block's port (R60, R61). -/
def SrcMove.wire : SrcMove → Wire
  | .byte b => .inByte b
  | .timeout => .inTimeout

section
variable {k : Sel} {m : SrcMove} {ms : List SrcMove} {i : Instr} {s t u : State} {tn : Turn} {ts : List Turn} {p : Wire}

theorem State.serve_move (ht : tn = .source ∨ tn = .watchdog) (hm : s.src.moves = m :: ms) :
    s.serve tn = fire (decode s.blk.sel m.wire) (s.withMoves ms) s := by
  cases m with
  | byte b => exact State.serve_byte ht hm
  | timeout => exact State.serve_timeout ht hm

theorem State.serve_source_nil (hm : s.src.moves = []) : s.serve .source = .pass s := by
  simp only [State.serve, State.serveSource, hm]

/-- The block takes something of the stream only while `in_ready` holds (R154). -/
theorem inReady_of_decode_move (h : decode k m.wire = .op i) : k.inReady = true := by
  cases m with
  | timeout => simp only [SrcMove.wire, decode] at h; split at h <;> simp_all
  | byte b =>
    cases hp : k.phase with
    | pfx | length => simp [Sel.inReady, hp]
    | payload =>
      simp only [SrcMove.wire, decode, decodeByte, hp] at h
      split at h
      next hr => simpa [Sel.inReady, hp] using hr
      next => cases h
    | idle | done | failed => simp [SrcMove.wire, decode, decodeByte, hp] at h

theorem decode_move_reject (h : k.inReady = false) (m : SrcMove) : ∃ r, decode k m.wire = .reject r := by
  cases hd : decode k m.wire with
  | op i => simp [inReady_of_decode_move hd] at h
  | reject r => exact ⟨r, rfl⟩

/-- What takes a byte or a timeout is an operation of the block, and none that emits. -/
theorem blockMove_of_decode_move (h : decode k m.wire = .op i) : i ≠ .rlEmit ∧ ∃ f, blockMove i = some f := by
  cases m with
  | timeout => obtain rfl := (decode_port h).1 rfl; exact ⟨nofun, _, rfl⟩
  | byte b => obtain rfl | rfl | rfl | rfl | rfl := decode_byte_not_host h <;> exact ⟨nofun, _, rfl⟩

/-! ### A turn that finds no operation -/

/-- Nothing fires where the decoder rejects what the turn puts at a port. -/
theorem step_of_reject {r : DecodeReject} (ht : s.turns = tn :: ts)
    (hserve : State.serve { s with turns := ts } tn = fire (decode s.blk.sel p) u { s with turns := ts })
    (hd : decode s.blk.sel p = .reject r) : step s = .next { s with turns := ts } := by
  refine step_of_pass ?_
  rw [State.fetch_cons ht, hserve]
  exact fire_pass.2 ⟨⟨r, hd⟩, rfl⟩

/-- A turn that puts `p` at a port fires the operation the decoder has for it, or passes. -/
theorem step_fire_cases (ht : s.turns = tn :: ts)
    (hserve : State.serve { s with turns := ts } tn = fire (decode s.blk.sel p) u { s with turns := ts })
    (h : step s = .next t) :
    (∃ i, decode s.blk.sel p = .op i ∧ exec i u = .next t) ∨ t = { s with turns := ts } := by
  cases hd : decode s.blk.sel p with
  | op i => exact .inl ⟨i, rfl, step_of_fire ht hserve hd ▸ h⟩
  | reject r =>
    rw [step_of_reject ht hserve hd] at h
    exact .inr (Host.Outcome.next.inj h).symm

/-- A block that is not busy is ready for nothing (R48). -/
theorem Block.not_ready_of_not_busy {b : Block} (h : b.busy = false) :
    b.sel.inReady = false ∧ b.sel.outValid = false ∧ b.sel.finReady = false := by
  obtain hp | hp | hp := b.not_busy_iff.1 h <;> simp [Sel.inReady, Sel.outValid, Sel.finReady, hp]

end

/-- Settles O45: the block is not ready, so the decoder rejects whatever the turn puts at a port. -/
theorem idleBlockTakesNothing : Obligations.IdleBlockTakesNothing := by
  intro s tn ts hb htn
  obtain ⟨hin, hout, hfin⟩ := Block.not_ready_of_not_busy hb
  have stream : tn = .source ∨ tn = .watchdog → ∀ m ms, s.src.moves = m :: ms →
      step { s with turns := tn :: ts } = .next { s with turns := ts } := fun htn m ms hm =>
    (decode_move_reject hin m).elim fun _ hd => step_of_reject (s := { s with turns := tn :: ts }) rfl
      (State.serve_move htn hm) hd
  obtain rfl | rfl | rfl | rfl := htn
  · cases hm : s.src.moves with
    | nil => exact step_of_pass ((State.fetch_cons rfl).trans (State.serve_source_nil hm))
    | cons m ms => exact stream (.inl rfl) m ms hm
  · cases hm : s.src.moves with
    | nil =>
      obtain ⟨r, hd⟩ := decode_move_reject hin .timeout
      exact step_of_reject (s := { s with turns := .watchdog :: ts }) rfl (State.serve_watchdog_nil hm) hd
    | cons m ms => exact stream (.inr rfl) m ms hm
  · exact step_of_reject (p := .outReady) (r := .noBeat) rfl rfl (by simp [decode, hout])
  · exact step_of_reject (p := .internal) (r := .noInternalStep) rfl rfl (by simp [decode, hfin])

/-! ### What an operation takes of the stream -/

section
variable {i : Instr} {s t : State}

/-- The host's reading of a line takes the stream from its head on (R222). -/
theorem State.readIdentity_moves (s : State) : ∃ k, s.readIdentity.src.moves = s.src.moves.drop k := by
  obtain ⟨_, _, k, -, hk, -, h⟩ | ⟨_, _, k, -, hk, -, h⟩ | ⟨_, _, k, -, hk, h⟩ | ⟨_, -, h⟩ := s.readIdentity_cases
  · exact ⟨k, by rw [h, ← hk]⟩
  · exact ⟨k, by rw [h, ← hk]⟩
  · exact ⟨k, by rw [h, ← hk]⟩
  · exact ⟨s.src.moves.length, by rw [h, List.drop_length]⟩

theorem exec_hIdn_moves (h : exec .hIdn s = .next t) : ∃ k, t.src.moves = s.src.moves.drop k := by
  obtain ⟨-, ⟨-, rfl⟩ | ⟨-, rfl⟩⟩ := exec_hIdn_cases h
  · obtain ⟨-, h⟩ | ⟨_, _, -, h⟩ :=
      State.sendCommand_cases { s with host := s.host.begin } idnCommand State.readIdentity
    · rw [h]; exact State.readIdentity_moves _
    · rw [h]; exact ⟨0, rfl⟩
  · exact s.readIdentity_moves

/-- No operation but `H.IDN` reads the stream itself: what a byte operation takes is gone before it runs. -/
theorem exec_moves (hi : i ≠ .hIdn) (h : exec i s = .next t) : t.src.moves = s.src.moves := by
  cases i with
  | rxMark _ | rxLcnt _ | rxLdig _ | rxPlo _ | rxPhi _ | rxTmo | fin | rlCnt _ | rlCod _ =>
    obtain ⟨-, rfl⟩ := exec_blockMove rfl (by nofun) h
    rfl
  | rlEmit => obtain ⟨-, rfl⟩ := (exec_rlEmit s).1 h; rfl
  | start => cases h; obtain ⟨h, -⟩ | ⟨h, -⟩ := s.start_cases <;> rw [h]
  | wrreg n v => cases h; obtain h | ⟨h, -⟩ := s.writeReg_cases n v <;> rw [h]
  | rdreg _ | ccRgb _ | reset => cases h; rfl
  | hIdn => exact absurd rfl hi
  | hQuery =>
    obtain ⟨-, -, rfl⟩ := exec_hQuery_cases h
    obtain ⟨-, h⟩ | ⟨_, _, -, h⟩ := s.sendCommand_cases queryCommand _ <;> rw [h]
  | hRun =>
    obtain ⟨-, rfl⟩ | ⟨-, rfl⟩ := exec_hRun_cases h
    · obtain ⟨h, -⟩ | ⟨h, -⟩ := s.beginRun_cases <;> rw [h]
    · obtain ⟨-, -, h⟩ | ⟨-, -, h⟩ | ⟨-, h⟩ | ⟨-, -, h⟩ := s.pollBlock_cases <;> rw [h]
      rfl
  | hDim => obtain ⟨-, ⟨_, rfl⟩ | ⟨-, rfl⟩⟩ := exec_hDim_cases h <;> rfl
  | hCommit => obtain ⟨-, rfl⟩ := exec_hCommit_cases h; rfl

end

/-- Settles O44: a turn takes at most the head of the stream, and of the operations only `H.IDN`, which only its own
turn fires, takes more. -/
theorem streamIsReadInOrder : Obligations.StreamIsReadInOrder := by
  intro s t h
  have head : ∀ ms, ms = s.src.moves ∨ ms = s.src.moves.tail → ∃ k, ms = s.src.moves.drop k ∧ k ≤ 1 := by
    rintro ms (rfl | rfl)
    · exact ⟨0, rfl, by omega⟩
    · exact ⟨1, List.drop_one.symm, le_rfl⟩
  obtain ⟨_, i, ms, _, -, hms, -, hidn, -, he⟩ | ⟨ms, _, hms, -, rfl⟩ := step_shape h
  · obtain ⟨k, hk, hle⟩ := head ms hms
    by_cases hi : i = .hIdn
    · subst hi
      obtain ⟨j, hj⟩ := exec_hIdn_moves he
      exact ⟨k + j, by rw [hj, hk, List.drop_drop], fun hne => absurd (hidn rfl) hne⟩
    · exact ⟨k, (exec_moves hi he).trans hk, fun _ => hle⟩
  · obtain ⟨k, hk, hle⟩ := head ms (hms.imp_right And.left)
    exact ⟨k, hk, fun _ => hle⟩

/-! ### The block's side of a capture -/

/-- The block with the source and the sink: all that a capture left to itself works on (R71, R201). -/
structure BlockSide where
  blk : Block
  src : Source
  sink : Sink

/-- The block's side of a state; the host, the reset level and the turns to come are left out. -/
def State.blockSide (s : State) : BlockSide := ⟨s.blk, s.src, s.sink⟩

/-- The moves of a capture left to itself: a beat leaves (R176), the block ends (R152), or it takes what the source
does next (R144 to R149, R153). -/
inductive BlockSide.Move : BlockSide → BlockSide → Prop
  | emit {k : Block} {src : Source} {sink : Sink} (h : k.sel.outValid = true) :
      Move ⟨k, src, sink⟩ ⟨k.pixelGone, src, ⟨sink.beats ++ [beatOf k.runcode], sink.committed⟩⟩
  | finish {k : Block} {src : Source} {sink : Sink} (h : k.sel.finReady = true) :
      Move ⟨k, src, sink⟩ ⟨k.finish, src, sink⟩
  | take {k : Block} {m : SrcMove} {ms : List SrcMove} {cmds : List CmdOutcome} {sink : Sink} {i : Instr}
      {f : Block → Block} (h : decode k.sel m.wire = .op i) (hf : blockMove i = some f) :
      Move ⟨k, ⟨m :: ms, cmds⟩, sink⟩ ⟨f k, ⟨ms, cmds⟩, sink⟩

/-- `in_ready`, `out_valid` and the condition of `FIN` exclude one another (R48, R72, R100). -/
theorem sel_ready_exclusive (k : Sel) : (k.inReady = true → k.outValid = false ∧ k.finReady = false) ∧
    (k.outValid = true → k.finReady = false) := by
  cases hp : k.phase with
  | payload => simp +contextual [Sel.inReady, Sel.outValid, Sel.finReady, hp]
  | idle | pfx | length | done | failed => simp [Sel.outValid, Sel.finReady, hp]

/-- R72: in any state at most one of the moves is possible, and it has one outcome. -/
theorem BlockSide.move_rightUnique : Relator.RightUnique BlockSide.Move := by
  intro c c₁ c₂ h₁ h₂
  obtain ⟨hin, hout⟩ := sel_ready_exclusive c.blk.sel
  cases h₁ with
  | emit h =>
    cases h₂ with
    | emit => rfl
    | finish h' => simp [hout h] at h'
    | take h' => simp [(hin (inReady_of_decode_move h')).1] at h
  | finish h =>
    cases h₂ with
    | emit h' => simp [hout h'] at h
    | finish => rfl
    | take h' => simp [(hin (inReady_of_decode_move h')).2] at h
  | take h hf =>
    cases h₂ with
    | emit h' => simp [(hin (inReady_of_decode_move h)).1] at h'
    | finish h' => simp [(hin (inReady_of_decode_move h)).2] at h'
    | take h' hf' =>
      obtain rfl := Decoded.op.inj (h.symm.trans h')
      obtain rfl := Option.some.inj (hf.symm.trans hf')
      rfl

/-- Once the block is not busy no move is left (R78). -/
theorem BlockSide.not_move_of_not_busy {c : BlockSide} (h : c.blk.busy = false) (c' : BlockSide) : ¬ c.Move c' := by
  obtain ⟨hin, hout, hfin⟩ := Block.not_ready_of_not_busy h
  rintro (h' | h' | ⟨h', -⟩)
  · simp [hout] at h'
  · simp [hfin] at h'
  · simp [inReady_of_decode_move h'] at hin

/-! ### Quiet turns (R201) -/

section
variable {s t : State} {q : Turn} {ts : List Turn}

/-- A quiet turn makes the one move there is, or leaves the block's side alone. -/
theorem step_quiet (ht : s.turns = q :: ts) (hq : q.quiet = true) (h : step s = .next t) :
    t.turns = ts ∧ (t.blockSide = s.blockSide ∨ s.blockSide.Move t.blockSide) := by
  cases q with
  | source =>
    cases hm : s.src.moves with
    | nil =>
      rw [step_of_pass ((State.fetch_cons ht).trans (State.serve_source_nil hm))] at h
      cases h
      exact ⟨rfl, .inl rfl⟩
    | cons m ms =>
      obtain ⟨i, hd, he⟩ | rfl := step_fire_cases ht (State.serve_move (.inl rfl) hm) h
      · obtain ⟨hi, f, hf⟩ := blockMove_of_decode_move hd
        obtain ⟨-, rfl⟩ := exec_blockMove hf hi he
        have hside : s.blockSide = ⟨s.blk, ⟨m :: ms, s.src.cmds⟩, s.sink⟩ := by rw [← hm]; rfl
        exact ⟨rfl, .inr (hside ▸ .take hd hf)⟩
      · exact ⟨rfl, .inl rfl⟩
  | sink =>
    obtain ⟨i, hd, he⟩ | rfl := step_fire_cases (p := .outReady) ht rfl h
    · obtain rfl := (decode_port hd).2.2.1 rfl
      obtain ⟨hen, rfl⟩ := (exec_rlEmit _).1 he
      exact ⟨rfl, .inr (.emit hen)⟩
    · exact ⟨rfl, .inl rfl⟩
  | block =>
    obtain ⟨i, hd, he⟩ | rfl := step_fire_cases (p := .internal) ht rfl h
    · obtain rfl := (decode_port hd).2.1 rfl
      obtain ⟨hen, rfl⟩ := exec_blockMove rfl (by nofun) he
      exact ⟨rfl, .inr (.finish hen)⟩
    · exact ⟨rfl, .inl rfl⟩
  | host m =>
    cases m with
    | read n => rw [step_of_fire (p := .regRead n) ht rfl rfl] at h; cases h; exact ⟨rfl, .inl rfl⟩
    | write n v =>
      have hno : ¬ (n == 0 && v.getLsbD 0) = true := by
        simpa only [Turn.quiet, Bool.not_eq_true', Bool.not_eq_true] using hq
      have hd : decode s.blk.sel (.regWrite n v) = .op (.wrreg n v) := if_neg hno
      have hw : State.writeReg { s with turns := ts } n v = { s with turns := ts } := if_neg hno
      rw [step_of_fire ht rfl hd] at h
      cases h
      exact hw.symm ▸ ⟨rfl, .inl rfl⟩
    | idn | query | run | dim | commit => simp [Turn.quiet] at hq
  | watchdog | drain | rst _ => simp [Turn.quiet] at hq

/-- A run of a step more, that goes well, is that step and the run after it. -/
theorem run_succ_cases {M : Host.Core} {n : Nat} {a b : M.State} (h : M.run (n + 1) a = .next b) :
    ∃ c, M.step a = .next c ∧ M.run n c = .next b := by
  rw [Host.Core.run] at h
  split at h
  next c hc => exact ⟨c, hc, h⟩
  · cases h
  · cases h

/-- A run over quiet turns is a sequence of the block's moves. -/
theorem run_quiet (hq : ts.all Turn.quiet = true) (ht : s.turns = ts) (h : core.run ts.length s = .next t) :
    Relation.ReflTransGen BlockSide.Move s.blockSide t.blockSide := by
  induction ts generalizing s with
  | nil => cases h; exact .refl
  | cons q ts ih =>
    obtain ⟨hq, hqs⟩ := by simpa only [List.all_cons, Bool.and_eq_true] using hq
    obtain ⟨u, hs, hu⟩ := run_succ_cases h
    obtain ⟨htu, hside | hmove⟩ := step_quiet ht hq hs
    · exact hside ▸ ih hqs htu hu
    · exact .head hmove (ih hqs htu hu)

end

/-- Settles O52: both runs follow the one sequence of moves the block's side has (`BlockSide.move_rightUnique`), so one
end lies behind the other on it, and from a block that is not busy there is no further move. -/
theorem resultIndependentOfTiming : Obligations.ResultIndependentOfTiming := by
  intro s ts us t u hts hus ht hu htb hub
  have toT : Relation.ReflTransGen BlockSide.Move s.blockSide t.blockSide :=
    run_quiet (s := { s with turns := ts }) hts rfl ht
  have toU : Relation.ReflTransGen BlockSide.Move s.blockSide u.blockSide :=
    run_quiet (s := { s with turns := us }) hus rfl hu
  have same : t.blockSide = u.blockSide := by
    obtain h | h := toT.total_of_right_unique BlockSide.move_rightUnique toU
    · exact ((Relation.reflTransGen_iff_eq (BlockSide.not_move_of_not_busy htb)).1 h).symm
    · exact (Relation.reflTransGen_iff_eq (BlockSide.not_move_of_not_busy hub)).1 h
  exact ⟨congrArg BlockSide.blk same, congrArg BlockSide.sink same, congrArg BlockSide.src same⟩

end Sys2Proof.Machine
end

-- ==== The operation map, both ways ====
section
/-! SUPPORT. The guards of R100 in the selecting fields, and the decoder against the encoder: what is enabled is read
back from its port, and what is read from a port is enabled. -/

namespace Sys2Proof.Machine

/-! ### The guards in the selecting fields (R39, R100)

The six fields stand in the block `Block.reset.withSel k`, so each guard is the one already known of a block. -/

section
variable {k : Sel} {b : Byte} {smp : Sample}

theorem Sel.enables_rxMark_iff : k.enables (.rxMark b) = true ↔ k.phase = .pfx ∧ k.rdgot = 0 :=
  Block.enables_rxMark b (Block.reset.withSel k)

theorem Sel.enables_rxLcnt_iff : k.enables (.rxLcnt b) = true ↔ k.phase = .pfx ∧ k.rdgot = 1 :=
  Block.enables_rxLcnt b (Block.reset.withSel k)

theorem Sel.enables_rxLdig_iff : k.enables (.rxLdig b) = true ↔ k.phase = .length :=
  Block.enables_rxLdig b (Block.reset.withSel k)

theorem Sel.enables_rxPlo_iff : k.enables (.rxPlo b) = true ↔
    k.phase = .payload ∧ k.rdrem ≠ 0 ∧ k.runrem = 0 ∧ k.bsel = false :=
  Block.enables_rxPlo b (Block.reset.withSel k)

theorem Sel.enables_rxPhi_iff : k.enables (.rxPhi b) = true ↔
    k.phase = .payload ∧ k.rdrem ≠ 0 ∧ k.runrem = 0 ∧ k.bsel = true :=
  Block.enables_rxPhi b (Block.reset.withSel k)

theorem Sel.enables_rxTmo_iff : k.enables .rxTmo = true ↔
    k.phase = .pfx ∨ k.phase = .length ∨ (k.phase = .payload ∧ k.rdrem ≠ 0 ∧ k.runrem = 0) :=
  Block.enables_rxTmo (Block.reset.withSel k)

theorem Sel.enables_fin_iff : k.enables .fin = true ↔ k.phase = .payload ∧ k.rdrem = 0 ∧ k.runrem = 0 :=
  Sel.finReady_iff k

theorem Sel.enables_rlCnt_iff : k.enables (.rlCnt smp) = true ↔
    k.phase = .payload ∧ k.runrem = 0 ∧ k.ssel = false :=
  Block.enables_rlCnt smp (Block.reset.withSel k)

theorem Sel.enables_rlCod_iff : k.enables (.rlCod smp) = true ↔
    k.phase = .payload ∧ k.runrem = 0 ∧ k.ssel = true :=
  Block.enables_rlCod smp (Block.reset.withSel k)

theorem Sel.enables_rlEmit_iff : k.enables .rlEmit = true ↔ k.phase = .payload ∧ k.runrem ≠ 0 :=
  Block.enables_rlEmit (Block.reset.withSel k)

/-- Of the block's own operations at most one is enabled: the phase leaves those of one read, and within it the
progress of the read, or the run in progress, decides (R72, R100). -/
theorem Sel.countP_enables_le_one (k : Sel) (b : Byte) :
    ([Instr.rxMark b, .rxLcnt b, .rxLdig b, .rxPlo b, .rxPhi b, .fin, .rlEmit].countP fun i => k.enables i) ≤ 1 := by
  simp only [List.countP_cons, List.countP_nil, enables_rxMark_iff, enables_rxLcnt_iff, enables_rxLdig_iff,
    enables_rxPlo_iff, enables_rxPhi_iff, enables_fin_iff, enables_rlEmit_iff]
  cases hp : k.phase with
  | idle | length | done | failed => simp
  | pfx =>
    by_cases hg : k.rdgot = 0#30
    · simp [hg]
    · by_cases hg' : k.rdgot = 1#30 <;> simp [hg, hg']
  | payload =>
    by_cases hrun : k.runrem = 0#16
    · by_cases hrem : k.rdrem = 0#30
      · simp [hrun, hrem]
      · cases hb : k.bsel <;> simp [hrun, hrem]
    · simp [hrun]

end

/-! ### What the decoder answers -/

section
variable {k : Sel} {i : Instr} {b : Byte}

/-- An operation the decoder reads from a byte is enabled: both go by the place of the byte in the block. -/
theorem enables_of_decode_byte (h : decode k (.inByte b) = .op i) : k.enables i = true := by
  simp only [decode, decodeByte] at h
  cases hp : k.phase with
  | pfx =>
    simp only [hp] at h
    split_ifs at h with h0 h1 <;> cases h
    · exact Sel.enables_rxMark_iff.2 ⟨hp, eq_of_beq h0⟩
    · exact Sel.enables_rxLcnt_iff.2 ⟨hp, eq_of_beq h1⟩
  | length => simp only [hp] at h; cases h; exact Sel.enables_rxLdig_iff.2 hp
  | payload =>
    simp only [hp, Bool.and_eq_true, bne_iff_ne, beq_iff_eq] at h
    split_ifs at h with hr hb <;> cases h
    · exact Sel.enables_rxPhi_iff.2 ⟨hp, hr.1, hr.2, hb⟩
    · exact Sel.enables_rxPlo_iff.2 ⟨hp, hr.1, hr.2, eq_false_of_ne_true hb⟩
  | idle | done | failed => simp [hp] at h

/-- An operation the decoder reads from a sample is enabled. -/
theorem enables_of_decode_sample {smp : Sample} (h : decode k (.sample smp) = .op i) :
    k.enables i = true ∧ (i = .rlCod smp ∨ i = .rlCnt smp) := by
  simp only [decode, Bool.and_eq_true, beq_iff_eq] at h
  split_ifs at h with hr hs <;> cases h
  · exact ⟨Sel.enables_rlCod_iff.2 ⟨hr.1, hr.2, hs⟩, .inl rfl⟩
  · exact ⟨Sel.enables_rlCnt_iff.2 ⟨hr.1, hr.2, eq_false_of_ne_true hs⟩, .inr rfl⟩

end

/-! ### The obligations -/

/-- Settles O1: the guard of an operation names the branch of the operation map that its wire takes. -/
theorem decodeOfEncode : Obligations.DecodeOfEncode := by
  intro i k hw he
  cases i with
  | rxMark b => obtain ⟨hp, hg⟩ := Sel.enables_rxMark_iff.1 he; simp [encode, decode, decodeByte, hp, hg]
  | rxLcnt b => obtain ⟨hp, hg⟩ := Sel.enables_rxLcnt_iff.1 he; simp [encode, decode, decodeByte, hp, hg]
  | rxLdig b => simp [encode, decode, decodeByte, Sel.enables_rxLdig_iff.1 he]
  | rxPlo b =>
    obtain ⟨hp, hrem, hrun, hb⟩ := Sel.enables_rxPlo_iff.1 he
    simpa [encode, decode, decodeByte, hp, hrun, hb] using hrem
  | rxPhi b =>
    obtain ⟨hp, hrem, hrun, hb⟩ := Sel.enables_rxPhi_iff.1 he
    simpa [encode, decode, decodeByte, hp, hrun, hb] using hrem
  | rlCnt smp => obtain ⟨hp, hrun, hs⟩ := Sel.enables_rlCnt_iff.1 he; simp [encode, decode, hp, hrun, hs]
  | rlCod smp => obtain ⟨hp, hrun, hs⟩ := Sel.enables_rlCod_iff.1 he; simp [encode, decode, hp, hrun, hs]
  | rxTmo | fin | rlEmit => exact if_pos he
  | wrreg n v =>
    have hstart : ¬ (n == 0 && v.getLsbD 0) = true := by
      simpa only [Instr.wellFormed, Instr.writesOther, Bool.not_eq_true', Bool.not_eq_true] using hw
    exact if_neg hstart
  | start | rdreg | ccRgb | reset | hIdn | hQuery | hRun | hDim | hCommit => rfl

/-- Settles O2, port by port; the second spelling is a write of `CTRL` that carries bit 0. -/
theorem decodeOnlyEnabled : Obligations.DecodeOnlyEnabled := by
  intro k p i h
  cases p with
  | inByte b =>
    have he := enables_of_decode_byte h
    obtain rfl | rfl | rfl | rfl | rfl := decode_byte_not_host h <;> exact ⟨rfl, he, .inl rfl⟩
  | sample smp =>
    obtain ⟨he, rfl | rfl⟩ := enables_of_decode_sample h <;> exact ⟨rfl, he, .inl rfl⟩
  | regWrite n v =>
    simp only [decode] at h
    split_ifs at h with hv <;> cases h
    · obtain ⟨hn, hbit⟩ := Bool.and_eq_true_iff.1 hv
      obtain rfl := eq_of_beq hn
      exact ⟨rfl, rfl, .inr ⟨v, hbit, rfl, rfl⟩⟩
    · exact ⟨by simpa only [Instr.wellFormed, Instr.writesOther, Bool.not_eq_true', Bool.not_eq_true] using hv,
        rfl, .inl rfl⟩
  | inTimeout | internal | outReady =>
    simp only [decode] at h
    split_ifs at h with hr
    cases h
    exact ⟨rfl, hr, .inl rfl⟩
  | command bytes =>
    simp only [decode] at h
    split_ifs at h with hidn hquery <;> cases h
    · exact ⟨rfl, rfl, .inl (congrArg _ hidn.symm)⟩
    · exact ⟨rfl, rfl, .inl (congrArg _ hquery.symm)⟩
  | call c => cases c <;> cases h <;> exact ⟨rfl, rfl, .inl rfl⟩
  | regRead | code | rst => cases h; exact ⟨rfl, rfl, .inl rfl⟩

/-- Settles O3: the guards read off the fields, and a timeout is for a block that is ready for a byte, which neither
ends nor emits (`sel_ready_exclusive`). -/
theorem operationsExcludeOneAnother : Obligations.OperationsExcludeOneAnother := by
  intro k b
  simp only [BitVec.ofNat_eq_ofNat, BitVec.pos_iff_ne_zero]
  exact ⟨Sel.enables_rxMark_iff, Sel.enables_rxLcnt_iff, Sel.enables_rxLdig_iff, Sel.enables_rxPlo_iff,
    Sel.enables_rxPhi_iff, Sel.enables_rxTmo_iff, Sel.enables_fin_iff, Sel.enables_rlEmit_iff,
    Sel.countP_enables_le_one k b, fun h => ((sel_ready_exclusive k).1 h).symm⟩

/-- Settles O4: each of these words is the wire of the operation it stands for in a state that enables it, so O1 reads
it; the other two are the second spelling of `START` and a byte offered while a run is emitted. -/
theorem decodedWordsOfTheFormats : Obligations.DecodedWordsOfTheFormats :=
  ⟨decodeOfEncode (.rxMark 0x23) _ rfl rfl, decodeOfEncode (.rxLcnt 0x31) _ rfl rfl,
    decodeOfEncode (.rxLdig 0x38) _ rfl rfl, decodeOfEncode (.rxPlo 0x03) _ rfl rfl,
    decodeOfEncode (.rxPhi 0xF8) _ rfl rfl, decodeOfEncode (.rlCnt 0x0003) _ rfl rfl,
    decodeOfEncode (.rlCod 0xF800) _ rfl rfl, decodeOfEncode .rlEmit _ rfl rfl, rfl,
    decodeOfEncode .fin _ rfl rfl, decodeOfEncode (.ccRgb 0x07E0) _ rfl rfl, rfl,
    decodeOfEncode (.wrreg 0 0xFFFFFFFE) _ rfl rfl, decodeOfEncode (.rdreg 9) _ rfl rfl,
    decodeOfEncode .hIdn _ rfl rfl, decodeOfEncode .hQuery _ rfl rfl⟩

end Sys2Proof.Machine
end

-- ==== The block as one function ====
section
/-! SUPPORT. What the function-level contracts give on the parts of a whole block (R105): the reads, the bytes of a
sample, the samples of a pair, the bytes of a pixel. -/

namespace Sys2Proof.Machine

/-! ### The formats of the payload -/

/-- The bytes of a pair on the stream, each sample low byte first (R64, R95). -/
def pairBytes (p : Sample × Sample) : List Byte :=
  [p.1.extractLsb' 0 8, p.1.extractLsb' 8 8, p.2.extractLsb' 0 8, p.2.extractLsb' 8 8]

/-- The run of a pair (R170). -/
def pairRun (p : Sample × Sample) : List Sample := List.replicate p.1.toNat p.2

/-- A sample is its two bytes (R64). -/
theorem word16_bytes (smp : Sample) : word16 (smp.extractLsb' 0 8) (smp.extractLsb' 8 8) = smp :=
  BitVec.extractLsb'_append_extractLsb'

theorem length_pairBytes (pairs : List (Sample × Sample)) : (pairs.flatMap pairBytes).length = 4 * pairs.length := by
  simp [List.length_flatMap, pairBytes, Nat.mul_comm]

/-- The payload's samples are those of its pairs, count before code (R94, R95). -/
theorem samplesOf_pairBytes (pairs : List (Sample × Sample)) :
    samplesOf (pairs.flatMap pairBytes) = pairs.flatMap fun p => [p.1, p.2] := by
  induction pairs with
  | nil => rfl
  | cons p pairs ih => simp [pairBytes, samplesOf, word16_bytes, ← ih]

theorem rleDecode_pairs (pairs : List (Sample × Sample)) :
    rleDecode (pairs.flatMap fun p => [p.1, p.2]) = .ok (pairs.flatMap pairRun) := by
  induction pairs with
  | nil => rfl
  | cons p pairs ih => simp [rleDecode, ih, pairRun]

/-- A beat's bytes are the channels it was packed from (R62). -/
theorem beatBytes_packBeat (p : Rgb) : beatBytes (packBeat p) = [p.r, p.g, p.b] := by
  have hr : (packBeat p).extractLsb' 16 8 = p.r := by
    rw [packBeat, BitVec.extractLsb'_append_eq_of_le (by decide), BitVec.extractLsb'_append_eq_of_le (by decide)]
    exact BitVec.extractLsb'_eq_self
  have hg : (packBeat p).extractLsb' 8 8 = p.g := by
    rw [packBeat, BitVec.extractLsb'_append_eq_of_le (by decide), BitVec.extractLsb'_append_eq_of_add_le (by decide)]
    exact BitVec.extractLsb'_eq_self
  have hb : (packBeat p).extractLsb' 0 8 = p.b := by
    rw [packBeat, BitVec.extractLsb'_append_eq_of_add_le (by decide)]
    exact BitVec.extractLsb'_eq_self
  rw [beatBytes, hr, hg, hb]

/-- `Convert` gives the bytes of the pixels' beats (R194, R62). -/
theorem convert_eq_flatMap_beatBytes (px : List Sample) : convert px = px.flatMap fun code => beatBytes (beatOf code) :=
  List.flatMap_congr fun code _ => (beatBytes_packBeat (toRgb888 code)).symm

/-! ### The three reads -/

/-- A read of what is there succeeds and leaves what follows (R141). -/
theorem takeBytes_append {k : Nat} {xs : List Byte} (h : xs.length = k) (ys : List Byte) :
    takeBytes k (xs ++ ys) = .ok (xs, ys) := by
  subst h
  simp [takeBytes]

section
variable {n : Nat}

/-- The digit-count byte of a length field of `n` digits (R92). -/
theorem toNat_countByte (hn : n ≤ 9) : (BitVec.ofNat 8 (0x30 + n)).toNat = 0x30 + n := by
  rw [BitVec.toNat_ofNat]; omega

theorem isCountDigit_countByte (h1 : 1 ≤ n) (h9 : n ≤ 9) : isCountDigit (BitVec.ofNat 8 (0x30 + n)) = true := by
  rw [isCountDigit_iff, toNat_countByte h9]; omega

theorem digitVal_countByte (h9 : n ≤ 9) : (digitVal (BitVec.ofNat 8 (0x30 + n))).toNat = n := by
  rw [digitVal_toNat_mod, toNat_countByte h9]; omega

end

/-- A whole block with an even payload parses to the payload's samples, whatever the marker and what follows
(R104, R141). -/
theorem parseBlock_whole {digits payload : List Byte} (marker : Byte) (after : List Byte) (h1 : 1 ≤ digits.length)
    (h9 : digits.length ≤ 9) (hd : digits.all isDigit = true) (hlen : payload.length = decVal digits)
    (heven : decVal digits % 2 = 0) :
    parseBlock (marker :: BitVec.ofNat 8 (0x30 + digits.length) :: digits ++ payload ++ after) =
      .ok (samplesOf payload) := by
  have hpfx : takeBytes 2 (marker :: BitVec.ofNat 8 (0x30 + digits.length) :: digits ++ payload ++ after) =
      .ok ([marker, BitVec.ofNat 8 (0x30 + digits.length)], digits ++ (payload ++ after)) := by
    simpa using takeBytes_append (k := 2) (xs := [marker, _]) rfl (digits ++ (payload ++ after))
  have hdig := takeBytes_append (digitVal_countByte h9).symm (payload ++ after)
  have hpay := takeBytes_append hlen after
  simp only [parseBlock, hpfx, List.getD_cons_succ, List.getD_cons_zero, isCountDigit_countByte h1 h9, hdig, hd, hpay,
    heven, if_true, zero_ne_one, if_false]

/-- A block that parses to the samples of `pairs` is captured as their runs (R200). -/
theorem capture_of_parseBlock {bs : List Byte} {pairs : List (Sample × Sample)}
    (h : parseBlock bs = .ok (pairs.flatMap fun p => [p.1, p.2])) :
    capture bs = .ok (pairs.flatMap pairRun, (pairs.flatMap pairRun).flatMap fun code => beatBytes (beatOf code)) := by
  simp only [capture, h, rleDecode_pairs, convert_eq_flatMap_beatBytes]

/-- Settles O49: the three reads find the two opening bytes, the length field and the payload, and the payload is
its pairs. -/
theorem wholeBlocksAreCaptured : Obligations.WholeBlocksAreCaptured := by
  intro marker digits pairs after h1 h9 hd hlen
  have hpay : (pairs.flatMap pairBytes).length = decVal digits := (length_pairBytes pairs).trans hlen.symm
  have hparse := parseBlock_whole marker after h1 h9 hd hpay (by omega)
  rw [samplesOf_pairBytes] at hparse
  exact capture_of_parseBlock hparse

end Sys2Proof.Machine
end

-- ==== The host's registers ====
section
/-! SUPPORT. The host's reads and writes of a register (40_host_control.md): the value of each register as a number, at
the places of the tables R40 to R47, and what a write does where it is `START` and where it is dropped. -/

namespace Sys2Proof.Machine

/-! ### The values of the registers -/

section
variable (b : Block)

/-- A flag of `STATUS` weighs its place where its signal is up. -/
theorem mul_toNat_eq_ite {c : Bool} {p : Prop} [Decidable p] (h : c = true ↔ p) (w : Nat) :
    w * c.toNat = if p then w else 0 := by
  cases c <;> simp [← h]

/-- `STATUS` (R42) with its three flags in the fields of the block. -/
theorem Block.readReg_status_toNat : (b.readReg 1).toNat =
    (phaseCode b.phase).toNat + 8 * (errCode b.err).toNat + 64 * (subCode b.esub).toNat
      + (if b.phase = .pfx ∨ b.phase = .length ∨ (b.phase = .payload ∧ 0 < b.rdrem ∧ b.runrem = 0) then 1024 else 0)
      + (if b.phase = .payload ∧ 0 < b.runrem then 2048 else 0)
      + (if b.lenbad then 4096 else 0) := by
  have hready : b.inReady = true ↔
      b.phase = .pfx ∨ b.phase = .length ∨ (b.phase = .payload ∧ 0 < b.rdrem ∧ b.runrem = 0) := by
    simpa only [BitVec.ofNat_eq_ofNat, BitVec.pos_iff_ne_zero] using b.inReady_iff
  have hvalid : b.outValid = true ↔ b.phase = .payload ∧ 0 < b.runrem := by
    simpa only [BitVec.ofNat_eq_ofNat, BitVec.pos_iff_ne_zero] using b.outValid_iff
  rw [Block.readReg, Block.status_toNat, mul_toNat_eq_ite hready, mul_toNat_eq_ite hvalid, mul_toNat_eq_ite Iff.rfl]

/-- `BLKLEN` is widened by zeros (R44). -/
theorem Block.readReg_nacc_toNat : (b.readReg 3).toNat = b.nacc.toNat :=
  BitVec.toNat_setWidth_of_le (by decide)

/-- `PIXCNT_LO` is the low 32 bits of the count (R46). -/
theorem Block.readReg_pixcntLow_toNat : (b.readReg 5).toNat = b.pixcnt.toNat % 2 ^ 32 :=
  BitVec.extractLsb'_toNat ..

/-- `PIXCNT_HI` (R46): what is left of 48 bits above 32 fits in it. -/
theorem Block.readReg_pixcntHigh_toNat : (b.readReg 6).toNat = b.pixcnt.toNat / 2 ^ 32 := by
  have h := b.pixcnt.isLt
  rw [Block.readReg, BitVec.toNat_setWidth, BitVec.extractLsb'_toNat, Nat.shiftRight_eq_div_pow]
  omega

/-- No register has a number above 8 (R40). -/
theorem Block.readReg_undefined {n : Nat} (h : 8 < n) : b.readReg n = 0 := by
  obtain ⟨m, rfl⟩ := Nat.exists_eq_add_of_lt h
  rw [Nat.add_right_comm, Nat.add_comm]
  rfl

end

/-- Settles O10: what is read is `Block.readReg`, and each register has its layout. -/
theorem registerReadsFollowTheLayouts : Obligations.RegisterReadsFollowTheLayouts := by
  intro n s
  refine ⟨s.blk.readReg n, rfl, ?ctrl, ?status, ?header, ?nacc, ?consumed, ?pixcntLow, ?pixcntHigh, ?expect, ?actual,
    s.blk.readReg_undefined⟩ <;> rintro rfl
  case status => exact s.blk.readReg_status_toNat
  case header => exact s.blk.header_toNat
  case nacc => exact s.blk.readReg_nacc_toNat
  case pixcntLow => exact s.blk.readReg_pixcntLow_toNat
  case pixcntHigh => exact s.blk.readReg_pixcntHigh_toNat
  case ctrl | consumed | expect | actual => rfl

/-! ### `START` and the other writes -/

section
variable {s : State}

/-- `START` on a block that is not busy, with reset released: the block is armed, the beats left over are dropped and
the host's stage follows (R121). -/
theorem State.start_acts (hrst : s.rst = false) (hb : s.blk.busy = false) : s.start = { s with
    blk := Block.armed, sink := ⟨[], s.sink.committed⟩, host := s.host.started s.blk.phase } := by
  obtain ⟨-, h | h⟩ | ⟨h, -, -⟩ := s.start_cases
  · exact absurd h (by simp [hrst])
  · exact absurd h (by simp [hb])
  · exact h

/-- `START` on a busy block is ignored (R121, R288). -/
theorem State.start_busy (hb : s.blk.busy = true) : s.start = s := by
  obtain ⟨h, -⟩ | ⟨-, -, h⟩ := s.start_cases
  · exact h
  · exact absurd hb (by simp [h])

/-- A write of `CTRL` with bit 0 set is `START` (R123). -/
theorem State.writeReg_start {v : RegWord} (hv : v.getLsbD 0 = true) : s.writeReg 0 v = s.start :=
  if_pos (Bool.and_eq_true_iff.2 ⟨rfl, hv⟩)

/-- Every other write is dropped (R123). -/
theorem State.writeReg_dropped {n : Nat} {v : RegWord} (h : n ≠ 0 ∨ v.getLsbD 0 = false) : s.writeReg n v = s := by
  obtain hw | ⟨-, hn, hv, -, -⟩ := s.writeReg_cases n v
  · exact hw
  · exact absurd h (by simp [hn, hv])

end

/-- Settles O9: whether `START` acts hangs on `busy` alone once reset is released, and of the host it changes the
stage (`HostSide.started_eq`). -/
theorem startArmsTheBlock : Obligations.StartArmsTheBlock := by
  refine ⟨fun k v hv => if_pos (Bool.and_eq_true_iff.2 ⟨rfl, hv⟩), fun s hrst => ⟨fun hp => ?_, fun hp => ?_⟩, rfl, rfl⟩
  · have hacts := State.start_acts hrst (s.blk.not_busy_iff.2 hp)
    rw [HostSide.started_eq] at hacts
    exact ⟨_, [], congrArg Host.Outcome.next hacts⟩
  · exact congrArg Host.Outcome.next (State.start_busy (s.blk.busy_iff.2 hp))

/-- Settles O12: a write is `START` or dropped. -/
theorem registerWritesOnlyStart : Obligations.RegisterWritesOnlyStart := by
  intro n v s
  refine ⟨?_, fun h => congrArg Host.Outcome.next (State.writeReg_dropped h)⟩
  rintro ⟨rfl, hv⟩
  exact congrArg Host.Outcome.next (State.writeReg_start hv)

end Sys2Proof.Machine
end

-- ==== The block framer ====
section
/-! SUPPORT. What the framer's operations do to the state where R100 enables them, as the rules of 41_block_framer.md
write it; what of the stream waits while `in_ready` is 0; and the phase transitions of R158. -/

namespace Sys2Proof.Machine

/-! ### The operands as numbers -/

section
variable {k : Block} {b : Byte}

theorem isCountDigit_eq_false_iff : isCountDigit b = false ↔ ¬ (0x31 ≤ b.toNat ∧ b.toNat ≤ 0x39) := by
  rw [← Bool.not_eq_true, isCountDigit_iff]

theorem isDigit_eq_false_iff : isDigit b = false ↔ ¬ (0x30 ≤ b.toNat ∧ b.toNat ≤ 0x39) := by
  rw [← Bool.not_eq_true, isDigit_iff]

/-- One step of the decimal accumulation, the digit as its distance from `'0'` (R65, R147). -/
theorem Block.accumulate_eq_ite : k.accumulate b = if 0x30 ≤ b.toNat ∧ b.toNat ≤ 0x39 then
    k.nacc * 10 + BitVec.ofNat 30 (b.toNat - 0x30) else k.nacc := by
  unfold Block.accumulate
  cases h : isDigit b with
  | true =>
    have hd := (isDigit_iff b).1 h
    rw [if_pos rfl, if_pos hd, digitVal_setWidth_eq_ofNat hd]
  | false => rw [if_neg Bool.false_ne_true, if_neg (isDigit_eq_false_iff.1 h)]

theorem word16_eq_ofNat (lo hi : Byte) : word16 lo hi = BitVec.ofNat 16 (hi.toNat * 256 + lo.toNat) := by
  rw [← word16_toNat, BitVec.ofNat_toNat, BitVec.setWidth_eq]

end

/-! ### What cannot be taken, and what is taken first -/

section
variable {s u : State} {tn : Turn} {ts : List Turn}

theorem step_eq_of_fetch_eq (h : s.fetch = u.fetch) : step s = step u := by
  rw [step, step, h]

/-- The source's turn and the watchdog's both put a byte on offer at the port (R157). -/
theorem State.fetch_byte {b : Byte} {ms : List SrcMove} (ht : s.turns = tn :: ts)
    (htn : tn = .source ∨ tn = .watchdog) (hm : s.src.moves = .byte b :: ms) :
    s.fetch = fire (decode s.blk.sel (.inByte b)) { s with turns := ts, src := { s.src with moves := ms } }
      { s with turns := ts } :=
  (State.fetch_cons ht).trans (State.serve_byte (s := { s with turns := ts }) htn hm)

/-- While `in_ready` is 0 nothing leaves the stream, and a timeout signal is lost (R154). -/
theorem step_stream_not_ready (ht : s.turns = tn :: ts) (htn : tn = .source ∨ tn = .watchdog)
    (hr : s.blk.sel.inReady = false) : step s = .next { s with turns := ts } := by
  cases hm : s.src.moves with
  | cons m ms =>
    obtain ⟨r, hd⟩ := decode_move_reject hr m
    exact step_of_reject ht (State.serve_move htn hm) hd
  | nil =>
    obtain rfl | rfl := htn
    · exact step_of_pass ((State.fetch_cons ht).trans (State.serve_source_nil hm))
    · obtain ⟨r, hd⟩ := decode_move_reject hr .timeout
      exact step_of_reject ht (State.serve_watchdog_nil hm) hd

end

/-- Settles O6: the decoder rejects what the turn puts at the port, or there is nothing on offer. -/
theorem nothingTakenWhenNotReady : Obligations.NothingTakenWhenNotReady := by
  intro s ts
  refine ⟨?stream, fun ht hm => ?nothing, fun ht hout => ?sink, fun ht hfin => ?own⟩
  case stream =>
    rintro (ht | ht) hr
    · exact step_stream_not_ready ht (.inl rfl) hr
    · exact step_stream_not_ready ht (.inr rfl) hr
  case nothing => exact step_of_pass ((State.fetch_cons ht).trans (State.serve_source_nil hm))
  case sink =>
    have hd : decode s.blk.sel .outReady = .reject .noBeat := if_neg (Bool.eq_false_iff.1 hout)
    exact step_of_reject ht rfl hd
  case own =>
    have hd : decode s.blk.sel .internal = .reject .noInternalStep := if_neg (Bool.eq_false_iff.1 hfin)
    exact step_of_reject ht rfl hd

/-- Settles O7: with a byte on offer the source's turn and the watchdog's fetch the same (`State.fetch_byte`). -/
theorem byteWinsOverTimeout : Obligations.ByteWinsOverTimeout := by
  intro s ts b ms hm
  have hsignal := State.fetch_byte (s := { s with turns := .watchdog :: ts }) rfl (.inr rfl) hm
  have hsource := State.fetch_byte (s := { s with turns := .source :: ts }) rfl (.inl rfl) hm
  exact ⟨step_eq_of_fetch_eq (hsignal.trans hsource.symm),
    fun i hd => step_of_run (hsignal.trans (fire_run.2 ⟨hd, rfl⟩))⟩

/-! ### The operations where they are enabled -/

/-- Where R100 enables it, an operation of the block that emits nothing does its part to the block and nothing else. -/
theorem exec_enabled (i : Instr) {f : Block → Block} {s : State} (hf : blockMove i = some f) (hi : i ≠ .rlEmit)
    (he : s.blk.sel.enables i = true) : exec i s = .next { s with blk := f s.blk } := by
  obtain ⟨m, hm⟩ := exec_eq_blockOp hf hi s
  rw [hm, State.blockOp_enabled he]

/-- Settles O13: the marker's operation has no check beside its guard. -/
theorem markerIsLatchedUnchecked : Obligations.MarkerIsLatchedUnchecked := fun b s hp hg =>
  exec_enabled (.rxMark b) rfl nofun ((s.blk.enables_rxMark b).2 ⟨hp, hg⟩)

/-- Settles O14: one clause for each case of `Block.countDigit_cases`. -/
theorem digitCountByteOpensOrFails : Obligations.DigitCountByteOpensOrFails := by
  intro b s hp hg
  have hexec : exec (.rxLcnt b) s = .next { s with blk := s.blk.countDigit b } :=
    exec_enabled (.rxLcnt b) rfl nofun ((s.blk.enables_rxLcnt b).2 ⟨hp, hg⟩)
  obtain ⟨hd, hk⟩ | ⟨hd, hk⟩ := s.blk.countDigit_cases b <;> rw [hk] at hexec
  · have hdigit := (isDigit_iff b).1 (isDigit_of_isCountDigit hd)
    rw [isCountDigit_iff] at hd
    rw [digitVal_setWidth_eq_ofNat hdigit, digitVal_eq_ofNat hdigit] at hexec
    exact ⟨fun _ => hexec, fun h => by omega⟩
  · rw [isCountDigit_eq_false_iff] at hd
    exact ⟨fun h => absurd h hd, fun _ => hexec⟩

/-- Settles O15: one clause for each case of `Block.lengthDigit_cases`. -/
theorem lengthDigitAccumulates : Obligations.LengthDigitAccumulates := by
  intro b s hp digit nacc'
  have hexec : exec (.rxLdig b) s = .next { s with blk := s.blk.lengthDigit b } :=
    exec_enabled (.rxLdig b) rfl nofun ((s.blk.enables_rxLdig b).2 hp)
  have hacc : s.blk.accumulate b = nacc' := Block.accumulate_eq_ite
  obtain ⟨hr, hk⟩ | ⟨hr, hbad, hk⟩ | ⟨hr, hl, hd, hk⟩ := s.blk.lengthDigit_cases b <;> rw [hk, hacc] at hexec
  · exact ⟨fun _ => hexec, fun h => absurd h hr, fun h => absurd h hr⟩
  · refine ⟨fun h => absurd hr h, fun _ _ => hexec, fun _ hl hdig => ?_⟩
    obtain h | h := hbad
    · simp [hl] at h
    · exact absurd hdig (isDigit_eq_false_iff.1 h)
  · refine ⟨fun h => absurd hr h, fun _ hbad => ?_, fun _ _ _ => hexec⟩
    obtain h | h := hbad
    · simp [hl] at h
    · exact absurd ((isDigit_iff b).1 hd) h

/-- Settles O16: the low byte's operation has no check beside its guard. -/
theorem lowByteIsHeld : Obligations.LowByteIsHeld := fun b s hp hrem hrun hb =>
  exec_enabled (.rxPlo b) rfl nofun ((s.blk.enables_rxPlo b).2 ⟨hp, (BitVec.pos_iff_ne_zero _).1 hrem, hrun, hb⟩)

/-- Settles O17: one clause for each case of `Block.highByte_cases`, which go by `ssel`. -/
theorem highByteCompletesTheSample : Obligations.HighByteCompletesTheSample := by
  intro b s hp hrem hrun hb smp
  have hexec : exec (.rxPhi b) s = .next { s with blk := s.blk.highByte b } :=
    exec_enabled (.rxPhi b) rfl nofun ((s.blk.enables_rxPhi b).2 ⟨hp, (BitVec.pos_iff_ne_zero _).1 hrem, hrun, hb⟩)
  have hsmp : word16 s.blk.lobyte b = smp := word16_eq_ofNat _ _
  obtain ⟨hs, hk⟩ | ⟨hs, hk⟩ := s.blk.highByte_cases b <;> rw [hk, hsmp] at hexec
  · exact ⟨fun _ => hexec, fun h => by simp [hs] at h⟩
  · exact ⟨fun h => by simp [hs] at h, fun _ => hexec⟩

/-- Settles O18: the sub-cause is that of the phase, and the guard is that of R100. -/
theorem timeoutFailsTheCurrentRead : Obligations.TimeoutFailsTheCurrentRead := by
  intro s hread
  have he : s.blk.sel.enables .rxTmo = true :=
    s.blk.enables_rxTmo.2 (hread.imp_right (.imp_right fun ⟨hp, hrem, hrun⟩ =>
      ⟨hp, (BitVec.pos_iff_ne_zero _).1 hrem, hrun⟩))
  exact ⟨tmoSub s.blk.phase, congrArg tmoSub, congrArg tmoSub, congrArg tmoSub, exec_enabled .rxTmo rfl nofun he⟩

/-- Settles O19: one clause for each case of `Block.finish_cases`. -/
theorem endOfBlockChecks : Obligations.EndOfBlockChecks := by
  intro s hp hrem hrun
  have hexec : exec .fin s = .next { s with blk := s.blk.finish } :=
    exec_enabled .fin rfl nofun (s.blk.enables_fin.2 ⟨hp, hrem, hrun⟩)
  obtain ⟨hb, hk⟩ | ⟨hb, hs, hk⟩ | ⟨hb, hs, hk⟩ := s.blk.finish_cases <;> rw [hk] at hexec
  · exact ⟨fun _ => hexec, fun h => by simp [hb] at h, fun h => by simp [hb] at h⟩
  · exact ⟨fun h => by simp [hb] at h, fun _ _ => hexec, fun _ h => by simp [hs] at h⟩
  · exact ⟨fun h => by simp [hb] at h, fun _ h => by simp [hs] at h, fun _ _ => hexec⟩

/-! ### The phase after each operation (R158) -/

section
variable {k : Block} {b : Byte}

theorem Block.countDigit_phase : (k.countDigit b).phase =
    if 0x31 ≤ b.toNat ∧ b.toNat ≤ 0x39 then .length else .failed := by
  obtain ⟨hd, hk⟩ | ⟨hd, hk⟩ := k.countDigit_cases b <;> rw [hk]
  · exact (if_pos ((isCountDigit_iff b).1 hd)).symm
  · exact (if_neg (isCountDigit_eq_false_iff.1 hd)).symm

/-- Only the last length byte ends the length read (R147). -/
theorem Block.lengthDigit_phase_more (hr : k.rdrem ≠ 1) : (k.lengthDigit b).phase = k.phase := by
  obtain ⟨-, hk⟩ | ⟨h, -⟩ | ⟨h, -⟩ := k.lengthDigit_cases b
  · rw [hk]
  · exact absurd h hr
  · exact absurd h hr

theorem Block.lengthDigit_phase_last (hr : k.rdrem = 1) : (k.lengthDigit b).phase =
    if k.lenbad = false ∧ 0x30 ≤ b.toNat ∧ b.toNat ≤ 0x39 then .payload else .failed := by
  obtain ⟨h, -⟩ | ⟨-, hbad, hk⟩ | ⟨-, hl, hd, hk⟩ := k.lengthDigit_cases b
  · exact absurd hr h
  · rw [hk]
    refine (if_neg ?_).symm
    rintro ⟨hl, hd⟩
    obtain h | h := hbad
    · simp [hl] at h
    · exact isDigit_eq_false_iff.1 h hd
  · rw [hk]
    exact (if_pos ⟨hl, (isDigit_iff b).1 hd⟩).symm

theorem Block.highByte_phase : (k.highByte b).phase = k.phase := by
  obtain ⟨-, hk⟩ | ⟨-, hk⟩ := k.highByte_cases b <;> rw [hk] <;> rfl

/-- At the end of the payload `N` bytes were read, so the two toggles are the low bits of `N` (R51 item 4, R151). -/
theorem Block.Inv.nacc_mod_four (h : k.Inv) (hp : k.phase = .payload) (hrem : k.rdrem = 0) :
    k.nacc.toNat % 4 = 0 ↔ k.bsel = false ∧ k.ssel = false := by
  obtain ⟨-, hsum, -, hbs, hss, -, -⟩ := h.payload hp
  have hgot : k.rdgot.toNat = k.nacc.toNat := by simpa [hrem] using hsum
  rw [hbs, hss, hgot]
  simp only [decide_eq_false_iff_not]
  omega

theorem Block.Inv.finish_phase (h : k.Inv) (hp : k.phase = .payload) (hrem : k.rdrem = 0) :
    k.finish.phase = if k.nacc.toNat % 4 = 0 then .done else .failed := by
  simp only [h.nacc_mod_four hp hrem]
  obtain ⟨hb, hk⟩ | ⟨hb, hs, hk⟩ | ⟨hb, hs, hk⟩ := k.finish_cases
  · simp [hk, hb]
  · simp [hk, hb, hs]
  · simp [hk, hb, hs]

end

/-- Settles O39: of the ways an operation can change the block (`exec_blockChange`), `START` acts from the phases that
are not busy, and each of the block's own moves leaves the phase its lemma above says. -/
theorem phaseTransitionsAreTheListed : Obligations.PhaseTransitionsAreTheListed := by
  intro i s t hinv h
  cases exec_blockChange h with
  | kept _ hk => exact .inl (by rw [hk])
  | reset hi hk => exact .inr (.inl ⟨hi, by rw [hk]; rfl⟩)
  | start hi hb hk => exact .inr (.inr (.inl ⟨hi, s.blk.not_busy_iff.1 hb, by rw [hk]⟩))
  | move hf he hk =>
    rw [hk]
    cases i with
    | rxLcnt b =>
      cases hf
      obtain ⟨hp, -⟩ := (s.blk.enables_rxLcnt b).1 he
      exact .inr (.inr (.inr (.inl ⟨b, rfl, hp, Block.countDigit_phase⟩)))
    | rxLdig b =>
      cases hf
      by_cases hr : s.blk.rdrem = 1
      · have hp := (s.blk.enables_rxLdig b).1 he
        exact .inr (.inr (.inr (.inr (.inl ⟨b, rfl, hp, hr, Block.lengthDigit_phase_last hr⟩))))
      · exact .inl (Block.lengthDigit_phase_more hr)
    | rxTmo =>
      cases hf
      have hp := s.blk.busy_iff.1 (blockMove_busy (i := .rxTmo) rfl he)
      exact .inr (.inr (.inr (.inr (.inr (.inl ⟨rfl, hp, rfl⟩)))))
    | fin =>
      cases hf
      obtain ⟨hp, hrem, -⟩ := s.blk.enables_fin.1 he
      exact .inr (.inr (.inr (.inr (.inr (.inr ⟨rfl, hp, hinv.finish_phase hp hrem⟩)))))
    | rxPhi b => cases hf; exact .inl Block.highByte_phase
    | rxMark _ | rxPlo _ | rlCnt _ | rlCod _ | rlEmit => cases hf; exact .inl rfl
    | _ => simp [blockMove] at hf

end Sys2Proof.Machine
end

-- ==== The run-length decoder ====
section
/-! SUPPORT. The run-length decoder as a function on samples, against the encoder that emits one pair per maximal run
(42_rle_decoder.md R170, R177); what its three operations do to the state (R174 to R176); and the beat of a colour code
as a number (R62, R190). -/

namespace Sys2Proof.Machine

/-! ### The runs, in pair order -/

/-- A sample left over after the last pair is found at the end, whatever came before it (R173). -/
theorem rleDecode_odd : ∀ ss : List Sample, ss.length % 2 = 1 → rleDecode ss = .error .malformedBlock
  | [], h => absurd h (by decide)
  | [_], _ => rfl
  | count :: code :: rest, h => by
    have hrest : rest.length % 2 = 1 := by simp only [List.length_cons] at h; omega
    simp only [rleDecode, rleDecode_odd rest hrest]

theorem length_flatMap_pairRun (pairs : List (Sample × Sample)) :
    (pairs.flatMap pairRun).length = (pairs.map fun p => p.1.toNat).sum := by
  simp [List.length_flatMap, pairRun]

/-- Settles O24: the decoder on pairs, the length of their runs, and the odd sample, by one lemma each. -/
theorem runsInPairOrder : Obligations.RunsInPairOrder :=
  ⟨fun ps => ⟨rleDecode_pairs ps, length_flatMap_pairRun ps⟩, rleDecode_odd⟩

/-! ### The encoder by maximal runs -/

section
variable {code : Sample} {px : List Sample}

/-- The first run has the colour code of the first pixel. -/
theorem head?_maximalRuns (px : List Sample) : (maximalRuns px).head?.map Prod.snd = px.head? := by
  cases px with
  | nil => rfl
  | cons code rest =>
    simp only [maximalRuns]
    split
    · rfl
    next n other more hruns =>
      split
      next heq => subst heq; rfl
      next => rfl

/-- A pixel whose code the next one does not have is a run of its own. -/
theorem maximalRuns_cons_new (h : px.head? ≠ some code) : maximalRuns (code :: px) = (1, code) :: maximalRuns px := by
  rw [← head?_maximalRuns] at h
  simp only [maximalRuns]
  split
  next hnil => rw [hnil]
  next n other more hruns =>
    have hne : code ≠ other := fun heq => h (by rw [hruns, heq]; rfl)
    rw [if_neg hne, hruns]

/-- A pixel before a run of its own code makes it longer by one. -/
theorem maximalRuns_cons_same {n : Nat} {more : List (Nat × Sample)} (h : maximalRuns px = (n, code) :: more) :
    maximalRuns (code :: px) = (n + 1, code) :: more := by
  simp only [maximalRuns, h, if_true]

/-- A run is found whole when what follows it begins with another code. -/
theorem maximalRuns_replicate_append (h : px.head? ≠ some code) (n : Nat) :
    maximalRuns (List.replicate (n + 1) code ++ px) = (n + 1, code) :: maximalRuns px := by
  induction n with
  | zero => exact maximalRuns_cons_new h
  | succ n ih => exact maximalRuns_cons_same ih

end

/-! ### The round trip (R177 item 2) -/

/-- A pair of count 0 contributes nothing (R170). -/
theorem flatMap_pairRun_filter (pairs : List (Sample × Sample)) :
    (pairs.filter fun p => p.1.toNat != 0).flatMap pairRun = pairs.flatMap pairRun := by
  induction pairs with
  | nil => rfl
  | cons p pairs ih =>
    by_cases h : p.1.toNat = 0
    · simp [pairRun, h, ← ih]
    · simp [h, ih]

/-- The side condition of R177 item 2 on neighbours, read off the positions. -/
theorem isChain_ne_of_getElem? {kept : List (Sample × Sample)}
    (h : ∀ (j : Nat) (p q : Sample × Sample), kept[j]? = some p → kept[j + 1]? = some q → p.2 ≠ q.2) :
    kept.IsChain fun p q => p.2 ≠ q.2 :=
  List.isChain_iff_getElem.2 fun j hj =>
    h j _ _ (List.getElem?_eq_getElem (Nat.lt_of_succ_lt hj)) (List.getElem?_eq_getElem hj)

/-- With no count 0 the first pixel is of the first pair. -/
theorem head?_flatMap_pairRun {kept : List (Sample × Sample)} (hpos : ∀ p ∈ kept, p.1.toNat ≠ 0) :
    (kept.flatMap pairRun).head? = kept.head?.map Prod.snd := by
  cases kept with
  | nil => rfl
  | cons p kept =>
    obtain ⟨n, hn⟩ := Nat.exists_eq_succ_of_ne_zero (hpos p List.mem_cons_self)
    simp [pairRun, hn, List.replicate_succ]

/-- The encoder gives back pairs without count 0 and without equal neighbours: each run ends where the next begins. -/
theorem maximalRuns_flatMap_pairRun {kept : List (Sample × Sample)} (hpos : ∀ p ∈ kept, p.1.toNat ≠ 0)
    (hne : kept.IsChain fun p q => p.2 ≠ q.2) :
    maximalRuns (kept.flatMap pairRun) = kept.map fun p => (p.1.toNat, p.2) := by
  induction kept with
  | nil => rfl
  | cons p kept ih =>
    obtain ⟨hp, hpos⟩ := List.forall_mem_cons.1 hpos
    obtain ⟨hnext, hne⟩ := List.isChain_cons.1 hne
    have hhead : (kept.flatMap pairRun).head? ≠ some p.2 := by
      rw [head?_flatMap_pairRun hpos]
      intro h
      obtain ⟨q, hq, hcode⟩ := Option.map_eq_some_iff.1 h
      exact hnext q hq hcode.symm
    obtain ⟨n, hn⟩ := Nat.exists_eq_succ_of_ne_zero hp
    rw [List.flatMap_cons, List.map_cons, pairRun, hn, maximalRuns_replicate_append hhead, ih hpos hne]

/-- Settles O25: the decoded pixels are the runs of the pairs kept, and the encoder gives those pairs back. -/
theorem runsRoundTrip : Obligations.RunsRoundTrip := by
  rintro pairs kept rfl hne
  refine ⟨pairs.flatMap pairRun, rleDecode_pairs pairs, ?_⟩
  rw [← flatMap_pairRun_filter]
  exact maximalRuns_flatMap_pairRun (fun p hp => by simpa using List.of_mem_filter hp) (isChain_ne_of_getElem? hne)

/-! ### The decoder's operations on the state -/

/-- Settles O20: each part has no check beside its guard, which asks for the value of `ssel`. -/
theorem decoderAcceptsSamples : Obligations.DecoderAcceptsSamples := fun smp s hp hrun =>
  ⟨fun hs => exec_enabled (.rlCnt smp) rfl nofun ((s.blk.enables_rlCnt smp).2 ⟨hp, hrun, hs⟩),
    fun hs => exec_enabled (.rlCod smp) rfl nofun ((s.blk.enables_rlCod smp).2 ⟨hp, hrun, hs⟩)⟩

/-! ### The beat as a number -/

/-- Bits taken out at the place `zeros` and put back there are the bits under the mask. -/
theorem shiftRight_mod_shiftLeft_eq_and (x len zeros : Nat) :
    (x >>> zeros % 2 ^ len) <<< zeros = x &&& (2 ^ len - 1) <<< zeros := by
  refine Nat.eq_of_testBit_eq fun i => ?_
  by_cases hi : zeros ≤ i
  · simp [hi, Bool.and_comm]
  · simp [hi]

section
variable (code : Sample)

/-- A field of the code at the top of a byte (R192) is the code shifted there and masked (R190). -/
theorem toNat_field_append_zero {x start len zeros : Nat} (h : x >>> zeros = code.toNat >>> start) :
    (code.extractLsb' start len ++ 0#zeros).toNat = x &&& (2 ^ len - 1) <<< zeros := by
  rw [BitVec.toNat_append, BitVec.extractLsb'_toNat, ← h, BitVec.toNat_ofNat, Nat.zero_mod, Nat.or_zero,
    shiftRight_mod_shiftLeft_eq_and]

theorem toRgb888_r_toNat : (toRgb888 code).r.toNat = (code.toNat >>> 8) &&& 0xF8 :=
  toNat_field_append_zero code (Nat.shiftRight_add _ 8 3).symm

theorem toRgb888_g_toNat : (toRgb888 code).g.toNat = (code.toNat >>> 3) &&& 0xFC :=
  toNat_field_append_zero code (Nat.shiftRight_add _ 3 2).symm

theorem toRgb888_b_toNat : (toRgb888 code).b.toNat = (code.toNat <<< 3) &&& 0xF8 :=
  toNat_field_append_zero code (Nat.shiftLeft_shiftRight _ 3)

/-- The first channel stands at the high end of the beat (R62). -/
theorem packBeat_toNat (p : Rgb) : (packBeat p).toNat = p.r.toNat * 65536 + p.g.toNat * 256 + p.b.toNat := by
  rw [packBeat, BitVec.toNat_append, BitVec.toNat_append, ← Nat.shiftLeft_add_eq_or_of_lt p.g.isLt,
    ← Nat.shiftLeft_add_eq_or_of_lt p.b.isLt, Nat.shiftLeft_eq, Nat.shiftLeft_eq]
  omega

/-- The beat of a colour code, each channel by the formula of R190. -/
theorem beatOf_toNat : (beatOf code).toNat = ((code.toNat >>> 8) &&& 0xF8) * 65536
    + ((code.toNat >>> 3) &&& 0xFC) * 256 + ((code.toNat <<< 3) &&& 0xF8) := by
  rw [beatOf, packBeat_toNat, toRgb888_r_toNat, toRgb888_g_toNat, toRgb888_b_toNat]

end

/-- Settles O21: `exec_rlEmit` with its guard, and the beat of the run's code as a number. -/
theorem emitAppendsOneBeat : Obligations.EmitAppendsOneBeat := by
  intro s hp hrun
  have he : s.blk.sel.enables .rlEmit = true := s.blk.enables_rlEmit.2 ⟨hp, (BitVec.pos_iff_ne_zero _).1 hrun⟩
  exact ⟨beatOf s.blk.runcode, beatOf_toNat s.blk.runcode, (exec_rlEmit s).2 ⟨he, rfl⟩⟩

end Sys2Proof.Machine
end

-- ==== The colour unpacker ====
section
/-! SUPPORT. The colour unpacker as an operation (43_color_unpacker.md R191), what stands in the lanes of its channels
(R192), and the way back from the channels, and from the beat, to the code (R193). -/

namespace Sys2Proof.Machine

theorem exec_ccRgb (code : Sample) (s : State) : exec (.ccRgb code) s = .next { s with rgb := beatOf code } := rfl

/-- Settles O22: the operation writes the beat of its operand, and that beat as a number is `beatOf_toNat`. -/
theorem unpackerFollowsTheFormulas : Obligations.UnpackerFollowsTheFormulas := fun code s =>
  ⟨beatOf code, beatOf_toNat code, exec_ccRgb code s⟩

/-! ### The lanes of a channel -/

/-- A field above vacated low bits has nothing in common with a mask of those bits (R192). -/
theorem append_zero_and_zero_append {len zeros : Nat} (field : BitVec len) (mask : BitVec zeros) :
    (field ++ 0#zeros) &&& (0#len ++ mask) = 0#(len + zeros) := by
  rw [BitVec.and_append, BitVec.and_zero, BitVec.zero_and, BitVec.zero_append_zero]

section
variable (code : Sample)

theorem toRgb888_r_and_low : (toRgb888 code).r &&& 0x07 = 0 :=
  append_zero_and_zero_append (code.extractLsb' 11 5) 0b111#3

theorem toRgb888_g_and_low : (toRgb888 code).g &&& 0x03 = 0 :=
  append_zero_and_zero_append (code.extractLsb' 5 6) 0b11#2

theorem toRgb888_b_and_low : (toRgb888 code).b &&& 0x07 = 0 :=
  append_zero_and_zero_append (code.extractLsb' 0 5) 0b111#3

theorem toRgb888_r_high : (toRgb888 code).r.extractLsb' 3 5 = code.extractLsb' 11 5 :=
  BitVec.extractLsb'_append_eq_left

theorem toRgb888_g_high : (toRgb888 code).g.extractLsb' 2 6 = code.extractLsb' 5 6 :=
  BitVec.extractLsb'_append_eq_left

theorem toRgb888_b_high : (toRgb888 code).b.extractLsb' 3 5 = code.extractLsb' 0 5 :=
  BitVec.extractLsb'_append_eq_left

/-- The three fields of R96, from the high end, are the code. -/
theorem append_fields : code.extractLsb' 11 5 ++ code.extractLsb' 5 6 ++ code.extractLsb' 0 5 = code := by
  have hrg : code.extractLsb' 11 5 ++ code.extractLsb' 5 6 = code.extractLsb' 5 11 :=
    BitVec.extractLsb'_append_extractLsb'_eq_extractLsb' rfl
  rw [hrg]
  exact BitVec.extractLsb'_append_extractLsb'

end

/-! ### The way back to the code -/

/-- The code read off the high bits of the channels: `{R8[7:3], G8[7:2], B8[7:3]}` (R193). -/
def codeOfRgb (p : Rgb) : Sample := p.r.extractLsb' 3 5 ++ p.g.extractLsb' 2 6 ++ p.b.extractLsb' 3 5

theorem codeOfRgb_toRgb888 (code : Sample) : codeOfRgb (toRgb888 code) = code := by
  rw [codeOfRgb, toRgb888_r_high, toRgb888_g_high, toRgb888_b_high, append_fields]

theorem toRgb888_injective : Function.Injective toRgb888 :=
  Function.LeftInverse.injective codeOfRgb_toRgb888

/-- A beat keeps its channels apart: they are its bytes (R62). -/
theorem packBeat_injective : Function.Injective packBeat := by
  intro p q h
  have hbytes : [p.r, p.g, p.b] = [q.r, q.g, q.b] := by
    rw [← beatBytes_packBeat p, ← beatBytes_packBeat q, h]
  cases p; cases q
  simpa using hbytes

theorem beatOf_injective : Function.Injective beatOf := packBeat_injective.comp toRgb888_injective

/-- Settles O23: the lanes of each channel, the code read back from their high bits, and injectivity, which follows
from the reading back. -/
theorem unpackerIsInjective : Obligations.UnpackerIsInjective := fun code =>
  ⟨toRgb888_r_and_low code, toRgb888_g_and_low code, toRgb888_b_and_low code, codeOfRgb_toRgb888 code,
    fun _ h => beatOf_injective h⟩

end Sys2Proof.Machine
end

-- ==== The end-state table ====
section
/-! SUPPORT. The table of R203 read case by case, and the function `Capture` against it (44_block_level_function.md). -/

namespace Sys2Proof.Machine

/-! ### The payload's bytes as pairs (R95) -/

/-- The bytes after the last complete pair give no pixel. -/
theorem expandPairs_of_length_lt {tail : List Byte} (h : tail.length < 4) : expandPairs tail = [] := by
  match tail, h with
  | [], _ | [_], _ | [_, _], _ | [_, _, _], _ => rfl

/-- The complete pairs are expanded, whatever part of a pair follows them (R201 item 2). -/
theorem expandPairs_pairBytes_append (pairs : List (Sample × Sample)) {tail : List Byte} (h : tail.length < 4) :
    expandPairs (pairs.flatMap pairBytes ++ tail) = pairs.flatMap pairRun := by
  induction pairs with
  | nil => exact expandPairs_of_length_lt h
  | cons p pairs ih =>
    simp only [List.flatMap_cons, pairBytes, List.cons_append, List.nil_append, expandPairs, word16_bytes,
      pairRun] at ih ⊢
    rw [ih]

theorem length_samplesOf : ∀ body : List Byte, (samplesOf body).length = body.length / 2
  | [] => rfl
  | [_] => by simp [samplesOf]
  | lo :: hi :: rest => by
    simp only [samplesOf, List.length_cons, length_samplesOf rest]
    omega

/-- On whole pairs the decoder gives the pixels of the table (R170, R203). -/
theorem rleDecode_samplesOf : ∀ body : List Byte, body.length % 4 = 0 →
    rleDecode (samplesOf body) = .ok (expandPairs body)
  | [], _ => rfl
  | [_], h | [_, _], h | [_, _, _], h => by simp at h
  | c0 :: c1 :: k0 :: k1 :: rest, h => by
    have hrest : rest.length % 4 = 0 := by simp only [List.length_cons] at h; omega
    simp only [samplesOf, rleDecode, rleDecode_samplesOf rest hrest, expandPairs]

/-! ### The rows -/

/-- What `Capture` makes of a row of the table (R201 items 1 and 2). -/
def EndState.outcome (e : EndState) : Except ErrKind (List Sample × List Byte) :=
  if e.phase = .done then .ok (e.pixels, convert e.pixels) else .error e.err

section
variable {l n : Nat} {rest body : List Byte}

theorem payloadEnd_short (h : body.length < n) : payloadEnd l n body =
    ⟨.failed, shortKind body.length, .tmoPayload, 2 + l + body.length, expandPairs body, n, body.length⟩ :=
  if_pos h

/-- A payload that arrived whole ends by its number of bytes, bytes before samples (R152). -/
theorem payloadEnd_whole (h : n ≤ body.length) : payloadEnd l n body =
    if n % 2 = 1 then ⟨.failed, .malformedBlock, .oddBytes, 2 + l + n, expandPairs (body.take n), 0, 0⟩
    else if n % 4 = 2 then ⟨.failed, .malformedBlock, .oddSamples, 2 + l + n, expandPairs (body.take n), 0, 0⟩
    else ⟨.done, .none, .none, 2 + l + n, expandPairs (body.take n), 0, 0⟩ :=
  if_neg h.not_gt

theorem lengthEnd_short (h : rest.length < l) : lengthEnd l rest =
    ⟨.failed, shortKind rest.length, .tmoLength, 2 + rest.length, [], l, rest.length⟩ :=
  if_pos h

theorem lengthEnd_whole (h : l ≤ rest.length) : lengthEnd l rest =
    if (rest.take l).all isDigit then payloadEnd l (decVal (rest.take l)) (rest.drop l)
    else ⟨.failed, .malformedBlock, .badLenDigit, 2 + l, [], 0, 0⟩ :=
  if_neg h.not_gt

end

/-! ### Every row is done or failed (R203) -/

theorem payloadEnd_phase (l n : Nat) (body : List Byte) :
    (payloadEnd l n body).phase = .done ∨ (payloadEnd l n body).phase = .failed := by
  unfold payloadEnd
  split_ifs <;> simp

theorem lengthEnd_phase (l : Nat) (rest : List Byte) :
    (lengthEnd l rest).phase = .done ∨ (lengthEnd l rest).phase = .failed := by
  unfold lengthEnd
  split_ifs
  · exact .inr rfl
  · exact payloadEnd_phase _ _ _
  · exact .inr rfl

theorem endOf_phase (bs : List Byte) : (endOf bs).phase = .done ∨ (endOf bs).phase = .failed := by
  match bs with
  | [] | [_] => exact .inr rfl
  | _ :: c :: rest =>
    simp only [endOf]
    split_ifs
    · exact lengthEnd_phase _ _
    · exact .inr rfl

/-! ### `Capture` (R200) -/

theorem takeBytes_short {k : Nat} {bs : List Byte} (h : bs.length < k) :
    takeBytes k bs = .error (shortKind bs.length) :=
  if_pos h

theorem takeBytes_whole {k : Nat} {bs : List Byte} (h : k ≤ bs.length) :
    takeBytes k bs = .ok (bs.take k, bs.drop k) :=
  if_neg h.not_gt

section
variable {bs : List Byte}

theorem capture_of_parseBlock_error {e : ErrKind} (h : parseBlock bs = .error e) : capture bs = .error e := by
  simp only [capture, h]

/-- An even payload is captured by its samples: whole pairs give their pixels, a sample left over none (R173). -/
theorem capture_of_parseBlock_samples {body : List Byte} (h : parseBlock bs = .ok (samplesOf body))
    (heven : body.length % 2 = 0) :
    capture bs = if body.length % 4 = 2 then .error .malformedBlock
      else .ok (expandPairs body, convert (expandPairs body)) := by
  split_ifs with h4
  · have hodd : (samplesOf body).length % 2 = 1 := by rw [length_samplesOf]; omega
    simp only [capture, h, rleDecode_odd _ hodd]
  · simp only [capture, h, rleDecode_samplesOf body (by omega)]

end

section
variable {marker c : Byte} {rest : List Byte}

theorem takeBytes_two : takeBytes 2 (marker :: c :: rest) = .ok ([marker, c], rest) :=
  takeBytes_append (xs := [marker, c]) rfl rest

theorem parseBlock_badCount (hc : isCountDigit c = false) :
    parseBlock (marker :: c :: rest) = .error .malformedBlock := by
  simp [parseBlock, takeBytes_two, hc]

theorem parseBlock_shortLength (hc : isCountDigit c = true) (h : rest.length < (digitVal c).toNat) :
    parseBlock (marker :: c :: rest) = .error (shortKind rest.length) := by
  simp [parseBlock, takeBytes_two, hc, takeBytes_short h]

theorem parseBlock_badDigit (hc : isCountDigit c = true) (h : (digitVal c).toNat ≤ rest.length)
    (hd : (rest.take (digitVal c).toNat).all isDigit = false) :
    parseBlock (marker :: c :: rest) = .error .malformedBlock := by
  simp only [parseBlock, takeBytes_two, List.getD_cons_succ, List.getD_cons_zero, hc, if_true, takeBytes_whole h, hd,
    Bool.false_eq_true, if_false]

/-- Once the length field is read, the payload decides (R141). -/
theorem parseBlock_payload (hc : isCountDigit c = true) (h : (digitVal c).toNat ≤ rest.length)
    (hd : (rest.take (digitVal c).toNat).all isDigit = true) {n : Nat} (hn : n = decVal (rest.take (digitVal c).toNat))
    {body : List Byte} (hbody : body = rest.drop (digitVal c).toNat) :
    parseBlock (marker :: c :: rest) = if body.length < n then .error (shortKind body.length)
      else if n % 2 = 1 then .error .malformedBlock else .ok (samplesOf (body.take n)) := by
  subst hn hbody
  simp only [parseBlock, takeBytes_two, List.getD_cons_succ, List.getD_cons_zero, hc, if_true, takeBytes_whole h, hd]
  obtain hlt | hle := lt_or_ge (rest.drop (digitVal c).toNat).length (decVal (rest.take (digitVal c).toNat))
  · rw [takeBytes_short hlt, if_pos hlt]
  · rw [takeBytes_whole hle, if_neg hle.not_gt]

/-- The payload's rows are what `Capture` makes of the payload. -/
theorem capture_payload {l n : Nat} {body bs : List Byte} (h : parseBlock bs =
      if body.length < n then .error (shortKind body.length)
      else if n % 2 = 1 then .error .malformedBlock else .ok (samplesOf (body.take n))) :
    capture bs = (payloadEnd l n body).outcome := by
  by_cases hlt : body.length < n
  · rw [if_pos hlt] at h
    rw [capture_of_parseBlock_error h, payloadEnd_short hlt]
    rfl
  · have hle := not_lt.1 hlt
    rw [if_neg hlt] at h
    rw [payloadEnd_whole hle]
    by_cases h2 : n % 2 = 1
    · rw [if_pos h2] at h ⊢
      rw [capture_of_parseBlock_error h]
      rfl
    · rw [if_neg h2] at h ⊢
      have hlen : (body.take n).length = n := List.length_take_of_le hle
      rw [capture_of_parseBlock_samples h (by omega), hlen]
      split_ifs <;> rfl

end

/-- The two forms of the end state are one function of the input (R200, R203). -/
theorem capture_eq_outcome (bs : List Byte) : capture bs = (endOf bs).outcome := by
  match bs with
  | [] | [_] => rfl
  | marker :: c :: rest =>
    cases hc : isCountDigit c with
    | false =>
      rw [capture_of_parseBlock_error (parseBlock_badCount hc)]
      simp [endOf, hc, EndState.outcome]
    | true =>
      have hend : endOf (marker :: c :: rest) = lengthEnd (digitVal c).toNat rest := if_pos hc
      rw [hend]
      obtain hlt | hle := lt_or_ge rest.length (digitVal c).toNat
      · rw [capture_of_parseBlock_error (parseBlock_shortLength hc hlt), lengthEnd_short hlt]
        rfl
      · rw [lengthEnd_whole hle]
        cases hd : (rest.take (digitVal c).toNat).all isDigit with
        | false =>
          rw [capture_of_parseBlock_error (parseBlock_badDigit hc hle hd)]
          rfl
        | true => exact capture_payload (parseBlock_payload hc hle hd rfl rfl)

theorem convert_eq_beatBytes_map (px : List Sample) : convert px = (px.map beatOf).flatMap beatBytes := by
  rw [convert_eq_flatMap_beatBytes, List.flatMap_map]

/-- Settles O50: `Capture` is the outcome of the row (`capture_eq_outcome`), and a row is done or failed. -/
theorem captureAgreesWithTheEndTable : Obligations.CaptureAgreesWithTheEndTable := by
  intro bs
  rw [capture_eq_outcome, EndState.outcome]
  obtain hp | hp := endOf_phase bs
  · simp [hp, convert_eq_beatBytes_map, eq_comm]
  · simp [hp]

end Sys2Proof.Machine
end

-- ==== What the block has received ====
section
/-! SUPPORT. What a busy block holds of the bytes it has taken since `START`, operation by operation, and the row of
R203 it is in when it ends. -/

namespace Sys2Proof.Machine

/-! ### Digits and samples as they arrive -/

/-- The next digit moves the value read so far one place up (R65). -/
theorem decVal_concat (digits : List Byte) (b : Byte) :
    decVal (digits ++ [b]) = decVal digits * 10 + (digitVal b).toNat := by
  simp [decVal]

/-- In a good block the decimal accumulation does not wrap (R27, R147). -/
theorem Block.Inv.accumulate_toNat {k : Block} {b : Byte} (h : k.Inv) (hp : k.phase = .length)
    (hd : isDigit b = true) : (k.accumulate b).toNat = k.nacc.toNat * 10 + (digitVal b).toNat := by
  have hl := h.lcntBound
  obtain ⟨-, -, hsum, hrem, -⟩ := h.length hp
  obtain ⟨hlt, -⟩ := h.lengthAux hp
  have h8 : 10 ^ k.rdgot.toNat ≤ 10 ^ 8 := Nat.pow_le_pow_right (by decide) (by omega)
  have hv := digitVal_toNat ((isDigit_iff b).1 hd)
  rw [isDigit_iff] at hd
  have hten : (10 : BitVec 30).toNat = 10 := rfl
  rw [Block.accumulate, if_pos ((isDigit_iff b).2 hd), BitVec.toNat_add, BitVec.toNat_mul, BitVec.toNat_setWidth, hten]
  omega

/-- The two bytes of a sample (R64). -/
theorem word16_low (lo hi : Byte) : (word16 lo hi).extractLsb' 0 8 = lo := by
  rw [word16, BitVec.extractLsb'_append_eq_of_add_le (by decide)]
  exact BitVec.extractLsb'_eq_self

theorem word16_high (lo hi : Byte) : (word16 lo hi).extractLsb' 8 8 = hi := by
  rw [word16, BitVec.extractLsb'_append_eq_of_le (by decide)]
  exact BitVec.extractLsb'_eq_self

/-- The bytes of the pair in progress: those of its count once that is complete (R32), and the low byte held (R31). -/
def Block.pending (k : Block) : List Byte :=
  (bif k.ssel then [k.cnt.extractLsb' 0 8, k.cnt.extractLsb' 8 8] else []) ++ bif k.bsel then [k.lobyte] else []

theorem Block.length_pending (k : Block) : k.pending.length = 2 * k.ssel.toNat + k.bsel.toNat := by
  cases hs : k.ssel <;> cases hb : k.bsel <;> simp [Block.pending, hs, hb]

theorem Block.length_pending_lt (k : Block) : k.pending.length < 4 := by
  have hs := Bool.toNat_le k.ssel
  have hb := Bool.toNat_le k.bsel
  rw [k.length_pending]
  omega

/-! ### The table on a block cut at the end of its length field -/

section
variable {marker c : Byte} {digits : List Byte}

theorem endOf_digits (hc : isCountDigit c = true) (hl : digits.length = (digitVal c).toNat) (rest : List Byte) :
    endOf (marker :: c :: digits ++ rest) =
      if digits.all isDigit then payloadEnd digits.length (decVal digits) rest
      else ⟨.failed, .malformedBlock, .badLenDigit, 2 + digits.length, [], 0, 0⟩ := by
  have hend : endOf (marker :: c :: digits ++ rest) = lengthEnd (digitVal c).toNat (digits ++ rest) := if_pos hc
  rw [hend, ← hl, lengthEnd_whole (by simp), List.take_left, List.drop_left]

theorem endOf_payload (hc : isCountDigit c = true) (hl : digits.length = (digitVal c).toNat)
    (hd : digits.all isDigit = true) (body : List Byte) :
    endOf (marker :: c :: digits ++ body) = payloadEnd digits.length (decVal digits) body := by
  rw [endOf_digits hc hl, if_pos hd]

end

/-! ### The block and the bytes taken -/

/-- What the block `k` and the beats it has sent are, by phase, after it has taken the bytes of the list since `START`:
what `Block.Inv` says of the counters is not said again. In the payload every complete pair is in the output, but for
the pixels still owed. -/
inductive Received (k : Block) (beats : List Beat) : List Byte → Prop
  | opening {taken : List Byte} (hp : k.phase = .pfx) (hgot : taken.length = k.rdgot.toNat) (hbeats : beats = []) :
      Received k beats taken
  | length {marker c : Byte} {digits : List Byte} (hp : k.phase = .length) (hc : isCountDigit c = true)
      (hl : k.lcnt = digitVal c) (hgot : digits.length = k.rdgot.toNat) (hbad : k.lenbad = !digits.all isDigit)
      (hn : digits.all isDigit = true → k.nacc.toNat = decVal digits) (hbeats : beats = []) :
      Received k beats (marker :: c :: digits)
  | payload (marker : Byte) {c : Byte} {digits taken : List Byte} {pairs : List (Sample × Sample)}
      (hp : k.phase = .payload) (hc : isCountDigit c = true) (hl : k.lcnt = digitVal c)
      (hlen : digits.length = (digitVal c).toNat) (hd : digits.all isDigit = true) (hn : k.nacc.toNat = decVal digits)
      (htaken : taken = marker :: c :: digits ++ (pairs.flatMap pairBytes ++ k.pending))
      (hgot : (pairs.flatMap pairBytes ++ k.pending).length = k.rdgot.toNat)
      (hpix : k.pixcnt.toNat = beats.length)
      (hbeats : beats ++ List.replicate k.runrem.toNat (beatOf k.runcode) = (pairs.flatMap pairRun).map beatOf) :
      Received k beats taken

/-- The block `k` with its beats has ended, in the row of the table for `bs`, right after the bytes `taken` and by no
timeout. -/
def EndsAfter (bs taken : List Byte) (k : Block) (beats : List Beat) : Prop :=
  (endOf bs).describes k ∧ beats = (endOf bs).pixels.map beatOf ∧ (endOf bs).expect = 0 ∧
    (endOf bs).consumed = taken.length

section
variable {k : Block} {beats : List Beat} {taken : List Byte} {b : Byte}

theorem Received.busy (h : Received k beats taken) : k.busy = true := by
  rw [Block.busy_iff]
  cases h with
  | opening hp => exact .inl hp
  | length hp => exact .inr (.inl hp)
  | payload _ hp => exact .inr (.inr hp)

/-- Right after `START` nothing has been taken and nothing sent (R121). -/
theorem received_armed : Received Block.armed [] [] := .opening rfl rfl rfl

/-! ### A byte is taken -/

theorem Received.mark (h : Received k beats taken) (hp : k.phase = .pfx) (hg : k.rdgot = 0) :
    Received { k with marker := b, consumed := k.consumed + 1, rdgot := 1, rdrem := 1 } beats (taken ++ [b]) := by
  cases h with
  | length hp' | payload _ hp' => simp [hp] at hp'
  | opening _ hgot hbeats =>
    obtain rfl : taken = [] := by simpa [hg] using hgot
    exact .opening hp rfl hbeats

theorem Received.countDigit (h : Received k beats taken) (hinv : k.Inv) (hp : k.phase = .pfx) (hg : k.rdgot = 1)
    (left : List Byte) : Received (k.countDigit b) beats (taken ++ [b]) ∨
      EndsAfter (taken ++ b :: left) (taken ++ [b]) (k.countDigit b) beats := by
  cases h with
  | length hp' | payload _ hp' => simp [hp] at hp'
  | opening _ hgot hbeats =>
    obtain ⟨marker, rfl⟩ : ∃ marker, taken = [marker] := List.length_eq_one_iff.1 (by simpa [hg] using hgot)
    have hs := hinv.consumed_succ (k.inReady_iff.2 (.inl hp))
    obtain ⟨-, -, hc, -, hn, hx⟩ := hinv.pfx hp
    obtain ⟨-, -, -, hlb⟩ := hinv.pfxAux hp
    obtain ⟨-, -, hexp, hact⟩ := hinv.noError (by simp [hp])
    obtain ⟨hd, hk⟩ | ⟨hd, hk⟩ := k.countDigit_cases b <;> rw [hk]
    · exact .inl (.length (digits := []) rfl hd rfl rfl hlb (fun _ => by simp [hn, decVal]) hbeats)
    · have hrow : endOf ([marker] ++ b :: left) = ⟨.failed, .malformedBlock, .badLcnt, 2, [], 0, 0⟩ :=
        if_neg (by simp [hd])
      rw [EndsAfter, hrow]
      have hone : k.consumed.toNat = 1 := by rw [hc, hg]; rfl
      exact .inr ⟨⟨rfl, rfl, rfl, hs.trans (congrArg Nat.succ hone), by simp [hx], by simp [hexp], by simp [hact]⟩,
        hbeats, rfl, rfl⟩

theorem Received.lengthDigit (h : Received k beats taken) (hinv : k.Inv) (hp : k.phase = .length)
    (left : List Byte) : Received (k.lengthDigit b) beats (taken ++ [b]) ∨
      EndsAfter (taken ++ b :: left) (taken ++ [b]) (k.lengthDigit b) beats := by
  cases h with
  | opening hp' | payload _ hp' => simp [hp] at hp'
  | @length marker c digits _ hc hl hgot hbad hn hbeats =>
    have hs := hinv.consumed_succ (k.inReady_iff.2 (.inr (.inl hp)))
    obtain ⟨-, h9, hsum, hrem, hc2, hx⟩ := hinv.length hp
    obtain ⟨-, hrun, -, -⟩ := hinv.lengthAux hp
    obtain ⟨-, -, hexp, hact⟩ := hinv.noError (by simp [hp])
    have hall : (digits ++ [b]).all isDigit = (digits.all isDigit && isDigit b) := by simp
    have hg : (digits ++ [b]).length = (k.rdgot + 1).toNat := by
      rw [List.length_append, hgot]
      simp only [List.length_singleton]
      bv_omega
    have hval : (digits ++ [b]).all isDigit = true → (k.accumulate b).toNat = decVal (digits ++ [b]) := by
      rw [hall, Bool.and_eq_true, decVal_concat]
      rintro ⟨hds, hb⟩
      rw [hinv.accumulate_toNat hp hb, hn hds]
    have hlen : k.rdrem = 1 → (digits ++ [b]).length = (digitVal c).toNat := by
      intro hr
      have hr1 : k.rdrem.toNat = 1 := by simp [hr]
      rw [← hl, List.length_append, List.length_singleton]
      omega
    obtain ⟨hr, hk⟩ | ⟨hr, hwrong, hk⟩ | ⟨hr, hgood, hb, hk⟩ := k.lengthDigit_cases b <;> rw [hk]
    · exact .inl (.length (digits := digits ++ [b]) hp hc hl hg (by simp [hbad]) hval hbeats)
    · have hall' : (digits ++ [b]).all isDigit = false := by
        rw [hall, Bool.and_eq_false_iff]
        exact hwrong.imp_left fun h => by simpa only [h, Bool.true_eq, Bool.not_eq_true'] using hbad
      have hrow : endOf (marker :: c :: digits ++ b :: left) =
          ⟨.failed, .malformedBlock, .badLenDigit, 2 + (digits ++ [b]).length, [], 0, 0⟩ := by
        have h := endOf_digits (marker := marker) hc (hlen hr) left
        rw [hall', if_neg Bool.false_ne_true] at h
        simpa using h
      rw [EndsAfter, hrow]
      refine .inr ⟨⟨rfl, rfl, rfl, ?_, by simp [hx], by simp [hexp], by simp [hact]⟩, hbeats, rfl, ?_⟩
      · exact hs.trans (by rw [hc2, List.length_append, hgot]; rfl)
      · simp only [List.length_append, List.length_cons]
        omega
    · have hds : digits.all isDigit = true := by simpa [hgood] using hbad
      have hall' : (digits ++ [b]).all isDigit = true := by rw [hall, hds, hb]; rfl
      refine .inl (.payload marker (digits := digits ++ [b]) (pairs := []) rfl hc hl (hlen hr) hall'
        (hval hall') ?_ rfl ?_ ?_)
      · simp [Block.pending]
      · simp [hx, hbeats]
      · simp [hrun, hbeats]

theorem Received.lowByte (h : Received k beats taken) (hinv : k.Inv) (hp : k.phase = .payload) (hrem : k.rdrem ≠ 0)
    (hrun : k.runrem = 0) (hb : k.bsel = false) :
    Received { k.takeByte with lobyte := b, bsel := true } beats (taken ++ [b]) := by
  cases h with
  | opening hp' | length hp' => simp [hp] at hp'
  | payload marker _ hc hl hlen hd hn htaken hgot hpix hbeats =>
    obtain ⟨hg, -, -⟩ := hinv.takeByte_counts hp hrem hrun
    have hpend : ({ k.takeByte with lobyte := b, bsel := true } : Block).pending = k.pending ++ [b] := by
      simp [Block.pending, hb]
    refine .payload marker hp hc hl hlen hd hn ?_ ?_ hpix hbeats <;> rw [hpend]
    · simp [htaken]
    · simp only [Block.takeByte_rdgot, hg, ← hgot, List.length_append, List.length_singleton, Nat.add_assoc]

theorem Received.highByte (h : Received k beats taken) (hinv : k.Inv) (hp : k.phase = .payload) (hrem : k.rdrem ≠ 0)
    (hrun : k.runrem = 0) (hb : k.bsel = true) : Received (k.highByte b) beats (taken ++ [b]) := by
  cases h with
  | opening hp' | length hp' => simp [hp] at hp'
  | @payload marker c digits _ pairs _ hc hl hlen hd hn htaken hgot hpix hbeats =>
    obtain ⟨hg, -, -⟩ := hinv.takeByte_counts hp hrem hrun
    have hgot' : (pairs.flatMap pairBytes ++ (k.pending ++ [b])).length = (k.rdgot + 1).toNat := by
      rw [hg, ← hgot, ← List.append_assoc, List.length_append (bs := [b])]
      rfl
    obtain ⟨hs, hk⟩ | ⟨hs, hk⟩ := k.highByte_cases b <;> rw [hk]
    · have hpend : ({ k.takeByte with bsel := false, cnt := word16 k.lobyte b, ssel := true } : Block).pending =
          k.pending ++ [b] := by
        simp [Block.pending, hb, hs, word16_low, word16_high]
      refine .payload marker hp hc hl hlen hd hn ?_ ?_ hpix hbeats <;> rw [hpend]
      · simp [htaken]
      · exact hgot'
    · have hpair : (pairs ++ [(k.cnt, word16 k.lobyte b)]).flatMap pairBytes =
          pairs.flatMap pairBytes ++ (k.pending ++ [b]) := by
        simp [Block.pending, pairBytes, hb, hs, word16_low, word16_high]
      have hpend : ({ k.takeByte with
          bsel := false, runcode := word16 k.lobyte b, runrem := k.cnt, ssel := false } : Block).pending = [] := rfl
      refine .payload marker (pairs := pairs ++ [(k.cnt, word16 k.lobyte b)]) hp hc hl hlen hd hn ?_ ?_ hpix ?_
      · rw [hpair, hpend, htaken]; simp
      · rw [hpair, hpend, List.append_nil]; exact hgot'
      · have hsent : beats = (pairs.flatMap pairRun).map beatOf := by simpa [hrun] using hbeats
        simp [hsent, pairRun]

/-- A byte taken is received, or it ends the block with an error (R144 to R149). -/
theorem Received.takeByte {i : Instr} {f : Block → Block} (h : Received k beats taken) (hinv : k.Inv)
    (hd : decode k.sel (.inByte b) = .op i) (hf : blockMove i = some f) (left : List Byte) :
    Received (f k) beats (taken ++ [b]) ∨ EndsAfter (taken ++ b :: left) (taken ++ [b]) (f k) beats := by
  have he := enables_of_decode_byte hd
  obtain rfl | rfl | rfl | rfl | rfl := decode_byte_not_host hd <;> cases hf
  · obtain ⟨hp, hg⟩ := (k.enables_rxMark b).1 he
    exact .inl (h.mark hp hg)
  · obtain ⟨hp, hg⟩ := (k.enables_rxLcnt b).1 he
    exact h.countDigit hinv hp hg left
  · exact h.lengthDigit hinv ((k.enables_rxLdig b).1 he) left
  · obtain ⟨hp, hrem, hrun, hb⟩ := (k.enables_rxPlo b).1 he
    exact .inl (h.lowByte hinv hp hrem hrun hb)
  · obtain ⟨hp, hrem, hrun, hb⟩ := (k.enables_rxPhi b).1 he
    exact .inl (h.highByte hinv hp hrem hrun hb)

/-! ### A pixel leaves -/

theorem Received.pixelGone (h : Received k beats taken) (hinv : k.Inv) (hp : k.phase = .payload)
    (hrun : k.runrem ≠ 0) : Received k.pixelGone (beats ++ [beatOf k.runcode]) taken := by
  cases h with
  | opening hp' | length hp' => simp [hp] at hp'
  | payload marker _ hc hl hlen hd hn htaken hgot hpix hbeats =>
    obtain ⟨hpx, hrr⟩ := hinv.pixelGone_counts hp hrun
    refine .payload marker hp hc hl hlen hd hn htaken hgot ?_ ?_
    · rw [Block.pixelGone_pixcnt, hpx, hpix, List.length_append]; rfl
    · rw [← hbeats, ← hrr, List.replicate_succ, List.append_assoc]; rfl

/-! ### The block ends -/

/-- The row of a read that times out (R153, R203): `px` are the pixels sent before it. -/
def Block.timeOutRow (k : Block) (px : List Sample) : EndState :=
  ⟨.failed, shortKind k.rdgot.toNat, tmoSub k.phase, k.consumed.toNat, px, k.rdgot.toNat + k.rdrem.toNat,
    k.rdgot.toNat⟩

/-- The bytes a good block's read is of (R141): not 0, and no more than the counters hold. -/
theorem Block.Inv.read_bounds (h : k.Inv) (hr : k.inReady = true) :
    0 < k.rdgot.toNat + k.rdrem.toNat ∧ k.rdgot.toNat + k.rdrem.toNat ≤ 999999999 := by
  have hn := h.naccBound
  obtain hp | hp | ⟨hp, hrem, -⟩ := k.inReady_iff.1 hr
  · have := h.pfx hp; omega
  · have := h.length hp; omega
  · have := h.payload hp; bv_omega

theorem Block.timeOutRow_describes {px : List Sample} (hinv : k.Inv) (hr : k.inReady = true)
    (hpix : k.pixcnt.toNat = px.length) : (k.timeOutRow px).describes k.timeOut := by
  obtain ⟨-, hle⟩ := hinv.read_bounds hr
  refine ⟨rfl, ?_, rfl, rfl, hpix, ?_, ?_⟩
  · have hzero : k.rdgot = 0 ↔ k.rdgot.toNat = 0 := by bv_omega
    simp only [Block.timeOut, Block.timeOutRow, Block.fail_err, shortKind, hzero]
  · simp only [Block.timeOut, Block.timeOutRow, Block.fail_expect, BitVec.toNat_setWidth, BitVec.toNat_add]
    omega
  · simp only [Block.timeOut, Block.timeOutRow, Block.fail_actual, BitVec.toNat_setWidth]
    omega

/-- The table has this row for the bytes taken when no more of them come. -/
theorem Received.endOf_timeOut (h : Received k beats taken) (hinv : k.Inv) (hr : k.inReady = true) :
    ∃ px, endOf taken = k.timeOutRow px ∧ beats = px.map beatOf ∧ k.pixcnt.toNat = px.length := by
  cases h with
  | opening hp hgot hbeats =>
    obtain ⟨hle, hrem, hc, -, -, hx⟩ := hinv.pfx hp
    refine ⟨[], ?_, hbeats, by simp [hx]⟩
    have hsum : k.rdgot.toNat + k.rdrem.toNat = 2 := by omega
    rw [Block.timeOutRow, hp, hc, hsum, ← hgot]
    match taken, hgot ▸ hle with
    | [], _ | [_], _ => rfl
  | @length marker c digits hp hc hl hgot hbad hn hbeats =>
    obtain ⟨-, -, hsum, hrem, hcons, hx⟩ := hinv.length hp
    refine ⟨[], ?_, hbeats, by simp [hx]⟩
    have hlt : digits.length < (digitVal c).toNat := by rw [← hl]; omega
    have hend : endOf (marker :: c :: digits) = lengthEnd (digitVal c).toNat digits := if_pos hc
    rw [hend, lengthEnd_short hlt, Block.timeOutRow, hp, hsum, hcons, hl, hgot]
    rfl
  | @payload marker c digits _ pairs hp hc hl hlen hd hn htaken hgot hpix hbeats =>
    obtain ⟨-, hsum, hcons, -⟩ := hinv.payload hp
    have hready : k.rdrem ≠ 0 ∧ k.runrem = 0 := by simpa [Block.inReady_iff, hp] using hr
    obtain ⟨hrem, hrun⟩ := hready
    have hsent : beats = (pairs.flatMap pairRun).map beatOf := by simpa [hrun] using hbeats
    refine ⟨pairs.flatMap pairRun, ?_, hsent, by rw [hpix, hsent, List.length_map]⟩
    have hlt : (pairs.flatMap pairBytes ++ k.pending).length < decVal digits := by bv_omega
    rw [htaken, endOf_payload hc hlen hd, payloadEnd_short hlt, expandPairs_pairBytes_append _ k.length_pending_lt,
      Block.timeOutRow, hp, hsum, hcons, hgot, hn, hl, hlen]
    rfl

/-- The end-of-block check leaves the block in the row for the payload's length (R152). -/
theorem Received.finish (h : Received k beats taken) (hinv : k.Inv) (hp : k.phase = .payload) (hrem : k.rdrem = 0)
    (hrun : k.runrem = 0) (left : List Byte) : EndsAfter (taken ++ left) taken k.finish beats := by
  cases h with
  | opening hp' | length hp' => simp [hp] at hp'
  | @payload marker c digits _ pairs _ hc hl hlen hd hn htaken hgot hpix hbeats =>
    obtain ⟨herr, hesub, hexp, hact⟩ := hinv.noError (by simp [hp])
    obtain ⟨-, hsum, hcons, hbs, hss, -⟩ := hinv.payload hp
    have hsent : beats = (pairs.flatMap pairRun).map beatOf := by simpa [hrun] using hbeats
    have hpix' : k.pixcnt.toNat = (pairs.flatMap pairRun).length := by rw [hpix, hsent, List.length_map]
    have hgotn : k.rdgot.toNat = decVal digits := by simpa [hrem, hn] using hsum
    have hbody : (pairs.flatMap pairBytes ++ k.pending).length = decVal digits := hgot.trans hgotn
    have hcons' : k.consumed.toNat = 2 + digits.length + decVal digits := by rw [hcons, hl, hlen, hgotn]
    have hlength : taken.length = 2 + digits.length + decVal digits := by
      rw [htaken, ← hbody]
      simp only [List.length_append, List.length_cons]
      omega
    have hrow : endOf (taken ++ left) = payloadEnd digits.length (decVal digits)
        (pairs.flatMap pairBytes ++ k.pending ++ left) := by
      rw [htaken, List.append_assoc, endOf_payload hc hlen hd]
    rw [payloadEnd_whole (by rw [List.length_append]; omega), List.take_left' hbody,
      expandPairs_pairBytes_append _ k.length_pending_lt, ← hgotn] at hrow
    rw [← hgotn] at hcons' hlength
    rw [EndsAfter, hrow]
    obtain ⟨hb, hk⟩ | ⟨hb, hs, hk⟩ | ⟨hb, hs, hk⟩ := k.finish_cases <;> rw [hk]
    · have hodd : k.rdgot.toNat % 2 = 1 := by simpa [hb] using hbs
      rw [if_pos hodd]
      exact ⟨⟨rfl, rfl, rfl, hcons', hpix', by simp [hexp], by simp [hact]⟩, hsent, rfl, hlength.symm⟩
    · have heven : k.rdgot.toNat % 2 = 0 := by simpa [hb] using hbs
      have hhalf : k.rdgot.toNat / 2 % 2 = 1 := by simpa [hs] using hss
      rw [if_neg (by omega), if_pos (by omega)]
      exact ⟨⟨rfl, rfl, rfl, hcons', hpix', by simp [hexp], by simp [hact]⟩, hsent, rfl, hlength.symm⟩
    · have heven : k.rdgot.toNat % 2 = 0 := by simpa [hb] using hbs
      have hhalf : k.rdgot.toNat / 2 % 2 = 0 := by simpa [hs] using hss
      rw [if_neg (by omega), if_neg (by omega)]
      exact ⟨⟨rfl, herr, hesub, hcons', hpix', by simp [hexp], by simp [hact]⟩, hsent, rfl, hlength.symm⟩

end

end Sys2Proof.Machine
end

-- ==== A fair run ends in the row of its input ====
section
/-! SUPPORT. A capture left to itself (R201): every move of the block's side keeps what the block has received or ends
it in its row, every move leaves fewer to come, and a fair round makes one. -/

namespace Sys2Proof.Machine

/-! ### Every move keeps the capture on its way to its row -/

/-- A capture of `bs` in progress: some bytes are taken, the others and the silence after them are to come. -/
def InProgress (bs : List Byte) (c : BlockSide) : Prop :=
  ∃ taken left : List Byte, bs = taken ++ left ∧ c.src.moves = left.map SrcMove.byte ++ [.timeout] ∧ c.blk.Inv ∧
    Received c.blk c.sink.beats taken

/-- A capture of `bs` ended in its row of R203, with the bytes the row counts gone from the stream. -/
def Ended (bs : List Byte) (c : BlockSide) : Prop :=
  (endOf bs).describes c.blk ∧ c.sink.beats = (endOf bs).pixels.map beatOf ∧
    ((endOf bs).expect = 0 → c.src.moves = (bs.drop (endOf bs).consumed).map SrcMove.byte ++ [.timeout]) ∧
    ((endOf bs).expect ≠ 0 → c.src.moves = [])

/-- A capture of `bs`, on its way to the row or in it. -/
def Captures (bs : List Byte) (c : BlockSide) : Prop := InProgress bs c ∨ Ended bs c

section
variable {bs : List Byte} {c c' : BlockSide}

theorem InProgress.busy (h : InProgress bs c) : c.blk.busy = true := by
  obtain ⟨_, _, -, -, -, hrec⟩ := h
  exact hrec.busy

theorem Ended.not_busy (h : Ended bs c) : c.blk.busy = false := by
  obtain ⟨⟨hp, -⟩, -⟩ := h
  rw [Block.not_busy_iff, hp]
  exact .inr (endOf_phase bs)

/-- After `START` the whole input is to come. -/
theorem inProgress_armed (bs : List Byte) (cmds : List CmdOutcome) (images : List Image) :
    InProgress bs ⟨Block.armed, ⟨bs.map SrcMove.byte ++ [.timeout], cmds⟩, ⟨[], images⟩⟩ :=
  ⟨[], bs, rfl, rfl, Block.armed_inv, received_armed⟩

/-- A block that ended by no timeout leaves the bytes it has not taken on the stream (R159). -/
theorem EndsAfter.ended {taken left : List Byte} (h : EndsAfter (taken ++ left) taken c.blk c.sink.beats)
    (hm : c.src.moves = left.map SrcMove.byte ++ [.timeout]) : Ended (taken ++ left) c := by
  obtain ⟨hdesc, hbeats, hexp, hcons⟩ := h
  refine ⟨hdesc, hbeats, fun _ => ?_, fun hne => absurd hexp hne⟩
  rw [hcons, List.drop_left, hm]

/-- A timeout is the last of the stream, and ends the block in the row of the bytes taken (R153). -/
theorem Received.ended_timeOut {k : Block} {beats : List Beat} (h : Received k beats bs) (hinv : k.Inv)
    (hr : k.inReady = true) (cmds : List CmdOutcome) (images : List Image) :
    Ended bs ⟨k.timeOut, ⟨[], cmds⟩, ⟨beats, images⟩⟩ := by
  obtain ⟨px, hrow, hbeats, hpix⟩ := h.endOf_timeOut hinv hr
  obtain ⟨hpos, -⟩ := hinv.read_bounds hr
  have hexp : (endOf bs).expect = k.rdgot.toNat + k.rdrem.toNat := by rw [hrow]; rfl
  refine ⟨hrow ▸ Block.timeOutRow_describes hinv hr hpix, ?_, fun h0 => by omega, fun _ => rfl⟩
  rw [hrow]
  exact hbeats

theorem InProgress.move (h : InProgress bs c) (hmove : c.Move c') : Captures bs c' := by
  obtain ⟨taken, left, rfl, hm, hinv, hrec⟩ := h
  cases hmove with
  | @emit k src sink hout =>
    obtain ⟨hp, hrun⟩ := k.outValid_iff.1 hout
    exact .inl ⟨taken, left, rfl, hm, hinv.pixelGone hp hrun, hrec.pixelGone hinv hp hrun⟩
  | @finish k src sink hfin =>
    obtain ⟨hp, hrem, hrun⟩ := (Sel.finReady_iff _).1 hfin
    exact .inr ((hrec.finish hinv hp hrem hrun left).ended hm)
  | @take k m ms cmds sink i f hd hf =>
    cases left with
    | nil =>
      obtain ⟨rfl, rfl⟩ : m = .timeout ∧ ms = [] := by simpa using hm
      obtain rfl := (decode_port hd).1 rfl
      cases hf
      rw [List.append_nil]
      exact .inr (hrec.ended_timeOut hinv (inReady_of_decode_move hd) cmds sink.committed)
    | cons b left =>
      obtain ⟨rfl, rfl⟩ : m = .byte b ∧ ms = left.map SrcMove.byte ++ [.timeout] := by simpa using hm
      have happ : taken ++ b :: left = taken ++ [b] ++ left := by simp
      obtain hrec' | hend := hrec.takeByte hinv hd hf left
      · have hparts : Laws.eventOf i ≠ .sampleDone := Laws.decode_event hd ▸ nofun
        exact .inl ⟨taken ++ [b], left, happ, rfl, hinv.blockMove hf (enables_of_decode_byte hd) hparts, hrec'⟩
      · rw [happ] at hend ⊢
        exact .inr (hend.ended rfl)

theorem Captures.move (h : Captures bs c) (hmove : c.Move c') : Captures bs c' :=
  h.elim (·.move hmove) fun hend => absurd hmove (BlockSide.not_move_of_not_busy hend.not_busy c')

/-! ### The moves come to an end (R201, R290) -/

/-- No more moves are to come than this: at most 65535 pixels for what is still on the stream, and the end. -/
def BlockSide.movesLeft (c : BlockSide) : Nat :=
  if c.blk.busy then 65536 * c.src.moves.length + c.blk.runrem.toNat + 1 else 0

theorem BlockSide.movesLeft_le (c : BlockSide) :
    c.movesLeft ≤ 65536 * c.src.moves.length + c.blk.runrem.toNat + 1 := by
  unfold BlockSide.movesLeft
  split_ifs
  · exact le_rfl
  · exact Nat.zero_le _

theorem BlockSide.movesLeft_of_busy (h : c.blk.busy = true) :
    c.movesLeft = 65536 * c.src.moves.length + c.blk.runrem.toNat + 1 :=
  if_pos h

theorem BlockSide.movesLeft_of_not_busy (h : c.blk.busy = false) : c.movesLeft = 0 :=
  if_neg (by simp [h])

theorem Block.finish_busy (k : Block) : k.finish.busy = false := by
  rw [Block.not_busy_iff]
  obtain ⟨-, hk⟩ | ⟨-, -, hk⟩ | ⟨-, -, hk⟩ := k.finish_cases <;> simp [hk]

theorem BlockSide.Move.movesLeft_lt (h : c.Move c') : c'.movesLeft < c.movesLeft := by
  have hb : c.blk.busy = true := by
    by_contra hb
    exact BlockSide.not_move_of_not_busy (eq_false_of_ne_true hb) c' h
  rw [BlockSide.movesLeft_of_busy hb]
  have hle := c'.movesLeft_le
  cases h with
  | @emit k src sink hout =>
    obtain ⟨-, hrun⟩ := k.outValid_iff.1 hout
    have hrr : (k.runrem - 1).toNat + 1 = k.runrem.toNat := by bv_omega
    dsimp only [Block.pixelGone_runrem] at hle ⊢
    omega
  | finish =>
    rw [BlockSide.movesLeft_of_not_busy (Block.finish_busy _)]
    exact Nat.succ_pos _
  | @take k m ms cmds sink i f =>
    have hlt := (f k).runrem.isLt
    dsimp only [List.length_cons] at hle ⊢
    omega

/-! ### The turn the block waits for makes the move -/

/-- A busy block waits for the source, the sink or itself (R72). -/
theorem Block.waitsFor_of_busy {k : Block} (h : k.busy = true) :
    ∃ q, k.waitsFor = some q ∧ (q = .source ∨ q = .sink ∨ q = .block) := by
  unfold Block.waitsFor
  split_ifs with hin hout hfin
  · exact ⟨.source, rfl, .inl rfl⟩
  · exact ⟨.sink, rfl, .inr (.inl rfl)⟩
  · exact ⟨.block, rfl, .inr (.inr rfl)⟩
  · rw [Block.inReady_iff] at hin
    rw [Block.outValid_iff] at hout
    rw [Sel.finReady_iff] at hfin
    rw [Block.busy_iff] at h
    simp only [Block.sel_phase, Block.sel_rdrem, Block.sel_runrem] at hfin
    tauto

theorem Block.waitsFor_of_not_busy {k : Block} (h : k.busy = false) : k.waitsFor = none := by
  obtain ⟨hin, hout, hfin⟩ := Block.not_ready_of_not_busy h
  simp [Block.waitsFor, Block.inReady, Block.outValid, hin, hout, hfin]

/-- A good block that is ready takes whatever comes (R60, R100). -/
theorem Block.Inv.decode_move {k : Block} (hinv : k.Inv) (hr : k.inReady = true) (m : SrcMove) :
    ∃ i, decode k.sel m.wire = .op i := by
  cases m with
  | timeout => exact ⟨.rxTmo, if_pos hr⟩
  | byte b =>
    obtain hp | hp | ⟨hp, hrem, hrun⟩ := k.inReady_iff.1 hr
    · obtain ⟨hle, -⟩ := hinv.pfx hp
      obtain hg | hg : k.rdgot = 0 ∨ k.rdgot = 1 := by bv_omega
      · exact ⟨_, decodeOfEncode (.rxMark b) _ rfl ((k.enables_rxMark b).2 ⟨hp, hg⟩)⟩
      · exact ⟨_, decodeOfEncode (.rxLcnt b) _ rfl ((k.enables_rxLcnt b).2 ⟨hp, hg⟩)⟩
    · exact ⟨_, decodeOfEncode (.rxLdig b) _ rfl ((k.enables_rxLdig b).2 hp)⟩
    · cases hb : k.bsel with
      | false => exact ⟨_, decodeOfEncode (.rxPlo b) _ rfl ((k.enables_rxPlo b).2 ⟨hp, hrem, hrun, hb⟩)⟩
      | true => exact ⟨_, decodeOfEncode (.rxPhi b) _ rfl ((k.enables_rxPhi b).2 ⟨hp, hrem, hrun, hb⟩)⟩

end

section
variable {s : State} {q : Turn} {ts : List Turn}

/-- The turn a good block waits for makes the one move there is. -/
theorem step_awaited (hinv : s.blk.Inv) (hne : s.src.moves ≠ []) (hw : s.blk.waitsFor = some q)
    (ht : s.turns = q :: ts) : ∃ t, step s = .next t ∧ t.turns = ts ∧ s.blockSide.Move t.blockSide := by
  unfold Block.waitsFor at hw
  split_ifs at hw with hin hout hfin <;> cases hw
  · obtain ⟨m, ms, hm⟩ := List.exists_cons_of_ne_nil hne
    obtain ⟨i, hd⟩ := hinv.decode_move hin m
    obtain ⟨hi, f, hf⟩ := blockMove_of_decode_move hd
    obtain ⟨-, he, -⟩ := decodeOnlyEnabled _ _ _ hd
    have hside : s.blockSide = ⟨s.blk, ⟨m :: ms, s.src.cmds⟩, s.sink⟩ := by rw [← hm]; rfl
    exact ⟨_, (step_of_fire ht (State.serve_move (.inl rfl) hm) hd).trans (exec_enabled i hf hi he), rfl,
      hside ▸ .take hd hf⟩
  · exact ⟨_, (step_of_fire (p := .outReady) ht rfl (if_pos hout)).trans ((exec_rlEmit _).2 ⟨hout, rfl⟩), rfl,
      .emit hout⟩
  · exact ⟨_, (step_of_fire (p := .internal) ht rfl (if_pos hfin)).trans (exec_enabled .fin rfl nofun hfin), rfl,
      .finish hfin⟩

end

/-! ### Fair rounds (R201) -/

/-- A run goes on from where its first part went well. -/
theorem run_add_of_next {M : Host.Core} {j k : Nat} {a b : M.State} (h : M.run j a = .next b) :
    M.run (j + k) a = M.run k b := by
  rw [run_add, h]

theorem run_succ_of_next {M : Host.Core} {a b : M.State} (h : M.step a = .next b) (n : Nat) :
    M.run (n + 1) a = M.run n b := by
  rw [Host.Core.run, h]

section
variable {bs : List Byte} {s : State} {qs ts : List Turn}

/-- A quiet turn is a move, or it was not the one awaited and changes nothing of the block's side. -/
theorem step_quiet_or_move {q : Turn} (h : Captures bs s.blockSide) (hq : q.quiet = true)
    (ht : s.turns = q :: ts) : ∃ t, step s = .next t ∧ t.turns = ts ∧
      (s.blockSide.Move t.blockSide ∨ (t.blockSide = s.blockSide ∧ s.blk.waitsFor ≠ some q)) := by
  by_cases hw : s.blk.waitsFor = some q
  · obtain ⟨-, left, -, hm, hinv, -⟩ | hend := h
    · have hne : s.src.moves ≠ [] := fun hnil => by simp [hnil, State.blockSide] at hm
      obtain ⟨t, hs, htt, hmove⟩ := step_awaited hinv hne hw ht
      exact ⟨t, hs, htt, .inl hmove⟩
    · have hnone : s.blk.waitsFor = none := Block.waitsFor_of_not_busy hend.not_busy
      simp [hnone] at hw
  · obtain ⟨r, hs⟩ := quiet_turn_other hq hw ht
    exact ⟨_, hs, rfl, .inr ⟨rfl, hw⟩⟩

/-- A run over quiet turns goes well and stays on its way, and it makes a move if the turn awaited is among them. -/
theorem run_quiet_progress (h : Captures bs s.blockSide) (hq : qs.all Turn.quiet = true)
    (ht : s.turns = qs ++ ts) : ∃ t, core.run qs.length s = .next t ∧ t.turns = ts ∧
      Captures bs t.blockSide ∧
      (t.blockSide.movesLeft < s.blockSide.movesLeft ∨
        (t.blockSide = s.blockSide ∧ ∀ q ∈ qs, s.blk.waitsFor ≠ some q)) := by
  induction qs generalizing s with
  | nil => exact ⟨s, rfl, ht, h, .inr ⟨rfl, nofun⟩⟩
  | cons q qs ih =>
    obtain ⟨hq, hqs⟩ := by simpa only [List.all_cons, Bool.and_eq_true] using hq
    obtain ⟨u, hs, htu, hmove | ⟨hside, hw⟩⟩ := step_quiet_or_move h hq ht
    · obtain ⟨t, hrun, htt, hgood, hleft⟩ := ih (h.move hmove) hqs htu
      have hle : t.blockSide.movesLeft ≤ u.blockSide.movesLeft := hleft.elim le_of_lt fun hsame => hsame.1 ▸ le_rfl
      exact ⟨t, (run_succ_of_next (M := core) hs _).trans hrun, htt, hgood, .inl (hle.trans_lt hmove.movesLeft_lt)⟩
    · have hblk : u.blk = s.blk := congrArg BlockSide.blk hside
      obtain ⟨t, hrun, htt, hgood, hleft⟩ := ih (hside ▸ h) hqs htu
      rw [hside, hblk] at hleft
      exact ⟨t, (run_succ_of_next (M := core) hs _).trans hrun, htt, hgood,
        hleft.imp_right fun ⟨hsame, hall⟩ => ⟨hsame, List.forall_mem_cons.2 ⟨hw, hall⟩⟩⟩

/-- A fair round makes a move if there is one to make. -/
theorem run_fairRound (h : Captures bs s.blockSide) (hq : fairRound qs = true)
    (ht : s.turns = qs ++ ts) : ∃ t, core.run qs.length s = .next t ∧ t.turns = ts ∧
      Captures bs t.blockSide ∧
      t.blockSide.movesLeft ≤ s.blockSide.movesLeft - 1 := by
  simp only [fairRound, Bool.and_eq_true, List.contains_iff_mem] at hq
  obtain ⟨⟨⟨hquiet, hsource⟩, hsink⟩, hblock⟩ := hq
  obtain ⟨t, hrun, htt, hgood, hlt | ⟨hsame, hall⟩⟩ := run_quiet_progress h hquiet ht
  · exact ⟨t, hrun, htt, hgood, by omega⟩
  · have hb : s.blk.busy = false := by
      by_contra hb
      obtain ⟨q, hw, rfl | rfl | rfl⟩ := Block.waitsFor_of_busy (eq_true_of_ne_false hb)
      · exact hall _ hsource hw
      · exact hall _ hsink hw
      · exact hall _ hblock hw
    have hzero : s.blockSide.movesLeft = 0 := BlockSide.movesLeft_of_not_busy hb
    exact ⟨t, hrun, htt, hgood, by rw [hsame, hzero]⟩

/-- Fair rounds in the number of the moves to come end the capture. -/
theorem run_fairRounds {rounds : List (List Turn)} (h : Captures bs s.blockSide)
    (hq : ∀ r ∈ rounds, fairRound r = true) (ht : s.turns = rounds.flatten)
    (hle : s.blockSide.movesLeft ≤ rounds.length) :
    ∃ t, core.run rounds.flatten.length s = .next t ∧ Ended bs t.blockSide := by
  induction rounds generalizing s with
  | nil =>
    refine ⟨s, rfl, h.resolve_left fun hin => ?_⟩
    rw [BlockSide.movesLeft_of_busy hin.busy] at hle
    simp at hle
  | cons r rounds ih =>
    obtain ⟨hr, hrounds⟩ := List.forall_mem_cons.1 hq
    obtain ⟨u, hrun, htu, hgood, hu⟩ := run_fairRound h hr ht
    have hu' : u.blockSide.movesLeft ≤ rounds.length := by
      rw [List.length_cons] at hle
      omega
    obtain ⟨t, hrun', hend⟩ := ih hgood hrounds htu hu'
    refine ⟨t, ?_, hend⟩
    rw [List.flatten_cons, List.length_append, run_add_of_next hrun, hrun']

end

/-- The host's `START` arms the block and drops the beats left over; the stream it leaves (R121, R123). -/
theorem step_start {s : State} {ts : List Turn} (hrst : s.rst = false) (hb : s.blk.busy = false)
    (ht : s.turns = .host (.write 0 1) :: ts) : ∃ u, step s = .next u ∧ u.turns = ts ∧
      u.blockSide = ⟨Block.armed, s.src, ⟨[], s.sink.committed⟩⟩ := by
  have hacts := State.start_acts (s := { s with turns := ts }) hrst hb
  exact ⟨_, (step_of_fire (i := .start) (p := .regWrite 0 1) ht rfl rfl).trans (congrArg Host.Outcome.next hacts),
    rfl, rfl⟩

/-- Settles O51: `START` puts the whole input before the block (`inProgress_armed`), each round makes a move, and there
are rounds for all of them (`run_fairRounds`). -/
theorem stepsRefineCapture : Obligations.StepsRefineCapture := by
  intro s bs rounds hrst hb hm ht hfair henough
  obtain ⟨u, hstart, htu, hside⟩ := step_start hrst hb ht
  have hsrc : s.src = ⟨bs.map SrcMove.byte ++ [.timeout], s.src.cmds⟩ := by rw [← hm]
  have hgo : InProgress bs u.blockSide := by
    rw [hside, hsrc]
    exact inProgress_armed bs s.src.cmds s.sink.committed
  have hmoves : u.blockSide.movesLeft = 65536 * (bs.length + 1) + 1 := by
    rw [BlockSide.movesLeft_of_busy hgo.busy, hside, hsrc]
    simp [Block.reset]
  have hle : u.blockSide.movesLeft ≤ rounds.length := by
    unfold enoughRounds at henough
    omega
  obtain ⟨t, hrun, hend⟩ := run_fairRounds (.inl hgo) hfair htu hle
  refine ⟨t, ?_, hend⟩
  rw [ht, List.length_cons]
  exact (run_succ_of_next (M := core) hstart _).trans hrun

end Sys2Proof.Machine
end

-- ==== The host's capture sequence ====
section
/-! SUPPORT. The host's five steps as equations (45_capture_sequence.md): what each does at the stage of R220 that has
it, by outcome, and its refusal at every other. -/

namespace Sys2Proof.Machine

/-! ### The identity line -/

/-- The comparison of R222 in the line's first two characters. -/
theorem identityMatches_iff (p : Params) (text : List Byte) :
    identityMatches p text = true ↔ text[0]? = some p.vendor0 ∧ text[1]? = some p.vendor1 := by
  rcases text with _ | ⟨a, _ | ⟨b, rest⟩⟩ <;> simp [identityMatches]

section
variable {s : State} {line : List Byte} {rest : List SrcMove}

/-- A whole line that matches (R222). -/
theorem State.readIdentity_match (hm : s.src.moves = (line ++ [0x0A]).map SrcMove.byte ++ rest) (hnl : 0x0A ∉ line)
    (hid : identityMatches s.host.params (s.host.line ++ line ++ [0x0A]) = true) :
    s.readIdentity = { s with
      src := { s.src with moves := rest }
      host := { s.host with stage := .identified, line := s.host.line ++ line ++ [0x0A] } } := by
  simp only [State.readIdentity, hm, readLine_newline hnl, hid, if_true]

/-- A whole line that does not match (R222). -/
theorem State.readIdentity_mismatch (hm : s.src.moves = (line ++ [0x0A]).map SrcMove.byte ++ rest)
    (hnl : 0x0A ∉ line) (hid : identityMatches s.host.params (s.host.line ++ line ++ [0x0A]) = false) :
    s.readIdentity = { s with
      src := { s.src with moves := rest }
      sink := { s.sink with beats := [] }
      host := { s.host with
        stage := .failed
        line := s.host.line ++ line ++ [0x0A]
        report := some ⟨.unrecognizedDevice, none, none, none, none⟩ } } := by
  simp only [State.readIdentity, hm, readLine_newline hnl, hid, Bool.false_eq_true, if_false]
  rfl

/-- The watchdog expires before the newline (R222, R230). -/
theorem State.readIdentity_timeout (hm : s.src.moves = line.map SrcMove.byte ++ .timeout :: rest)
    (hnl : 0x0A ∉ line) :
    s.readIdentity = { s with
      src := { s.src with moves := rest }
      sink := { s.sink with beats := [] }
      host := { s.host with
        stage := .failed
        line := s.host.line ++ line
        report := some ⟨.deviceUnresponsive, none, none, none, none⟩ } } := by
  simp only [State.readIdentity, hm, readLine_timeout hnl]
  rfl

/-- Neither the newline nor a timeout has come (notes/assumptions 13). -/
theorem State.readIdentity_waits (hm : s.src.moves = line.map SrcMove.byte) (hnl : 0x0A ∉ line) :
    s.readIdentity = { s with
      src := { s.src with moves := [] }, host := { s.host with line := s.host.line ++ line } } := by
  simp only [State.readIdentity, hm, readLine_waiting hnl]

/-! ### `H.IDN` -/

/-- `H.IDN` where no capture is in progress sends its query first (R222). -/
theorem exec_hIdn_begin (hb : s.blk.busy = false)
    (hst : s.host.stage = .idle ∨ s.host.stage = .done ∨ s.host.stage = .failed) :
    exec .hIdn s = .next ({ s with host := s.host.begin }.sendCommand idnCommand State.readIdentity) := by
  obtain hst | hst | hst := hst <;> simp [exec, execHIdn, hb, hst]

/-- With the query accepted the line is read next (R221, R222). -/
theorem exec_hIdn_asked (hb : s.blk.busy = false)
    (hst : s.host.stage = .idle ∨ s.host.stage = .done ∨ s.host.stage = .failed)
    (hcmd : s.src.cmds.headD .accepted = .accepted) :
    exec .hIdn s = .next (State.readIdentity { s with
      src := ⟨s.src.moves, s.src.cmds.tail⟩, host := { s.host.begin with sent := s.host.sent ++ idnCommand } }) := by
  rw [exec_hIdn_begin hb hst, State.sendCommand_accepted (s := { s with host := s.host.begin }) hcmd]
  rfl

/-- Inside the line `H.IDN` goes on reading and sends nothing (notes/assumptions 13). -/
theorem exec_hIdn_resumed (hb : s.blk.busy = false) (hst : s.host.stage = .awaitingIdentity) :
    exec .hIdn s = .next s.readIdentity := by
  simp [exec, execHIdn, hb, hst]

theorem exec_hIdn_busy (hb : s.blk.busy = true) : exec .hIdn s = .refused .exclusiveStream := by
  simp [exec, execHIdn, hb]

theorem exec_hIdn_refused (hb : s.blk.busy = false)
    (hst : s.host.stage = .identified ∨ s.host.stage = .awaitingBlock ∨ s.host.stage = .captured ∨
      s.host.stage = .checked) : exec .hIdn s = .refused (.notEnabled "H.IDN") := by
  obtain hst | hst | hst | hst := hst <;> simp [exec, execHIdn, hb, hst]

/-! ### `H.QUERY` -/

theorem exec_hQuery_enabled (hq : s.host.queried = false)
    (hst : s.host.stage = .identified ∨ s.host.stage = .awaitingBlock) :
    exec .hQuery s =
      .next (s.sendCommand queryCommand fun u => { u with host := { u.host with queried := true } }) := by
  obtain hst | hst := hst <;> simp [exec, execHQuery, hq, hst]

theorem exec_hQuery_refused
    (h : s.host.queried = true ∨ ¬ (s.host.stage = .identified ∨ s.host.stage = .awaitingBlock)) :
    exec .hQuery s = .refused (.notEnabled "H.QUERY") := by
  obtain hq | hst := h
  · simp [exec, execHQuery, hq]
  · simp_all [exec, execHQuery]

/-! ### `H.RUN` -/

theorem exec_hRun_identified (hst : s.host.stage = .identified) : exec .hRun s = .next s.beginRun := by
  simp [exec, execHRun, hst]

theorem exec_hRun_awaitingBlock (hst : s.host.stage = .awaitingBlock) : exec .hRun s = .next s.pollBlock := by
  simp [exec, execHRun, hst]

theorem exec_hRun_refused (hst : ¬ (s.host.stage = .identified ∨ s.host.stage = .awaitingBlock)) :
    exec .hRun s = .refused (.notEnabled "H.RUN") := by
  cases h : s.host.stage <;> simp_all [exec, execHRun]

/-- The `START` of `H.RUN` acts (R121, R224). -/
theorem State.beginRun_acts (hrst : s.rst = false) (hb : s.blk.busy = false) : s.beginRun = { s with
    blk := Block.armed, sink := ⟨[], s.sink.committed⟩, host := { s.host with stage := .awaitingBlock } } := by
  obtain ⟨-, h | h⟩ | ⟨h, -, -⟩ := s.beginRun_cases
  · simp [hb] at h
  · simp [hrst] at h
  · exact h

/-- The `START` of `H.RUN` is lost, and the host waits all the same (R270, R288). -/
theorem State.beginRun_lost (hlost : s.rst = true ∨ s.blk.busy = true) :
    s.beginRun = { s with host := { s.host with stage := .awaitingBlock } } := by
  obtain ⟨h, -⟩ | ⟨-, hb, hrst⟩ := s.beginRun_cases
  · exact h
  · simp [hb, hrst] at hlost

/-- The wait ends well (R224) once the query was performed (R220). -/
theorem State.pollBlock_done (hp : s.blk.phase = .done) (hq : s.host.queried = true) :
    s.pollBlock = { s with host := { s.host with stage := .captured } } := by
  obtain ⟨-, -, h⟩ | ⟨-, hq', -⟩ | ⟨hp', -⟩ | ⟨hp', -⟩ := s.pollBlock_cases
  · exact h
  · simp [hq] at hq'
  · simp [hp] at hp'
  · exact absurd hp hp'

/-- The block's failure is passed on with its context (R225). -/
theorem State.pollBlock_failed (hp : s.blk.phase = .failed) : s.pollBlock = s.hostFail
    ⟨s.blk.err, some s.blk.expect.toNat, some s.blk.actual.toNat, some (subCode s.blk.esub),
      some s.blk.consumed⟩ := by
  obtain ⟨hp', -⟩ | ⟨hp', -⟩ | ⟨-, h⟩ | ⟨-, hp', -⟩ := s.pollBlock_cases
  · simp [hp] at hp'
  · simp [hp] at hp'
  · exact h
  · exact absurd hp hp'

/-- The wait goes on: the block has not ended, or its end waits for the query. -/
theorem State.pollBlock_waits (hp : s.blk.phase ≠ .failed) (hq : s.blk.phase = .done → s.host.queried = false) :
    s.pollBlock = s := by
  obtain ⟨hp', hq', -⟩ | ⟨-, -, h⟩ | ⟨hp', -⟩ | ⟨-, -, h⟩ := s.pollBlock_cases
  · simp [hq hp'] at hq'
  · exact h
  · exact absurd hp' hp
  · exact h

/-! ### `H.DIM` and `H.COMMIT` -/

/-- The count the host reads is the declared one (R226). -/
theorem exec_hDim_passed (hst : s.host.stage = .captured)
    (hpx : s.blk.pixcnt.toNat = s.host.params.width * s.host.params.height) :
    exec .hDim s = .next { s with host := { s.host with stage := .checked } } := by
  simp [exec, execHDim, hst, Block.pixelCount_eq, hpx]

theorem exec_hDim_failed (hst : s.host.stage = .captured)
    (hpx : s.blk.pixcnt.toNat ≠ s.host.params.width * s.host.params.height) :
    exec .hDim s = .next (s.hostFail ⟨.dimensionMismatch, some (s.host.params.width * s.host.params.height),
      some s.blk.pixcnt.toNat, none, none⟩) := by
  simp [exec, execHDim, hst, Block.pixelCount_eq, hpx]

theorem exec_hDim_refused (hst : s.host.stage ≠ .captured) : exec .hDim s = .refused (.notEnabled "H.DIM") := by
  simp [exec, execHDim, hst]

theorem exec_hCommit_checked (hst : s.host.stage = .checked) : exec .hCommit s = .next { s with
    sink := ⟨[], s.sink.committed ++
      [⟨s.sink.beats.flatMap beatBytes, s.host.params.width, s.host.params.height⟩]⟩
    host := { s.host with stage := .done } } := by
  simp [exec, execHCommit, hst]

theorem exec_hCommit_refused (hst : s.host.stage ≠ .checked) :
    exec .hCommit s = .refused (.notEnabled "H.COMMIT") := by
  simp [exec, execHCommit, hst]

end

/-! ### The bytes of the beats (R62) -/

theorem length_flatMap_beatBytes (beats : List Beat) : (beats.flatMap beatBytes).length = 3 * beats.length := by
  induction beats with
  | nil => rfl
  | cons v beats ih =>
    rw [List.flatMap_cons, List.length_append, ih, List.length_cons, beatBytes]
    simp only [List.length_cons, List.length_nil]
    omega

/-- The bytes of the `j`-th beat stand from place `3 * j` on. -/
theorem getElem?_flatMap_beatBytes {beats : List Beat} {j : Nat} {v : Beat} (hv : beats[j]? = some v) {c : Nat}
    (hc : c < 3) : (beats.flatMap beatBytes)[3 * j + c]? = (beatBytes v)[c]? := by
  induction beats generalizing j with
  | nil => simp at hv
  | cons w beats ih =>
    rw [List.flatMap_cons]
    cases j with
    | zero =>
      obtain rfl : w = v := by simpa using hv
      have hlen : 3 * 0 + c < (beatBytes w).length := by simpa [beatBytes] using hc
      rw [List.getElem?_append_left hlen, Nat.mul_zero, Nat.zero_add]
    | succ j =>
      have hlen : (beatBytes w).length ≤ 3 * (j + 1) + c := by simp [beatBytes]; omega
      have hplace : 3 * (j + 1) + c - (beatBytes w).length = 3 * j + c := by simp [beatBytes]; omega
      rw [List.getElem?_append_right hlen, hplace]
      exact ih (by simpa using hv)

/-! ### The obligations -/

/-- Settles O29: the query is accepted, the line is whole, and its comparison decides. -/
theorem identityLineDecides : Obligations.IdentityLineDecides := by
  intro s line rest hp hst hcmd hm hnl
  have hasked := exec_hIdn_asked (s.blk.not_busy_iff.2 hp) hst hcmd
  rw [← identityMatches_iff, Bool.not_eq_true]
  exact ⟨fun hid => hasked.trans (congrArg Host.Outcome.next (State.readIdentity_match hm hnl hid)),
    fun hid => hasked.trans (congrArg Host.Outcome.next (State.readIdentity_mismatch hm hnl hid))⟩

/-- Settles O30: the read ends in the timeout, or the write of the query already does. -/
theorem silentDeviceIsUnresponsive : Obligations.SilentDeviceIsUnresponsive := by
  intro s hp hst
  have hb := s.blk.not_busy_iff.2 hp
  refine ⟨fun line rest hcmd hm hnl => ?_, fun k cs hcmd => ?_⟩
  · exact (exec_hIdn_asked hb hst hcmd).trans (congrArg Host.Outcome.next (State.readIdentity_timeout hm hnl))
  · rw [exec_hIdn_begin hb hst, State.sendCommand_timedOut (s := { s with host := s.host.begin }) hcmd]
    rfl

/-- Settles O31: a read begun by the query waits, and one that is resumed waits on or ends in one of the three ways of
`State.readIdentity`. -/
theorem identityReadWaitsAndResumes : Obligations.IdentityReadWaitsAndResumes := by
  intro s line hp hnl
  have hb := s.blk.not_busy_iff.2 hp
  refine ⟨fun hst hm hcmd => ?_, fun hst => ?_⟩
  · exact (exec_hIdn_asked hb hst hcmd).trans (congrArg Host.Outcome.next (State.readIdentity_waits hm hnl))
  · simp only [← identityMatches_iff, Bool.not_eq_true, exec_hIdn_resumed hb hst, Host.Outcome.next.injEq]
    exact ⟨fun hm => State.readIdentity_waits hm hnl,
      fun rest hm => ⟨State.readIdentity_match hm hnl, State.readIdentity_mismatch hm hnl⟩,
      fun rest hm => State.readIdentity_timeout hm hnl⟩

/-- Settles O32: the command is sent once the guard holds, and its write is accepted or times out. -/
theorem queryIsSentOnce : Obligations.QueryIsSentOnce := by
  intro s hq hst
  rw [exec_hQuery_enabled hq hst]
  refine ⟨fun hcmd => ?_, fun k cs hcmd => ?_⟩
  · rw [State.sendCommand_accepted hcmd]
    rfl
  · rw [State.sendCommand_timedOut hcmd]
    rfl

/-- Settles O33: the first look writes `START`, which acts or is lost; every later one goes by the block's phase. -/
theorem runStartsAndWaits : Obligations.RunStartsAndWaits := by
  intro s
  refine ⟨fun hst => ?_, fun hst => ?_⟩
  · rw [exec_hRun_identified hst]
    refine ⟨fun hrst hp => ?_, fun hlost => ?_⟩
    · exact congrArg Host.Outcome.next (State.beginRun_acts hrst (s.blk.not_busy_iff.2 hp))
    · exact congrArg Host.Outcome.next (State.beginRun_lost (hlost.imp_right s.blk.busy_iff.2))
  · rw [exec_hRun_awaitingBlock hst]
    refine ⟨fun hp hq => ?_, fun hp hq => ?_, fun hp => ?_, fun hp hp' => ?_⟩ <;> congr 1
    · exact State.pollBlock_done hp hq
    · exact State.pollBlock_waits (by simp [hp]) fun _ => hq
    · exact State.pollBlock_failed hp
    · exact State.pollBlock_waits hp' fun h => absurd h hp

/-- Settles O34: the count read from the two registers is the block's (`Block.pixelCount_eq`). -/
theorem dimensionCheckCompares : Obligations.DimensionCheckCompares :=
  fun _ hst => ⟨exec_hDim_passed hst, exec_hDim_failed hst⟩

/-- Settles O35: the bytes are those of the beats, three to a beat. -/
theorem commitHandsTheImageOver : Obligations.CommitHandsTheImageOver := fun s hst =>
  ⟨s.sink.beats.flatMap beatBytes, length_flatMap_beatBytes _,
    fun _ _ hv => ⟨getElem?_flatMap_beatBytes hv (c := 0) (by decide),
      getElem?_flatMap_beatBytes hv (c := 1) (by decide), getElem?_flatMap_beatBytes hv (c := 2) (by decide)⟩,
    exec_hCommit_checked hst⟩

/-- Settles O36: each step has its refusal outside the stages that have it. -/
theorem hostStepsOutOfOrderAreRefused : Obligations.HostStepsOutOfOrderAreRefused := fun _ =>
  ⟨exec_hIdn_busy, exec_hIdn_refused, exec_hQuery_refused, exec_hRun_refused, exec_hDim_refused, exec_hCommit_refused⟩

/-- Settles O53: an acting `START` changes of the host the stage alone (`HostSide.started_eq`). -/
theorem startBelongsToOneCapture : Obligations.StartBelongsToOneCapture := by
  intro s hrst hp
  have hacts := State.start_acts hrst (s.blk.not_busy_iff.2 hp)
  rw [HostSide.started_eq] at hacts
  refine ⟨_, congrArg Host.Outcome.next hacts, ?identified, ?awaitingBlock, ?ended, ?outside⟩
  case identified => exact fun hst => if_pos (.inl hst)
  case awaitingBlock => intro hst; simp [hst]
  case ended => rintro (hst | hst | hst) <;> simp [hst]
  case outside => rintro (hst | hst | hst) <;> simp [hst]

end Sys2Proof.Machine
end

-- ==== What a capture may change ====
section
/-! SUPPORT. What every operation leaves of the host's capture: the images handed over, the stage `checked` before
`H.COMMIT`, the bytes sent, and the block's result from the good end of `H.RUN` on. -/

namespace Sys2Proof.Machine

/-! ### The images handed over, and the bytes sent -/

/-- Nothing is handed over, and the stage `checked` is not entered (R226, R227). -/
def State.KeepsImages (s t : State) : Prop :=
  t.sink.committed = s.sink.committed ∧ (t.host.stage = .checked → s.host.stage = .checked)

section
variable {i : Instr} {s t : State}

theorem State.KeepsImages.of_host_eq (hhost : t.host = s.host) (hcom : t.sink.committed = s.sink.committed) :
    s.KeepsImages t :=
  ⟨hcom, fun hst => hhost ▸ hst⟩

theorem State.KeepsImages.of_stage_ne (hst : t.host.stage ≠ .checked)
    (hcom : t.sink.committed = s.sink.committed) : s.KeepsImages t :=
  ⟨hcom, fun h => absurd h hst⟩

theorem State.readIdentity_keepsImages (s : State) : s.KeepsImages s.readIdentity := by
  obtain ⟨_, _, _, -, -, -, h⟩ | ⟨_, _, _, -, -, -, h⟩ | ⟨_, _, _, -, -, h⟩ | ⟨_, -, h⟩ := s.readIdentity_cases <;>
    rw [h]
  · exact .of_stage_ne nofun rfl
  · exact .of_stage_ne nofun rfl
  · exact .of_stage_ne nofun rfl
  · exact ⟨rfl, id⟩

theorem State.sendCommand_keepsImages (s : State) (cmd : List Byte) {after : State → State}
    (hafter : ∀ u : State, u.KeepsImages (after u)) : s.KeepsImages (s.sendCommand cmd after) := by
  obtain ⟨-, h⟩ | ⟨_, _, -, h⟩ := s.sendCommand_cases cmd after <;> rw [h]
  · exact hafter _
  · exact .of_stage_ne nofun rfl

/-- Every completed operation but `H.DIM` and `H.COMMIT`. -/
theorem exec_keepsImages (hdim : i ≠ .hDim) (hcommit : i ≠ .hCommit) (h : exec i s = .next t) :
    s.KeepsImages t := by
  obtain ⟨-, -, -, -, -, -, hstarted⟩ := s.host.started_stage s.blk.phase
  cases i with
  | rxMark _ | rxLcnt _ | rxLdig _ | rxPlo _ | rxPhi _ | rxTmo | fin | rlCnt _ | rlCod _ | rlEmit =>
    obtain ⟨-, -, hhost, -, hcom, -⟩ := exec_blockMove_frame rfl h
    exact .of_host_eq hhost hcom
  | start =>
    cases h
    obtain ⟨h, -⟩ | ⟨h, -⟩ := s.start_cases <;> rw [h]
    · exact ⟨rfl, id⟩
    · exact .of_stage_ne hstarted rfl
  | wrreg n v =>
    cases h
    obtain h | ⟨h, -⟩ := s.writeReg_cases n v <;> rw [h]
    · exact ⟨rfl, id⟩
    · exact .of_stage_ne hstarted rfl
  | rdreg _ | ccRgb _ => cases h; exact ⟨rfl, id⟩
  | reset =>
    cases h
    obtain ⟨-, -, -, hchk, -⟩ := s.host.abandon_stage
    exact ⟨rfl, hchk⟩
  | hIdn =>
    obtain ⟨-, ⟨-, rfl⟩ | ⟨-, rfl⟩⟩ := exec_hIdn_cases h
    · obtain ⟨hcom, hstage⟩ := State.sendCommand_keepsImages { s with host := s.host.begin } idnCommand
        State.readIdentity_keepsImages
      exact .of_stage_ne (fun hst => absurd (hstage hst) nofun) hcom
    · exact s.readIdentity_keepsImages
  | hQuery =>
    obtain ⟨-, -, rfl⟩ := exec_hQuery_cases h
    exact s.sendCommand_keepsImages queryCommand fun _ => ⟨rfl, id⟩
  | hRun =>
    obtain ⟨-, rfl⟩ | ⟨-, rfl⟩ := exec_hRun_cases h
    · obtain ⟨h, -⟩ | ⟨h, -⟩ := s.beginRun_cases <;> rw [h] <;> exact .of_stage_ne nofun rfl
    · obtain ⟨-, -, h⟩ | ⟨-, -, h⟩ | ⟨-, h⟩ | ⟨-, -, h⟩ := s.pollBlock_cases <;> rw [h]
      · exact .of_stage_ne nofun rfl
      · exact ⟨rfl, id⟩
      · exact .of_stage_ne nofun rfl
      · exact ⟨rfl, id⟩
  | hDim => exact absurd rfl hdim
  | hCommit => exact absurd rfl hcommit

@[simp] theorem HostSide.started_sent (h : HostSide) (was : Phase) : (h.started was).sent = h.sent := by
  rw [HostSide.started_eq]

@[simp] theorem HostSide.abandon_sent (h : HostSide) : h.abandon.sent = h.sent := by
  rw [HostSide.abandon_eq]

/-- Only the two command steps write to the instrument (R221). -/
theorem exec_sent (hidn : i ≠ .hIdn) (hquery : i ≠ .hQuery) (h : exec i s = .next t) :
    t.host.sent = s.host.sent := by
  cases i with
  | rxMark _ | rxLcnt _ | rxLdig _ | rxPlo _ | rxPhi _ | rxTmo | fin | rlCnt _ | rlCod _ | rlEmit =>
    obtain ⟨-, -, hhost, -⟩ := exec_blockMove_frame rfl h
    rw [hhost]
  | start => cases h; obtain ⟨h, -⟩ | ⟨h, -⟩ := s.start_cases <;> simp [h]
  | wrreg n v => cases h; obtain h | ⟨h, -⟩ := s.writeReg_cases n v <;> simp [h]
  | rdreg _ | ccRgb _ => cases h; rfl
  | reset => cases h; exact s.host.abandon_sent
  | hRun =>
    obtain ⟨-, rfl⟩ | ⟨-, rfl⟩ := exec_hRun_cases h
    · obtain ⟨h, -⟩ | ⟨h, -⟩ := s.beginRun_cases <;> rw [h]
    · obtain ⟨-, -, h⟩ | ⟨-, -, h⟩ | ⟨-, h⟩ | ⟨-, -, h⟩ := s.pollBlock_cases <;> rw [h]
      rfl
  | hDim => obtain ⟨-, ⟨_, rfl⟩ | ⟨-, rfl⟩⟩ := exec_hDim_cases h <;> rfl
  | hCommit => obtain ⟨-, rfl⟩ := exec_hCommit_cases h; rfl
  | hIdn => exact absurd rfl hidn
  | hQuery => exact absurd rfl hquery

/-! ### The turns of the steps without a wire form -/

/-- A host step without a wire form is read from its own call alone (R100). -/
theorem wire_of_decode_call {k : Sel} {p : Wire} {c : HostCall} (h : decode k p = .op i)
    (hi : encode i = .call c) : p = .call c := by
  obtain ⟨-, -, hp | ⟨v, -, -, rfl⟩⟩ := decodeOnlyEnabled k p i h
  · rw [← hp, hi]
  · cases hi

/-- The host's move that makes such a step. -/
def callMove : HostCall → HostMove
  | .run => .run
  | .dim => .dim
  | .commit => .commit

theorem eq_callMove_of_hostWire {m : HostMove} {c : HostCall} (h : hostWire m = .call c) : m = callMove c := by
  cases m <;> cases h <;> rfl

/-- A step that takes no turn of `H.DIM` and none of `H.COMMIT` (R226, R227). -/
theorem step_keepsImages (hcommit : s.turns.head? ≠ some (.host .commit)) (hdim : s.turns.head? ≠ some (.host .dim))
    (h : step s = .next t) : s.KeepsImages t := by
  obtain ⟨p, i, ms, r, hd, -, -, -, hport, he⟩ | ⟨ms, r, -, -, rfl⟩ := step_shape h
  · have hturn : ∀ c, encode i = .call c → s.turns.head? = some (.host (callMove c)) := by
      intro c hi
      have hp := wire_of_decode_call hd hi
      obtain ⟨m, hm, hpm⟩ | ⟨rfl, -⟩ | rfl | rfl | rfl | ⟨b, hpb⟩ := hport
      · rw [hm, eq_callMove_of_hostWire (hpm.symm.trans hp)]
      · cases hi
      · cases hi
      · cases hi
      · cases hi
      · cases hpb.symm.trans hp
    have hkeeps : i ≠ .hDim → i ≠ .hCommit → State.KeepsImages _ t := fun hi hi' => exec_keepsImages hi hi' he
    exact hkeeps (fun hi => hdim (hturn .dim (hi ▸ rfl))) fun hi => hcommit (hturn .commit (hi ▸ rfl))
  · exact ⟨rfl, id⟩

/-! ### The block's result -/

/-- A host write that starts the block leaves the capture where an acting `START` puts it (notes/assumptions 30). -/
theorem exec_startsBlock (hi : StartsBlock i) (h : exec i s = .next t) :
    t.blk = s.blk ∨ t.host.stage = (s.host.started s.blk.phase).stage := by
  obtain rfl | rfl | ⟨v, rfl, -⟩ := hi
  · cases h
    obtain ⟨h, -⟩ | ⟨h, -⟩ := s.start_cases
    · exact .inl (by rw [h])
    · exact .inr (by rw [h])
  · obtain ⟨hst, rfl⟩ | ⟨-, rfl⟩ := exec_hRun_cases h
    · have hstarted : (s.host.started s.blk.phase).stage = .awaitingBlock := by simp [HostSide.started_eq, hst]
      rw [hstarted]
      obtain ⟨h, -⟩ | ⟨h, -⟩ := s.beginRun_cases <;> exact .inr (by rw [h])
    · exact .inl s.pollBlock_blk
  · cases h
    obtain h | ⟨h, -⟩ := s.writeReg_cases 0 v
    · exact .inl (by rw [h])
    · exact .inr (by rw [h])

/-- A block at rest that holds the result of a capture keeps it, or the capture is over by an acting `START`, or the
operation is a reset (R121, R229, R270). -/
theorem exec_result (hb : s.blk.busy = false) (hst : s.host.stage = .captured ∨ s.host.stage = .checked)
    (h : exec i s = .next t) : t.blk = s.blk ∨ t.host.stage = .idle ∨ i = .reset := by
  cases exec_blockChange h with
  | move hf he _ => exact absurd (blockMove_busy hf he) (by simp [hb])
  | start hi _ _ =>
    have hidle : (s.host.started s.blk.phase).stage = .idle := by
      obtain hst | hst := hst <;> simp [HostSide.started_eq, hst]
    exact (exec_startsBlock hi h).imp_right fun hstage => .inl (hstage.trans hidle)
  | reset hi _ => exact .inr (.inr hi)
  | kept _ hk => exact .inl hk

end

/-! ### The obligations -/

/-- Settles O47: all operations but `H.DIM` and `H.COMMIT` keep the images and the stage `checked` out
(`exec_keepsImages`), and of these two each does its part at its stage. -/
theorem nothingIsCommittedUnchecked : Obligations.NothingIsCommittedUnchecked := by
  refine ⟨fun i s t h hne => ?_, fun i s t h hto hfrom => ?_, fun s t hcommit hdim h => ?_⟩
  · by_cases hcommit : i = .hCommit
    · subst hcommit
      exact ⟨rfl, (exec_hCommit_cases h).1⟩
    · refine absurd ?_ hne
      by_cases hdim : i = .hDim
      · subst hdim
        obtain ⟨-, ⟨_, rfl⟩ | ⟨-, rfl⟩⟩ := exec_hDim_cases h <;> rfl
      · exact (exec_keepsImages hdim hcommit h).1
  · by_cases hdim : i = .hDim
    · subst hdim
      obtain ⟨hst, ⟨_, rfl⟩ | ⟨hpx, -⟩⟩ := exec_hDim_cases h
      · cases hto
      · exact ⟨rfl, hst, hpx⟩
    · refine absurd ?_ hfrom
      by_cases hcommit : i = .hCommit
      · subst hcommit
        exact (exec_hCommit_cases h).1
      · exact (exec_keepsImages hdim hcommit h).2 hto
  · exact step_keepsImages hcommit hdim h

/-- Settles O48: `H.QUERY` has its stages past the identity line, which the invariant says matched. -/
theorem noCommandWithoutIdentity : Obligations.NoCommandWithoutIdentity := by
  intro i s t hinv h hne
  by_cases hidn : i = .hIdn
  · exact .inl hidn
  · by_cases hquery : i = .hQuery
    · subst hquery
      obtain ⟨-, hst, -⟩ := exec_hQuery_cases h
      refine .inr ⟨rfl, hinv.identity ?_⟩
      obtain hst | hst := hst <;> rw [hst] <;> rfl
    · exact absurd (exec_sent hidn hquery h) hne

/-- Settles O54: at both stages the block is at rest, so `exec_result` says what can become of its result; a reset
with the result unread ends the capture (`HostSide.abandon_eq`). -/
theorem oneCaptureAtATime : Obligations.OneCaptureAtATime := by
  intro i s t h hinv
  refine ⟨fun hst hstage => ?_, fun hst hstage hi => ?_⟩
  · have hb : s.blk.busy = false := s.blk.not_busy_iff.2 (.inr (.inl (hinv.result hst)))
    obtain hk | hidle | rfl := exec_result hb (.inl hst) h
    · exact hk
    · simp [hidle] at hstage
    · cases h
      simp [HostSide.abandon_eq, hst] at hstage
  · have hb : s.blk.busy = false := hinv.ready (.inr (.inr hst))
    obtain hk | hidle | hr := exec_result hb (.inr hst) h
    · exact hk
    · simp [hidle] at hstage
    · exact absurd hr hi

/-- Settles O55: the invariant counts the beats of a checked capture, and each is three bytes. -/
theorem committedImageHasTheDeclaredSize : Obligations.CommittedImageHasTheDeclaredSize := by
  intro s t hinv h
  obtain ⟨hst, rfl⟩ := exec_hCommit_cases h
  refine ⟨_, rfl, ?_, rfl, rfl⟩
  calc (s.sink.beats.flatMap beatBytes).length = 3 * s.sink.beats.length := length_flatMap_beatBytes _
    _ = 3 * (s.host.params.width * s.host.params.height) := by rw [hinv.image hst]
    _ = 3 * s.host.params.width * s.host.params.height := (Nat.mul_assoc ..).symm

end Sys2Proof.Machine
end

-- ==== Failures, and the ways out of them ====
section
/-! SUPPORT. What each operation that can fail records when it does (60_exceptions.md R243), and which turns take the
block out of `FAILED` (R250, R251). -/

namespace Sys2Proof.Machine

/-! ### What a failure records -/

section
variable {k : Block} {b : Byte}

/-- A read in progress still waits for a byte (R28, R141). -/
theorem Block.Inv.rdrem_pos (h : k.Inv) (hr : k.inReady = true) : 0 < k.rdrem.toNat := by
  obtain hp | hp | ⟨-, hrem, -⟩ := k.inReady_iff.1 hr
  · have := h.pfx hp; omega
  · have := h.length hp; omega
  · bv_omega

/-- A timeout records the bytes its read is of and the fewer that came; the kind is by whether any came (R153). -/
theorem Block.Inv.timeOut_records (h : k.Inv) (hr : k.inReady = true) :
    k.timeOut.expect.toNat = k.rdgot.toNat + k.rdrem.toNat ∧ k.timeOut.actual.toNat = k.rdgot.toNat ∧
      k.timeOut.actual.toNat < k.timeOut.expect.toNat ∧
      k.timeOut.err = if k.timeOut.actual = 0 then .deviceUnresponsive else .truncatedTransfer := by
  obtain ⟨-, herr, -, -, -, hexp, hact⟩ := Block.timeOutRow_describes (px := List.replicate k.pixcnt.toNat 0) h hr
    List.length_replicate.symm
  dsimp only [Block.timeOutRow] at herr hexp hact
  have hzero : k.timeOut.actual = 0 ↔ k.rdgot.toNat = 0 := by rw [← hact]; bv_omega
  have hpos := h.rdrem_pos hr
  refine ⟨hexp, hact, by omega, ?_⟩
  simp only [herr, shortKind, hzero]

/-- A timeout in the prefix read: rows 1 and 2 of R243. -/
theorem Block.Inv.timeOut_prefix_records (h : k.Inv) (hp : k.phase = .pfx) :
    k.timeOut.esub = .tmoPrefix ∧ k.timeOut.expect = 2 ∧ k.timeOut.actual.toNat < 2 ∧
      k.timeOut.err = (if k.timeOut.actual = 0 then .deviceUnresponsive else .truncatedTransfer) ∧
      k.timeOut.consumed = k.timeOut.actual := by
  obtain ⟨hexp, hact, hlt, herr⟩ := h.timeOut_records (k.inReady_iff.2 (.inl hp))
  obtain ⟨hle, hrem, hc, -⟩ := h.pfx hp
  have htwo : k.timeOut.expect = 2 := by bv_omega
  rw [htwo] at hlt
  exact ⟨congrArg tmoSub hp, htwo, hlt, herr, BitVec.eq_of_toNat_eq (hc.trans hact.symm)⟩

/-- A timeout in the length read: rows 4 and 5 of R243. -/
theorem Block.Inv.timeOut_length_records (h : k.Inv) (hp : k.phase = .length) :
    k.timeOut.esub = .tmoLength ∧ k.timeOut.expect.toNat = k.timeOut.lcnt.toNat ∧
      k.timeOut.actual.toNat < k.timeOut.lcnt.toNat ∧
      k.timeOut.err = (if k.timeOut.actual = 0 then .deviceUnresponsive else .truncatedTransfer) ∧
      k.timeOut.consumed.toNat = 2 + k.timeOut.actual.toNat := by
  obtain ⟨hexp, hact, hlt, herr⟩ := h.timeOut_records (k.inReady_iff.2 (.inr (.inl hp)))
  obtain ⟨-, -, hsum, -, hc, -⟩ := h.length hp
  have hL : k.timeOut.expect.toNat = k.timeOut.lcnt.toNat := hexp.trans hsum
  exact ⟨congrArg tmoSub hp, hL, hL ▸ hlt, herr, hact.symm ▸ hc⟩

/-- A timeout in the payload read: rows 7 and 8 of R243. -/
theorem Block.Inv.timeOut_payload_records (h : k.Inv) (hp : k.phase = .payload) (hr : k.inReady = true) :
    k.timeOut.esub = .tmoPayload ∧ k.timeOut.expect.toNat = k.timeOut.nacc.toNat ∧
      k.timeOut.actual.toNat < k.timeOut.nacc.toNat ∧
      k.timeOut.err = (if k.timeOut.actual = 0 then .deviceUnresponsive else .truncatedTransfer) ∧
      k.timeOut.consumed.toNat = 2 + k.timeOut.lcnt.toNat + k.timeOut.actual.toNat := by
  obtain ⟨hexp, hact, hlt, herr⟩ := h.timeOut_records hr
  obtain ⟨-, hsum, hc, -⟩ := h.payload hp
  have hN : k.timeOut.expect.toNat = k.timeOut.nacc.toNat := hexp.trans hsum
  exact ⟨congrArg tmoSub hp, hN, hN ▸ hlt, herr, hact.symm ▸ hc⟩

/-- A bad digit-count byte: row 3 of R243. -/
theorem Block.Inv.countDigit_records (h : k.Inv) (hp : k.phase = .pfx) (hg : k.rdgot = 1)
    (hf : (k.countDigit b).phase = .failed) :
    ¬ (0x31 ≤ b.toNat ∧ b.toNat ≤ 0x39) ∧ (k.countDigit b).err = .malformedBlock ∧
      (k.countDigit b).esub = .badLcnt ∧ (k.countDigit b).expect = 0 ∧ (k.countDigit b).actual = 0 ∧
      (k.countDigit b).consumed = 2 ∧ (k.countDigit b).lbyte = b := by
  obtain ⟨hexp, hact⟩ := h.counts (by simp [hp])
  obtain ⟨-, -, hc, -⟩ := h.pfx hp
  have htwo : k.consumed + 1 = 2 := by bv_omega
  obtain ⟨-, hk⟩ | ⟨hd, hk⟩ := k.countDigit_cases b
  · simp [hk] at hf
  · rw [hk]
    exact ⟨isCountDigit_eq_false_iff.1 hd, rfl, rfl, hexp, hact, htwo, rfl⟩

/-- The last byte of a length field with a non-digit in it: row 6 of R243. -/
theorem Block.Inv.lengthDigit_records (h : k.Inv) (hp : k.phase = .length)
    (hf : (k.lengthDigit b).phase = .failed) :
    (k.lengthDigit b).err = .malformedBlock ∧ (k.lengthDigit b).esub = .badLenDigit ∧
      (k.lengthDigit b).lenbad = true ∧ (k.lengthDigit b).expect = 0 ∧ (k.lengthDigit b).actual = 0 ∧
      (k.lengthDigit b).consumed.toNat = 2 + (k.lengthDigit b).lcnt.toNat := by
  obtain ⟨hexp, hact⟩ := h.counts (by simp [hp])
  obtain ⟨-, -, hsum, -, hc, -⟩ := h.length hp
  have hsucc := h.consumed_succ (k.inReady_iff.2 (.inr (.inl hp)))
  obtain ⟨-, hk⟩ | ⟨hlast, -, hk⟩ | ⟨-, -, -, hk⟩ := k.lengthDigit_cases b
  · simp [hk, hp] at hf
  · have hone : k.rdrem.toNat = 1 := congrArg BitVec.toNat hlast
    rw [hk]
    exact ⟨rfl, rfl, rfl, hexp, hact, by dsimp only; omega⟩
  · simp [hk] at hf

/-- At the end of the payload the toggles and `consumed` are those of `N` bytes (R51 item 4, R151). -/
theorem Block.Inv.payload_end (h : k.Inv) (hp : k.phase = .payload) (hrem : k.rdrem = 0) :
    (k.bsel = true ↔ k.nacc.toNat % 2 = 1) ∧ (k.ssel = true ↔ k.nacc.toNat / 2 % 2 = 1) ∧
      k.consumed.toNat = 2 + k.lcnt.toNat + k.nacc.toNat := by
  obtain ⟨-, hsum, hc, hbs, hss, -, -⟩ := h.payload hp
  have hgot : k.rdgot.toNat = k.nacc.toNat := by simpa [hrem] using hsum
  rw [hgot] at hc hbs hss
  exact ⟨by simp [hbs], by simp [hss], hc⟩

/-- A payload that is no whole number of pairs: rows 9 and 10 of R243, bytes before samples (R152). -/
theorem Block.Inv.finish_records (h : k.Inv) (hp : k.phase = .payload) (hrem : k.rdrem = 0)
    (hf : k.finish.phase = .failed) :
    k.finish.err = .malformedBlock ∧
      (k.finish.expect = 0 ∧ k.finish.actual = 0 ∧
        k.finish.consumed.toNat = 2 + k.finish.lcnt.toNat + k.finish.nacc.toNat) ∧
      ((k.finish.esub = .oddBytes ∧ k.finish.nacc.toNat % 2 = 1) ∨
        (k.finish.esub = .oddSamples ∧ k.finish.nacc.toNat % 4 = 2)) := by
  obtain ⟨hexp, hact⟩ := h.counts (by simp [hp])
  obtain ⟨hbytes, hsamples, hc⟩ := h.payload_end hp hrem
  obtain ⟨hb, hk⟩ | ⟨hb, hs, hk⟩ | ⟨-, -, hk⟩ := k.finish_cases
  · rw [hk]
    exact ⟨rfl, ⟨hexp, hact, hc⟩, .inl ⟨rfl, hbytes.1 hb⟩⟩
  · have heven : ¬ k.nacc.toNat % 2 = 1 := fun hodd => by simp [hbytes.2 hodd] at hb
    have hodd := hsamples.1 hs
    rw [hk]
    exact ⟨rfl, ⟨hexp, hact, hc⟩, .inr ⟨rfl, by dsimp only; omega⟩⟩
  · simp [hk] at hf

end

/-- Settles O41: of the transitions of R158 four operations lead to `FAILED`; a timeout has a row for each of the three
reads, and the end of the block one for each toggle. -/
theorem failuresRecordTheirCause : Obligations.FailuresRecordTheirCause := by
  intro i s t hinv hne h hfailed
  obtain hsame | ⟨-, hidle⟩ | ⟨-, -, harmed⟩ | ⟨b, rfl, -, -⟩ | ⟨b, rfl, hp, -, -⟩ | ⟨rfl, -, -⟩ |
    ⟨rfl, hp, -⟩ := phaseTransitionsAreTheListed i s t hinv h
  · exact absurd (hsame.symm.trans hfailed) hne
  · simp [hfailed] at hidle
  · simp [hfailed] at harmed
  · obtain ⟨he, rfl⟩ := exec_blockMove rfl (by nofun) h
    obtain ⟨hp, hg⟩ := (s.blk.enables_rxLcnt b).1 he
    exact .inr (.inl ⟨b, rfl, hinv.countDigit_records hp hg hfailed⟩)
  · obtain ⟨-, rfl⟩ := exec_blockMove rfl (by nofun) h
    exact .inr (.inr (.inr (.inl ⟨b, rfl, hinv.lengthDigit_records hp hfailed⟩)))
  · obtain ⟨hr, rfl⟩ := exec_blockMove rfl (by nofun) h
    obtain hp | hp | ⟨hp, -, -⟩ := s.blk.enables_rxTmo.1 hr
    · exact .inl ⟨rfl, hinv.timeOut_prefix_records hp⟩
    · exact .inr (.inr (.inl ⟨rfl, hinv.timeOut_length_records hp⟩))
    · exact .inr (.inr (.inr (.inr (.inl ⟨rfl, hinv.timeOut_payload_records hp hr⟩))))
  · obtain ⟨he, rfl⟩ := exec_blockMove rfl (by nofun) h
    obtain ⟨-, hrem, -⟩ := s.blk.enables_fin.1 he
    obtain ⟨herr, hcounts, ⟨hesub, hodd⟩ | ⟨hesub, htwo⟩⟩ := hinv.finish_records hp hrem hfailed
    · exact .inr (.inr (.inr (.inr (.inr (.inl ⟨rfl, herr, hesub, hodd, hcounts⟩)))))
    · exact .inr (.inr (.inr (.inr (.inr (.inr ⟨rfl, herr, hesub, htwo, hcounts⟩)))))

/-! ### The ways out of `FAILED` -/

section
variable {k : Sel} {p : Wire} {i : Instr} {m : HostMove}

/-- A `START` is read from a write of `CTRL` with bit 0 set, or is that of `H.RUN` (R121, R123, R224). -/
theorem wire_of_decode_startsBlock (h : decode k p = .op i) (hi : StartsBlock i) :
    p = .call .run ∨ ∃ v : RegWord, v.getLsbD 0 = true ∧ p = .regWrite 0 v := by
  obtain ⟨hw, -, hp⟩ := decodeOnlyEnabled k p i h
  obtain rfl | rfl | ⟨v, rfl, hv⟩ := hi
  · obtain rfl | ⟨v, hv, rfl, -⟩ := hp
    · exact .inr ⟨1, by decide, rfl⟩
    · exact .inr ⟨v, hv, rfl⟩
  · exact .inl (wire_of_decode_call h rfl)
  · exact absurd hw (by rw [Instr.wellFormed, Instr.writesOther, hv]; decide)

theorem eq_write_of_hostWire {n : Nat} {v : RegWord} (h : hostWire m = .regWrite n v) : m = .write n v := by
  cases m <;> cases h
  rfl

/-- No host move is read as a reset. -/
theorem decode_hostWire_ne_reset : decode k (hostWire m) ≠ .op .reset := by
  intro h
  have hevent := Laws.decode_event h
  cases m <;> cases hevent

end

/-- Settles O42: a failed block has no move of its own, so a step leaves it, resets it or arms it
(`exec_blockChange`), and the last two come only from the turns that say so. -/
theorem failureIsLeftOnlyByStartOrReset : Obligations.FailureIsLeftOnlyByStartOrReset := by
  intro s t hp hstep
  obtain ⟨p, i, ms, r, hd, -, -, -, hport, he⟩ | ⟨ms, r, -, -, rfl⟩ := step_shape hstep
  · cases exec_blockChange he with
    | kept _ hk => exact .inl hk
    | move hf hen _ =>
      have hbusy : s.blk.busy = true := blockMove_busy hf hen
      simp [Block.busy, hp] at hbusy
    | reset hi hk =>
      subst hi
      refine .inr (.inl ⟨?_, hk⟩)
      obtain ⟨m, -, rfl⟩ | ⟨-, hturn⟩ | hi | hi | hi | ⟨b, rfl⟩ := hport
      · exact absurd hd decode_hostWire_ne_reset
      · exact hturn
      · cases hi
      · cases hi
      · cases hi
      · exact absurd (decode_byte_not_host hd) (by simp)
    | start hi _ hk =>
      refine .inr (.inr ⟨?_, hk⟩)
      have hwire := wire_of_decode_startsBlock hd hi
      obtain ⟨m, hm, rfl⟩ | ⟨rfl, -⟩ | rfl | rfl | rfl | ⟨b, rfl⟩ := hport
      · obtain hrun | ⟨v, hv, hwrite⟩ := hwire
        · exact .inl (hm.trans (by rw [eq_callMove_of_hostWire hrun, callMove]))
        · exact .inr ⟨v, hv, hm.trans (by rw [eq_write_of_hostWire hwrite])⟩
      · simp [StartsBlock] at hi
      · simp [StartsBlock] at hi
      · simp [StartsBlock] at hi
      · simp [StartsBlock] at hi
      · simp at hwire
  · exact .inl rfl

end Sys2Proof.Machine
end

-- ==== Reset, and what is refused ====
section
/-! SUPPORT. The reset input (70_reset_and_hazards.md R270, R271): what `RESET` does to the host, and the host's register
accesses while the input is held. Beside it the operations asked for where R100 does not have them. -/

namespace Sys2Proof.Machine

/-! ### The operations where they are not enabled -/

section
variable {i : Instr} {k : Sel} {f : Block → Block} {s : State}

/-- Only an operation of the block has a guard in R100; `START`, the register accesses, the unpacker, reset and the host
steps are `always`. -/
theorem exists_blockMove_of_not_enabled (he : k.enables i = false) : ∃ f, blockMove i = some f := by
  cases i with
  | rxMark _ | rxLcnt _ | rxLdig _ | rxPlo _ | rxPhi _ | rxTmo | fin | rlCnt _ | rlCod _ | rlEmit => exact ⟨_, rfl⟩
  | start | rdreg _ | wrreg _ _ | ccRgb _ | reset | hIdn | hQuery | hRun | hDim | hCommit => cases he

theorem exec_rlEmit_disabled (he : s.blk.sel.enables .rlEmit = false) :
    exec .rlEmit s = .refused (.notEnabled "RL.EMIT") :=
  if_neg (Bool.eq_false_iff.1 he)

end

/-- Settles O8: an operation that can be disabled is one of the block's, and its guard refuses it by name. -/
theorem disabledOperationsAreRefused : Obligations.DisabledOperationsAreRefused := by
  intro i s he
  by_cases hi : i = .rlEmit
  · subst hi
    exact ⟨_, exec_rlEmit_disabled he⟩
  · obtain ⟨f, hf⟩ := exists_blockMove_of_not_enabled he
    obtain ⟨m, hm⟩ := exec_eq_blockOp hf hi s
    exact ⟨m, hm.trans (State.blockOp_disabled he)⟩

/-! ### `RESET` -/

/-- Settles O27: what becomes of the host's capture is `HostSide.abandon_eq`. -/
theorem resetClearsTheBlockOnly : Obligations.ResetClearsTheBlockOnly := by
  intro s
  have hexec : exec .reset s = .next { s with blk := Block.reset, host := s.host.abandon } := rfl
  rw [hexec, HostSide.abandon_eq]

/-! ### The reset input held -/

section
variable {s : State} {ts : List Turn} {n : Nat} {v : RegWord}

/-- A write that would be `START` is lost while reset is held, as every other write is dropped (R123, R270). -/
theorem State.writeReg_held (hrst : s.rst = true) : s.writeReg n v = s := by
  obtain hw | ⟨-, -, -, hreleased, -⟩ := s.writeReg_cases n v
  · exact hw
  · exact absurd hreleased (by simp [hrst])

/-- The host's turn with a write does the write, whether the decoder reads it as `START` or as `WRREG` (R121, R123). -/
theorem step_write (ht : s.turns = .host (.write n v) :: ts) :
    step s = .next (State.writeReg { s with turns := ts } n v) := by
  by_cases hstart : (n == 0 && v.getLsbD 0) = true
  · have hd : decode s.blk.sel (.regWrite n v) = .op .start := if_pos hstart
    have hwrite : State.writeReg { s with turns := ts } n v = State.start { s with turns := ts } := if_pos hstart
    rw [hwrite]
    exact step_of_fire ht rfl hd
  · have hd : decode s.blk.sel (.regWrite n v) = .op (.wrreg n v) := if_neg hstart
    exact step_of_fire ht rfl hd

/-- The host's turn with a read hands it the register's value (R122). -/
theorem step_read (ht : s.turns = .host (.read n) :: ts) :
    step s = .next { s with turns := ts, host := { s.host with rdata := s.blk.readReg n } } :=
  step_of_fire (p := .regRead n) (i := .rdreg n) ht rfl rfl

end

/-- Settles O28: the reset block is not busy, so nothing moves it (`idleBlockTakesNothing`); a write is lost and a read
gives the register of the reset block. -/
theorem heldResetFreezesTheBlock : Obligations.HeldResetFreezesTheBlock := by
  intro s ts hrst hblk
  refine ⟨fun t ht => ?moves, fun n => ?read⟩
  case moves =>
    have hidle : s.blk.busy = false := by rw [hblk]; rfl
    by_cases hown : t = .source ∨ t = .watchdog ∨ t = .sink ∨ t = .block
    · exact idleBlockTakesNothing s t ts hidle hown
    · obtain ⟨n, v, rfl⟩ : ∃ n v, t = .host (.write n v) := by tauto
      exact (step_write rfl).trans (congrArg Host.Outcome.next (State.writeReg_held hrst))
  case read => rw [step_read rfl, hblk, Block.readReg_reset]

end Sys2Proof.Machine
end
